-- ==== Sys2Proof/Word.lean ====
section
/-! DEFINITION. The words of AT45DB-SEQ: the widths spec/00_scope.md R3 and R4 give them. -/

namespace Sys2Proof

/-- The unit of every transfer: one byte per exchange (20_memory.md R51). -/
abbrev Byte := BitVec 8

/-- A page address: a 24-bit byte offset into the flash array (20_memory.md R40, `ADDR_W`). -/
abbrev Addr := BitVec 24

/-- An offset inside a page or a buffer in binary mode (20_memory.md R43, `OFFSET_W`). -/
abbrev Offset := BitVec 9

/-- The status word (10_state.md R21, `STATUS_W`). -/
abbrev StatusWord := BitVec 16

/-- The cached identifier (10_state.md R11, `ID_W`). -/
abbrev Ident := BitVec 32

end Sys2Proof
end

