-- ==== Sys2Proof/Config.lean ====
section
/-! DEFINITION. The parameters of spec/00_scope.md R3 and the free values (`draw` of R4).
A parameter R3 gives a value is a constant here. A parameter R3 marks OPEN is a field of `Config`,
an argument the machine carries: no statement about every state fixes one. -/

namespace Sys2Proof

/-- The OPEN parameters of R3, with what an implementation fixes once. No step writes it (log 2). -/
structure Config where
  /-- the byte SEQ sends when it only wants to receive (30_encoding.md R92) -/
  dummy : Byte
  opcStatusRead : Byte
  opcIdRead : Byte
  /-- the four bytes `PSZ_SEQ[0..3]` of the page-size switch (30_encoding.md R76) -/
  psz0 : Byte
  psz1 : Byte
  psz2 : Byte
  psz3 : Byte
  opcPageRead : Byte
  opcProgB1 : Byte
  opcProgB2 : Byte
  opcBufwB1 : Byte
  opcBufwB2 : Byte
  opcB2mB1 : Byte
  opcB2mB2 : Byte
  opcPageErase : Byte
  opcUdpd : Byte
  /-- `N_PAGES` (20_memory.md R42) -/
  nPages : Nat
  /-- `ERASED_BYTE` (D21) -/
  erasedByte : Byte
  /-- `B2M_BUILTIN_ERASE` (47_target.md R178) -/
  b2mBuiltinErase : Bool
  /-- `SIZE_W`, bits of the size operand -/
  sizeW : Nat
  /-- `CFG_MAX_HZ` (40_init.md R104) -/
  cfgMaxHz : Nat
  /-- `T_WAKE_PULSE` in nanoseconds (46_power_down.md R161) -/
  tWakePulse : Nat
  /-- `INIT_CFG_ON_ID_MISMATCH` (40_init.md R101) -/
  initCfgOnIdMismatch : Bool
  /-- `NV_CYCLE_LIMIT` (10_state.md R31), "about 10,000" -/
  nvCycleLimit : Nat
  /-- whether a chip answers on the bus; without one every received byte is a draw
  (93_implementation_defined.md U3, 60_exceptions.md R206; log 20) -/
  chipPresent : Bool
  deriving DecidableEq, Repr

/-- How one busy window of the target ends, as the environment chose it (47_target.md R182, log 4). -/
structure Fate where
  /-- how many opportunities TGT-COMPLETE lets pass before it fires; `none`: it never fires (R189) -/
  after : Option Nat
  /-- `okc`: the operation succeeded -/
  ok : Bool
  deriving DecidableEq, Repr, Inhabited

namespace Config

/-- `PAGE_SIZE` -/
def pageSize : Nat := 512
/-- `NATIVE_PAGE_SIZE`: named by the spec, used by no rule (47_target.md R187) -/
def nativePageSize : Nat := 528
/-- `EXPECTED_ID` (D12) -/
def expectedId : Ident := 0x001F2600
/-- `CHIP_MAX_HZ` -/
def chipMaxHz : Nat := 16000000
/-- `T_WAKE_PULSE_MIN`, nanoseconds -/
def tWakePulseMin : Nat := 20
/-- `T_WAKE_SETTLE` in nanoseconds: the reference value 1 ms -/
def tWakeSettle : Nat := 1000000
/-- `M_RDY` -/
def mRdy : StatusWord := 0x8000
/-- `M_IDCODE` -/
def mIdCode : StatusWord := 0x3C00
/-- `M_BINARY` -/
def mBinary : StatusWord := 0x0100
/-- `M_EPE` -/
def mEpe : StatusWord := 0x0020

/-- `draw(byte)`: the n-th free byte (00_scope.md R4, R6). Nothing constrains it. -/
opaque freeByte : Nat → Byte
/-- the n-th free fate of a busy window (47_target.md R182, R189). Nothing constrains it. -/
opaque freeFate : Nat → Fate
/-- `CFG_MAX_HZ`, for which R3 gives neither value nor default. -/
opaque openMaxHz : Nat
/-- what `T_WAKE_PULSE` has above its minimum: R3 gives the constraint and no default. -/
opaque openWakeExtra : Nat

/-- The twelve first bytes of 00_scope.md R3's constraint, in its order. -/
def firstBytes (c : Config) : List Byte :=
  [c.opcStatusRead, c.opcIdRead, c.psz0, c.opcPageRead, c.opcProgB1, c.opcProgB2,
   c.opcBufwB1, c.opcBufwB2, c.opcB2mB1, c.opcB2mB2, c.opcPageErase, c.opcUdpd]

/-- The constraints R3 puts on its OPEN parameters: first bytes pairwise distinct
(30_encoding.md R86) and `T_WAKE_PULSE >= T_WAKE_PULSE_MIN`. -/
def wf (c : Config) : Bool :=
  decide c.firstBytes.Nodup && decide (tWakePulseMin ≤ c.tWakePulse)

/-- The recommended defaults of R3, PRESUMED (GK2 to GK5; log 2). -/
def default : Config where
  dummy := 0x00
  opcStatusRead := 0xD7
  opcIdRead := 0x9F
  psz0 := 0x3D
  psz1 := 0x2A
  psz2 := 0x80
  psz3 := 0xA6
  opcPageRead := 0xD2
  opcProgB1 := 0x82
  opcProgB2 := 0x85
  opcBufwB1 := 0x84
  opcBufwB2 := 0x87
  opcB2mB1 := 0x83
  opcB2mB2 := 0x86
  opcPageErase := 0x81
  opcUdpd := 0x79
  nPages := 4096
  erasedByte := 0xFF
  b2mBuiltinErase := true
  sizeW := 16
  cfgMaxHz := openMaxHz
  tWakePulse := tWakePulseMin + openWakeExtra
  initCfgOnIdMismatch := true
  nvCycleLimit := 10000
  chipPresent := true

end Config
end Sys2Proof
end

