-- ==== Sys2Proof/Syntax.lean ====
section
/-! DEFINITION. The instructions: one constructor per row of spec/opcode_table.json. The first sixteen
are the host level (30_encoding.md R71, R87), the other thirteen the wire level (R73 to R80). -/

namespace Sys2Proof

/-- One operation or one wire command. `data` is the byte stream of the data phase, `size` the byte
count of a page read; wire commands carry what a target takes from the transaction, so bytes that are
don't-care for it (dummies) are no operands. -/
inductive Instr where
  -- host level: the operations of 30_encoding.md R71
  | init
  | getStatus
  | getId
  | readPage (addr : Addr) (size : Nat)
  | writePage (addr : Addr) (data : List Byte)
  | writeBuffer (off : Offset) (data : List Byte)
  | bufferToMemory (addr : Addr)
  | erasePage (addr : Addr)
  | isReady
  | isErrorFlagged
  | setBinaryPageSize
  | enterUdpd
  | exitUdpd
  -- the reserved op-select codes of R87
  | reserved13
  | reserved14
  | reserved15
  -- wire level: the commands of the table under R80
  | wStatus
  | wId
  | wPsz
  | wRead (addr : Addr) (n : Nat)
  | wProg1 (addr : Addr) (data : List Byte)
  | wProg2 (addr : Addr) (data : List Byte)
  | wBufw1 (addr : Addr) (data : List Byte)
  | wBufw2 (addr : Addr) (data : List Byte)
  | wB2m1 (addr : Addr)
  | wB2m2 (addr : Addr)
  | wErase (addr : Addr)
  | wUdpd
  | wWake
  deriving DecidableEq, Repr

end Sys2Proof
end

