-- ==== Sys2Proof/WellFormed.lean ====
section
/-! DEFINITION. Which instructions are well formed: the size of a host request's data phase is a natural
number below `2^SIZE_W` (10_state.md R18). The widths of addresses and offsets are in their types; the
wire level bounds no data phase (30_encoding.md R89). -/

namespace Sys2Proof

/-- `size` is below `2^SIZE_W`. -/
def sizeFits (cfg : Config) (size : Nat) : Bool := decide (size < 2 ^ cfg.sizeW)

/-- Well-formed instructions, one arm a constructor. -/
def Instr.wellFormed (cfg : Config) : Instr → Bool
  | .init => true
  | .getStatus => true
  | .getId => true
  | .readPage _ size => sizeFits cfg size
  | .writePage _ data => sizeFits cfg data.length
  | .writeBuffer _ data => sizeFits cfg data.length
  | .bufferToMemory _ => true
  | .erasePage _ => true
  | .isReady => true
  | .isErrorFlagged => true
  | .setBinaryPageSize => true
  | .enterUdpd => true
  | .exitUdpd => true
  | .reserved13 => true
  | .reserved14 => true
  | .reserved15 => true
  | .wStatus => true
  | .wId => true
  | .wPsz => true
  | .wRead _ _ => true
  | .wProg1 _ _ => true
  | .wProg2 _ _ => true
  | .wBufw1 _ _ => true
  | .wBufw2 _ _ => true
  | .wB2m1 _ => true
  | .wB2m2 _ => true
  | .wErase _ => true
  | .wUdpd => true
  | .wWake => true

end Sys2Proof
end

