-- ==== Sys2Proof/Decode.lean ====
section
/-! DEFINITION. The two encodings (spec/30_encoding.md): host words of format H with their data stream,
and wire transactions as byte lists; a total decoder that rejects by name, and the encoder. -/

namespace Sys2Proof

/-- What arrives at the block from outside: a host request (its format H word and the buffer the host
lends, R71), or one whole wire transaction of another bus master (R88, log 13). -/
inductive Packet where
  | host (word : Nat) (data : List Byte)
  | wire (bytes : List Byte)
  deriving DecidableEq, Repr

/-- Why a packet is no instruction. -/
inductive DecodeError where
  /-- the word has bits above `27+SIZE_W` (R71) -/
  | wordTooWide
  /-- the host buffer holds fewer than `size` bytes for an operation that sends them (10_state.md R18) -/
  | bufferTooShort
  /-- no wire command has this first byte (R88) -/
  | unknownOpcode
  /-- the transaction's length does not fit the format of its first byte (R88) -/
  | wrongLength
  /-- the first byte of `PSZ_SEQ` followed by anything but the rest of it (R88) -/
  | wrongPageSizeSequence
  deriving DecidableEq, Repr

/-- The three address bytes, most significant first (R81). -/
def addrBytes (a : Addr) : List Byte :=
  [a.extractLsb' 16 8, a.extractLsb' 8 8, a.extractLsb' 0 8]

/-- `addr = t[1] ++ t[2] ++ t[3]` (47_target.md R174). -/
def joinAddr (a2 a1 a0 : Byte) : Addr := a2 ++ a1 ++ a0

/-- The 9-bit operand of WRITEBUFFER, zero-extended (R82). -/
def offsetAddr (o : Offset) : Addr := o.setWidth 24

/-- A word of format H (R71): `op` in 3:0, `addr` in 27:4, `size` from bit 28 up. -/
def hostWord (op : Nat) (addr : Addr) (size : Nat) : Nat :=
  op + addr.toNat * 2 ^ 4 + size * 2 ^ 28

/-- The data stream of an operation that sends `size` bytes of the host's buffer. -/
def takeStream (size : Nat) (data : List Byte) (k : List Byte → Instr) : Except DecodeError Instr :=
  if size ≤ data.length then .ok (k (data.take size)) else .error .bufferTooShort

/-- The host level (R71): fields an operation does not use are ignored (V71; WRITEBUFFER uses bits
12:4 of the word only, log 14). -/
def decodeHost (cfg : Config) (word : Nat) (data : List Byte) : Except DecodeError Instr :=
  if word < 2 ^ (28 + cfg.sizeW) then
    let addr : Addr := BitVec.ofNat 24 (word / 2 ^ 4)
    let size := word / 2 ^ 28
    match word % 16 with
    | 0 => .ok .init
    | 1 => .ok .getStatus
    | 2 => .ok .getId
    | 3 => .ok (.readPage addr size)
    | 4 => takeStream size data (.writePage addr)
    | 5 => takeStream size data (.writeBuffer (addr.setWidth 9))
    | 6 => .ok (.bufferToMemory addr)
    | 7 => .ok (.erasePage addr)
    | 8 => .ok .isReady
    | 9 => .ok .isErrorFlagged
    | 10 => .ok .setBinaryPageSize
    | 11 => .ok .enterUdpd
    | 12 => .ok .exitUdpd
    | 13 => .ok .reserved13
    | 14 => .ok .reserved14
    | _ => .ok .reserved15
  else .error .wordTooWide

/-- Formats `WA` and `WD(n)`: three address bytes and then the data phase (R78, R79). -/
def withAddr (rest : List Byte) (k : Addr → List Byte → Except DecodeError Instr) :
    Except DecodeError Instr :=
  match rest with
  | a2 :: a1 :: a0 :: data => k (joinAddr a2 a1 a0) data
  | _ => .error .wrongLength

/-- Format `WA`: an address and nothing after it (R78). -/
def onlyAddr (rest : List Byte) (k : Addr → Instr) : Except DecodeError Instr :=
  withAddr rest fun a data => if data = [] then .ok (k a) else .error .wrongLength

/-- A transaction of exactly `n` bytes after the opcode. -/
def exactly (n : Nat) (rest : List Byte) (i : Instr) : Except DecodeError Instr :=
  if rest.length = n then .ok i else .error .wrongLength

/-- The wire level as the target reads it (R89, 47_target.md R170): the first byte decides the format,
the length is where chip-select rises, and no byte at all is the pulse. -/
def decodeWire (cfg : Config) : List Byte → Except DecodeError Instr
  | [] => .ok .wWake
  | op :: rest =>
    if op = cfg.opcStatusRead then exactly 2 rest .wStatus
    else if op = cfg.opcIdRead then exactly 3 rest .wId
    else if op = cfg.psz0 then
      if rest = [cfg.psz1, cfg.psz2, cfg.psz3] then .ok .wPsz else .error .wrongPageSizeSequence
    else if op = cfg.opcPageRead then
      withAddr rest fun a data =>
        if 4 ≤ data.length then .ok (.wRead a (data.length - 4)) else .error .wrongLength
    else if op = cfg.opcProgB1 then withAddr rest fun a data => .ok (.wProg1 a data)
    else if op = cfg.opcProgB2 then withAddr rest fun a data => .ok (.wProg2 a data)
    else if op = cfg.opcBufwB1 then withAddr rest fun a data => .ok (.wBufw1 a data)
    else if op = cfg.opcBufwB2 then withAddr rest fun a data => .ok (.wBufw2 a data)
    else if op = cfg.opcB2mB1 then onlyAddr rest .wB2m1
    else if op = cfg.opcB2mB2 then onlyAddr rest .wB2m2
    else if op = cfg.opcPageErase then onlyAddr rest .wErase
    else if op = cfg.opcUdpd then exactly 0 rest .wUdpd
    else .error .unknownOpcode

/-- The decoder: total on every packet. -/
def decode (cfg : Config) : Packet → Except DecodeError Instr
  | .host word data => decodeHost cfg word data
  | .wire bytes => decodeWire cfg bytes

/-- A query of format `WQ(k)` (R75). -/
def queryBytes (cfg : Config) (op : Byte) (k : Nat) : List Byte :=
  op :: List.replicate k cfg.dummy

/-- The 8-byte header of format `WR(n)` (R77). -/
def readHeader (cfg : Config) (a : Addr) : List Byte :=
  cfg.opcPageRead :: (addrBytes a ++ List.replicate 4 cfg.dummy)

/-- The 4-byte header of formats `WA` and `WD(n)` (R78, R79). -/
def addrHeader (op : Byte) (a : Addr) : List Byte := op :: addrBytes a

/-- The four bytes of format `WX` (R76). -/
def pageSizeBytes (cfg : Config) : List Byte := [cfg.psz0, cfg.psz1, cfg.psz2, cfg.psz3]

/-- A request without operands, or with an address only. -/
def hostPacket (op : Nat) (addr : Addr) : Packet := .host (hostWord op addr 0) []

/-- The encoder, from the tables of 30_encoding.md. -/
def encode (cfg : Config) : Instr → Packet
  | .init => hostPacket 0 0
  | .getStatus => hostPacket 1 0
  | .getId => hostPacket 2 0
  | .readPage a size => .host (hostWord 3 a size) []
  | .writePage a data => .host (hostWord 4 a data.length) data
  | .writeBuffer o data => .host (hostWord 5 (offsetAddr o) data.length) data
  | .bufferToMemory a => hostPacket 6 a
  | .erasePage a => hostPacket 7 a
  | .isReady => hostPacket 8 0
  | .isErrorFlagged => hostPacket 9 0
  | .setBinaryPageSize => hostPacket 10 0
  | .enterUdpd => hostPacket 11 0
  | .exitUdpd => hostPacket 12 0
  | .reserved13 => hostPacket 13 0
  | .reserved14 => hostPacket 14 0
  | .reserved15 => hostPacket 15 0
  | .wStatus => .wire (queryBytes cfg cfg.opcStatusRead 2)
  | .wId => .wire (queryBytes cfg cfg.opcIdRead 3)
  | .wPsz => .wire (pageSizeBytes cfg)
  | .wRead a n => .wire (readHeader cfg a ++ List.replicate n cfg.dummy)
  | .wProg1 a data => .wire (addrHeader cfg.opcProgB1 a ++ data)
  | .wProg2 a data => .wire (addrHeader cfg.opcProgB2 a ++ data)
  | .wBufw1 a data => .wire (addrHeader cfg.opcBufwB1 a ++ data)
  | .wBufw2 a data => .wire (addrHeader cfg.opcBufwB2 a ++ data)
  | .wB2m1 a => .wire (addrHeader cfg.opcB2mB1 a)
  | .wB2m2 a => .wire (addrHeader cfg.opcB2mB2 a)
  | .wErase a => .wire (addrHeader cfg.opcPageErase a)
  | .wUdpd => .wire [cfg.opcUdpd]
  | .wWake => .wire []

/-- How many zero bytes follow the first byte of the shortest transaction of a wire row. -/
def tablePadding (op : Nat) : Option Nat :=
  match op with
  | 0xD7 => some 2
  | 0x9F => some 3
  | 0xD2 => some 7
  | 0x82 => some 3
  | 0x85 => some 3
  | 0x84 => some 3
  | 0x87 => some 3
  | 0x83 => some 3
  | 0x86 => some 3
  | 0x81 => some 3
  | 0x79 => some 0
  | _ => none

/-- The packet that a word of spec/opcode_table.json stands for, every operand above `nbits` zero
(log 19). The table mixes its two levels: the row without bits is `W_WAKE`; the 32-bit row is `W_PSZ`,
whose first byte the table writes as the most significant; a byte that is a wire row's is that wire
command; every other word is a host word, its data stream zeros. -/
def tablePacket (nbits w : Nat) : Packet :=
  if nbits = 0 then .wire []
  else if nbits = 32 ∧ w = 0x3D2A80A6 then .wire [0x3D, 0x2A, 0x80, 0xA6]
  else match (if nbits ≤ 8 then tablePadding w else none) with
    | some k => .wire (BitVec.ofNat 8 w :: List.replicate k 0)
    | none => .host w (List.replicate (w / 2 ^ 28) 0)

/-- What the decoder reads from a word of the table, with the table's parameter values. -/
def decodeTableWord (nbits w : Nat) : Option Instr :=
  match decode Config.default (tablePacket nbits w) with
  | .ok i => some i
  | .error _ => none

end Sys2Proof
end

