-- ==== Sys2Proof/Machine/State.lean ====
section
/-! DEFINITION. The state of the machine as plain data: SEQ (spec/10_state.md R10 to R17), TGT (R23 to R31),
the ports between and around them, and the reasons a step can stop. -/

namespace Sys2Proof.Machine

/-- Cells that hold a byte, as (address, byte) pairs with strictly rising addresses. An address that is
not listed holds `UNDEF` (00_scope.md R6; log 8), so setting a cell to `UNDEF` removes its entry. -/
abbrev Memory := List Host.Cell

/-- `TGT.mode` (R24). -/
inductive Mode where
  | idle | busy | dpd | udpd
  deriving DecidableEq, Repr

/-- The two SRAM page buffers (R26). -/
inductive BufId where
  | one | two
  deriving DecidableEq, Repr

/-- What a busy target is carrying out, the values of `TGT.pending` other than `none` (R30). -/
inductive Work where
  /-- `PROG(p, b)`. `clean`: the erase condition of 47_target.md R178 held at the `CS1` (log 9). -/
  | prog (page : Nat) (b : BufId) (clean : Bool)
  /-- `ERASE(p)` -/
  | erase (page : Nat)
  /-- `NVCFG` -/
  | nvcfg
  deriving DecidableEq, Repr

/-- The free values of the environment (log 3): those it has already chosen, next first, then an opaque
source read through a counter. -/
structure Draws where
  bytes : List Byte
  fates : List Fate
  taken : Nat
  deriving DecidableEq, Repr

/-- The target (R23). -/
structure Tgt where
  mode : Mode
  pending : Option Work
  /-- `TGT.main`, cell `[p][i]` at key `p * 512 + i` (R25) -/
  main : Memory
  /-- `TGT.buf[1]`, keys 0 to 511 (R26) -/
  buf1 : Memory
  /-- `TGT.buf[2]` -/
  buf2 : Memory
  nvBinary : Bool
  epe : Bool
  devId : BitVec 24
  density : BitVec 4
  nvCycles : Nat
  /-- the model's own: how the running busy window ends (log 4) -/
  fate : Fate
  /-- the model's own: the free values (log 3) -/
  free : Draws
  deriving DecidableEq, Repr

/-- An event of the bus trace (R34). `x tx none` is `X(tx,_)`: the received byte is discarded (log 18). -/
inductive BusEvent where
  | clk (hz : Nat)
  | cs0
  | cs1
  | x (tx : Byte) (rx : Option Byte)
  | dly (ns : Nat)
  deriving DecidableEq, Repr

/-- A host response (30_encoding.md R72). -/
structure Response where
  ok : Bool
  value : BitVec 32
  deriving DecidableEq, Repr

/-- Who called SETBINARYPAGESIZE (30_encoding.md R91). -/
inductive Caller where
  | host | init
  deriving DecidableEq, Repr

/-- What SEQ does with the byte an exchange receives (R19; 00_scope.md R5). -/
inductive Sink where
  /-- `_ <- Xchg(tx)` -/
  | discard
  /-- the byte is a transient of the operation (R17) -/
  | keep
  /-- `HostOut(i, Xchg(tx))` -/
  | hostOut (i : Nat)
  deriving DecidableEq, Repr

/-- One primitive call of SEQ (00_scope.md R5): each appends one event to the bus trace. -/
inductive Call where
  | csAssert
  | csDeassert
  | xchg (tx : Byte) (sink : Sink)
  | delay (ns : Nat)
  | setClock (hz : Nat)
  deriving DecidableEq, Repr

/-- The straight-line pieces operations are made of: `op` and, for SETBINARYPAGESIZE and INIT, which
part of it (R16). What follows the last call of a piece is its `return`, the loop or a conditional. -/
inductive Stage where
  | getStatus
  | getId
  | readPage
  | writePage
  | writeBuffer
  | bufferToMemory
  | erasePage
  | isReady
  | isErrorFlagged
  | enterUdpd
  | exitUdpd
  /-- the first status read of SETBINARYPAGESIZE (42_page_size.md R120) -/
  | sizeCheck (caller : Caller)
  /-- its page-size switch -/
  | sizeSwitch (caller : Caller)
  /-- its poll loop (R121) -/
  | sizePoll (caller : Caller)
  /-- its status read after the loop -/
  | sizeRecheck (caller : Caller)
  /-- INIT's steps (a), (b) and (c) (40_init.md R100) -/
  | initIdent
  /-- INIT's status read of step (d) -/
  | initStatus
  deriving DecidableEq, Repr

/-- `SEQ_PC` (R16) as the remaining list of primitive calls. `idle` is `IDLE`, `initStart` the first step
of INIT. `running stage rest kept` is inside `stage`, with the calls `rest` still
to be made and the bytes `kept` received so far (R17). -/
inductive SeqPc where
  | idle
  | initStart
  | running (stage : Stage) (rest : List Call) (kept : List Byte)
  deriving DecidableEq, Repr

/-- The sequencer (R10) with its host port's outputs and the bus trace. -/
structure Seq where
  idCache : Ident
  /-- `PW_SEL`: false is 0, buffer 1 next (R12) -/
  pwSel : Bool
  /-- `BW_SEL`: false is 0, buffer 1 (R13) -/
  bwSel : Bool
  clkHz : Nat
  /-- `CS`: true is 1, inactive (R15) -/
  cs : Bool
  pc : SeqPc
  trace : List BusEvent
  /-- the response to the last request; `none` while one is being served -/
  resp : Option Response
  /-- the buffer the host lent with the running request (20_memory.md R40) -/
  hostBuf : List Byte
  deriving DecidableEq, Repr

/-- The reasons of 60_exceptions.md R207 for which the target's side of a transaction is undefined. All
are SAFE: the chip does something where the model stops. -/
inductive TgtFault where
  | commandWhileBusy
  | commandWhilePoweredDown
  | unknownCommand
  | addressOutOfRange
  | nativePageMode
  | nvWornOut
  deriving DecidableEq, Repr

/-- The machine. -/
structure State where
  /-- the parameters: no step writes them (log 2) -/
  cfg : Config
  seq : Seq
  tgt : Tgt
  /-- the bytes the target has received since the last `CS0`, none while chip-select is high
  (20_memory.md R55) -/
  shifted : List Byte
  /-- what the target has raised in the operation in progress: SEQ cannot see it and goes on
  (60_exceptions.md R207; log 10) -/
  tgtFault : Option TgtFault
  /-- what waits at the ports, next first (R18, V72; log 13) -/
  requests : List Packet
  /-- the reset input: asserted after that many more primitive calls (70_reset_and_hazards.md R230; log 11) -/
  resetIn : Option Nat
  /-- what the target returned in the last raw wire transaction, `none` for a draw (log 13) -/
  wireRx : List (Option Byte)
  deriving DecidableEq, Repr

/-- The faults. They come from the target's rules only (60_exceptions.md R200, R207). Each carries SEQ's
side at the end of the operation, which stays defined (R207, log 10): registers, trace, response. -/
inductive Fault where
  /-- raised by a busy target on any transaction of at least one byte but a status read (47_target.md
  R183). SAFE: the real chip allows more (GK7). -/
  | commandWhileBusy (seen : Seq)
  /-- raised by a target in ultra-deep power-down on any transaction of at least one byte (R184), and in
  deep power-down on every transaction (R185). SAFE. -/
  | commandWhilePoweredDown (seen : Seq)
  /-- raised by a target that reads no wire command in a transaction (R186, 70_reset_and_hazards.md
  R230). SAFE. -/
  | unknownCommand (seen : Seq)
  /-- raised by an addressed command whose page is `N_PAGES` or above (R186). SAFE. -/
  | addressOutOfRange (seen : Seq)
  /-- raised by a main-array or buffer command while the target is in native page mode (R187). SAFE. -/
  | nativePageMode (seen : Seq)
  /-- raised by a page-size switch past `NV_CYCLE_LIMIT` (10_state.md R31; log 17). SAFE. -/
  | nvWornOut (seen : Seq)
  deriving DecidableEq, Repr

/-- The refusals. -/
inductive Refusal where
  /-- raised by `exec` for an instruction without a meaning. SAFE. -/
  | notModelled (mnemonic : String)
  /-- raised by the reserved op-select codes 13, 14 and 15: no bus event, no register change, no value
  (30_encoding.md R87). SAFE: the spec refuses them. -/
  | reservedOpSelect (code : BitVec 4)
  /-- raised by `step` on a packet that is no request of 10_state.md R18: a word wider than format H, or
  a host buffer shorter than the `size` bytes the operation sends (log 15). SAFE. -/
  | malformedRequest (why : DecodeError)
  deriving DecidableEq, Repr

/-- SEQ at reset entry (R11 to R16; log 7 for `clkHz`, `cs` and `hostBuf`). -/
def Seq.reset : Seq where
  idCache := 0
  pwSel := false
  bwSel := false
  clkHz := 0
  cs := true
  pc := .initStart
  trace := []
  resp := none
  hostBuf := []

/-- The target SEQ meets at reset: the launch premise of 70_reset_and_hazards.md R233 and the premise of
95_test_vectors.md (log 6); every cell `UNDEF` (log 8). -/
def Tgt.reset : Tgt where
  mode := .idle
  pending := none
  main := []
  buf1 := []
  buf2 := []
  nvBinary := true
  epe := false
  devId := 0x1F2600
  density := 0b1011
  nvCycles := 0
  fate := ⟨some 0, true⟩
  free := ⟨[], [], 0⟩

/-- The machine right after reset (70_reset_and_hazards.md R231). -/
def State.reset : State where
  cfg := Config.default
  seq := .reset
  tgt := .reset
  shifted := []
  tgtFault := none
  requests := []
  resetIn := none
  wireRx := []

end Sys2Proof.Machine
end

