-- ==== Sys2Proof/Machine/Flags.lean ====
section
/-! DEFINITION. The status word: its assembly, the four fields the spec defines, and the two bytes the target
composes (spec/10_state.md R21, R22; 47_target.md R171). -/

namespace Sys2Proof.Machine

/-- `status = (zext_16(rx[1]) << 8) | zext_16(rx[2])` (30_encoding.md R83). -/
def statusWord (b1 b2 : Byte) : StatusWord := b1.setWidth 16 <<< 8 ||| b2.setWidth 16

/-- `Ready(s) = (s[15] = 1)` (R22). -/
def ready (s : StatusWord) : Bool := s.getLsbD 15
/-- `IdCode(s) = s[13:10]` (R22); no operation of SEQ reads it. -/
def idCode (s : StatusWord) : BitVec 4 := s.extractLsb' 10 4
/-- `Binary(s) = (s[8] = 1)` (R22). -/
def binary (s : StatusWord) : Bool := s.getLsbD 8
/-- `Error(s) = (s[5] = 1)` (R22). -/
def error (s : StatusWord) : Bool := s.getLsbD 5

/-- A flag as bit `k` of a byte. -/
def bitAt (k : Nat) (b : Bool) : Byte := if b then 1#8 <<< k else 0

/-- byte1 (R171): bit 7 ready, bits 5:2 the density code, bit 0 binary, bits 6 and 1 undefined. -/
def statusByte1 (rdy : Bool) (density : BitVec 4) (bin : Bool) (undef : Byte) : Byte :=
  bitAt 7 rdy ||| (density.setWidth 8 <<< 2) ||| bitAt 0 bin ||| (undef &&& 0x42)

/-- byte2 (R171): bit 5 the error flag, all other bits undefined. -/
def statusByte2 (epe : Bool) (undef : Byte) : Byte := bitAt 5 epe ||| (undef &&& 0xDF)

end Sys2Proof.Machine
end

