-- ==== Sys2Proof/Machine/Memory.lean ====
section
/-! DEFINITION. The named operations over a cell memory (spec/10_state.md R25, R26; 00_scope.md R6). All
writes go through `splice`, which replaces the content of one address range. -/

namespace Sys2Proof.Machine

/-- The canonical form: addresses strictly rising (an unlisted address is `UNDEF`, so no listed byte
can equal what it would read as). -/
abbrev Memory.wf (m : Memory) : Prop := m.Pairwise fun c d => c.1 < d.1

/-- Every listed address lies below `n`. -/
abbrev Memory.below (m : Memory) (n : Nat) : Prop := ∀ c ∈ m, c.1 < n

/-- The content of one cell: a byte, or `none` for `UNDEF`. -/
def Memory.read (m : Memory) (a : Nat) : Option Byte := m.lookup a

/-- `m` with the addresses `base` to `base + len - 1` holding exactly what `seg` lists. -/
def Memory.splice (m : Memory) (base len : Nat) (seg : Memory) : Memory :=
  m.filter (fun c => decide (c.1 < base)) ++ seg ++ m.filter (fun c => decide (base + len ≤ c.1))

/-- Bytes laid out from an address up. -/
def cellsFrom : Nat → List Byte → Memory
  | _, [] => []
  | a, b :: bs => (a, b) :: cellsFrom (a + 1) bs

/-- Store bytes from an address up. -/
def Memory.store (m : Memory) (a : Nat) (bytes : List Byte) : Memory :=
  m.splice a bytes.length (cellsFrom a bytes)

/-- Set `len` cells to one byte. -/
def Memory.fill (m : Memory) (base len : Nat) (v : Byte) : Memory :=
  m.store base (List.replicate len v)

/-- Set `len` cells to `UNDEF`. -/
def Memory.forget (m : Memory) (base len : Nat) : Memory := m.splice base len []

/-- Set `len` cells to the first `len` cells of `src`, `UNDEF` ones included. -/
def Memory.copy (m : Memory) (base len : Nat) (src : Memory) : Memory :=
  m.splice base len ((src.filter fun c => decide (c.1 < len)).map fun c => (base + c.1, c.2))

/-- Whether `len` cells all hold one byte. -/
def Memory.holds (m : Memory) (base len : Nat) (v : Byte) : Bool :=
  (List.range len).all fun i => m.read (base + i) == some v

end Sys2Proof.Machine
end

