-- ==== Sys2Proof/Machine/Operands.lean ====
section
/-! DEFINITION. The operand forms: the page and offset of an address, the identifier's assembly, and the opcode
and buffer a rotation flag selects (spec/20_memory.md R41, 30_encoding.md R84, R85). -/

namespace Sys2Proof.Machine

/-- `page(addr) = addr[23:9]` (20_memory.md R41). -/
def page (a : Addr) : Nat := (a.extractLsb' 9 15).toNat
/-- `off(addr) = addr[8:0]` (R41). -/
def off (a : Addr) : Nat := (a.extractLsb' 0 9).toNat
/-- The key of cell `[p][0]` of the main array. -/
def pageBase (p : Nat) : Nat := p * Config.pageSize

/-- `id = (zext_32(rx[1]) << 16) | (zext_32(rx[2]) << 8) | zext_32(rx[3])` (30_encoding.md R84). -/
def assembleId (i0 i1 i2 : Byte) : Ident :=
  i0.setWidth 32 <<< 16 ||| i1.setWidth 32 <<< 8 ||| i2.setWidth 32

/-- The buffer a rotation flag names: 0 is buffer 1, 1 is buffer 2 (10_state.md R12, R13). -/
def selBuf (sel : Bool) : BufId := if sel then .two else .one

/-- The opcode WRITEPAGE sends (30_encoding.md R85). -/
def progOpcode (cfg : Config) (sel : Bool) : Byte := if sel then cfg.opcProgB2 else cfg.opcProgB1
/-- The opcode WRITEBUFFER sends (R85). -/
def bufwOpcode (cfg : Config) (sel : Bool) : Byte := if sel then cfg.opcBufwB2 else cfg.opcBufwB1
/-- The opcode BUFFERTOMEMORY sends (R85). -/
def b2mOpcode (cfg : Config) (sel : Bool) : Byte := if sel then cfg.opcB2mB2 else cfg.opcB2mB1

/-- A boolean result in bit 0 of the response value (30_encoding.md R72). -/
def boolValue (b : Bool) : BitVec 32 := (BitVec.ofBool b).setWidth 32

end Sys2Proof.Machine
end

