-- ==== Sys2Proof/Machine/Target.lean ====
section
/-! DEFINITION. The target: draws, TGT-COMPLETE, the data phase byte by byte, and what happens at the `CS1`
(spec/47_target.md). R170 gives the order. -/

namespace Sys2Proof.Machine

/-- `draw(byte)`: the next free byte (00_scope.md R4, R6). -/
def Draws.nextByte (d : Draws) : Byte × Draws :=
  match d.bytes with
  | b :: bs => (b, { d with bytes := bs })
  | [] => (Config.freeByte d.taken, { d with taken := d.taken + 1 })

/-- The byte a position gives: what the target answers there, a fresh draw where no rule defines it
(00_scope.md R6: an `UNDEF` cell; 47_target.md R170). -/
def Draws.receive (d : Draws) : Option Byte → Byte × Draws
  | some b => (b, d)
  | none => d.nextByte

/-- The next free fate of a busy window (R182). -/
def Draws.nextFate (d : Draws) : Fate × Draws :=
  match d.fates with
  | f :: fs => (f, { d with fates := fs })
  | [] => (Config.freeFate d.taken, { d with taken := d.taken + 1 })

/-- Content of a buffer. -/
def Tgt.buf (t : Tgt) : BufId → Memory
  | .one => t.buf1
  | .two => t.buf2

/-- Replace the content of a buffer. -/
def Tgt.setBuf (t : Tgt) (b : BufId) (m : Memory) : Tgt :=
  match b with
  | .one => { t with buf1 := m }
  | .two => { t with buf2 := m }

/-- Every cell of a page becomes `UNDEF`. -/
def Tgt.forgetPage (t : Tgt) (p : Nat) : Tgt :=
  { t with main := t.main.forget (pageBase p) Config.pageSize }

/-- Cell `[page(addr)][(off(addr) + i) mod PAGE_SIZE]`: the wrap of 20_memory.md R53. -/
def Tgt.pageCell (t : Tgt) (a : Addr) (i : Nat) : Option Byte :=
  t.main.read (pageBase (page a) + (off a + i) % Config.pageSize)

/-- TGT-COMPLETE for `PROG` (R182): the whole buffer, `UNDEF` cells included, if the operation succeeded
and the erase condition held; else the page is `UNDEF`. `epe` says whether it failed. The buffer keeps
its content (D26). -/
def Tgt.completeProg (t : Tgt) (p : Nat) (b : BufId) (clean : Bool) : Tgt :=
  { t with
    main := if t.fate.ok && clean then t.main.copy (pageBase p) Config.pageSize (t.buf b)
      else t.main.forget (pageBase p) Config.pageSize
    epe := !t.fate.ok }

/-- TGT-COMPLETE for `ERASE` (R182). -/
def Tgt.completeErase (cfg : Config) (t : Tgt) (p : Nat) : Tgt :=
  { t with
    main := if t.fate.ok then t.main.fill (pageBase p) Config.pageSize cfg.erasedByte
      else t.main.forget (pageBase p) Config.pageSize
    epe := !t.fate.ok }

/-- TGT-COMPLETE for `NVCFG` (R182): `epe` is unchanged either way. -/
def Tgt.completeNv (t : Tgt) : Tgt := { t with nvBinary := t.fate.ok || t.nvBinary }

/-- TGT-COMPLETE (R182): the pending operation ends, and the target is idle. -/
def Tgt.complete (cfg : Config) (t : Tgt) : Tgt :=
  let t := match t.pending with
    | some (.prog p b clean) => t.completeProg p b clean
    | some (.erase p) => t.completeErase cfg p
    | some .nvcfg => t.completeNv
    | none => t
  { t with pending := none, mode := .idle }

/-- One opportunity for TGT-COMPLETE, which is enabled exactly while the target is busy (R182): it fires
when its fate says so, and never when the fate is a chip that hangs (R189; log 4). -/
def Tgt.tick (cfg : Config) (t : Tgt) : Tgt :=
  match t.mode with
  | .busy =>
    match t.fate.after with
    | some 0 => t.complete cfg
    | some (n + 1) => { t with fate := { t.fate with after := some n } }
    | none => t
  | .idle => t
  | .dpd => t
  | .udpd => t

/-- The `CS1` that starts a busy window (R188, row one): its fate is a fresh free value. -/
def Tgt.startBusy (t : Tgt) (w : Work) : Tgt :=
  { t with mode := .busy, pending := some w, fate := t.free.nextFate.1, free := t.free.nextFate.2 }

/-- One byte of the buffer load of R175, at position `i` of its buffer: stored in place, or, past the
buffer's end, the whole buffer `UNDEF`. -/
def Tgt.loadByte (t : Tgt) (b : BufId) (i : Nat) (v : Byte) : Tgt :=
  t.setBuf b (if i < Config.pageSize then (t.buf b).store i [v] else [])

/-- The buffer load of R175, byte by byte from position `i` up. -/
def Tgt.loadBytes (b : BufId) : Nat → List Byte → Tgt → Tgt
  | _, [], t => t
  | i, v :: vs, t => Tgt.loadBytes b (i + 1) vs (t.loadByte b i v)

/-- The whole buffer load of R175: from the low nine bits of the address up. -/
def Tgt.loadBuffer (t : Tgt) (b : BufId) (a : Addr) (data : List Byte) : Tgt :=
  Tgt.loadBytes b (off a) data t

/-- byte1 of the status word at the moment of its exchange, its undefined bits drawn (R171, D28; log 5). -/
def Tgt.byte1 (t : Tgt) : Byte :=
  statusByte1 (t.mode == .idle) t.density t.nvBinary t.free.nextByte.1

/-- byte2 of the status word at the moment of its exchange, its undefined bits drawn (R171, D28). -/
def Tgt.byte2 (t : Tgt) : Byte := statusByte2 t.epe t.free.nextByte.1

/-- The target after a draw. -/
def Tgt.drawn (t : Tgt) : Tgt := { t with free := t.free.nextByte.2 }

/-- Byte `k + 1` of a status read (R171): byte1 and byte2 each at its own exchange, with an opportunity
for TGT-COMPLETE between them (D31). -/
def Tgt.statusByte (cfg : Config) (t : Tgt) (k : Nat) : Tgt × Option Byte :=
  match k with
  | 0 => (t.drawn, some t.byte1)
  | 1 => let u := t.tick cfg; (u.drawn, some u.byte2)
  | _ => (t, none)

/-- Byte `k + 1` of an identifier read (R172). -/
def Tgt.identByte (t : Tgt) (k : Nat) : Option Byte :=
  match k with
  | 0 => some (t.devId.extractLsb' 16 8)
  | 1 => some (t.devId.extractLsb' 8 8)
  | 2 => some (t.devId.extractLsb' 0 8)
  | _ => none

/-- The gate of R170 (1) for a transaction of `n` bytes: which mode lets it through (R183 to R185). -/
def gate (m : Mode) (n : Nat) (isStatus : Bool) : Option TgtFault :=
  match m with
  | .idle => none
  | .busy => if n = 0 ∨ isStatus then none else some .commandWhileBusy
  | .udpd => if n = 0 then none else some .commandWhilePoweredDown
  | .dpd => some .commandWhilePoweredDown

/-- The checks of R170 (4) for a command that touches the main array, in its order: the page exists
(R186), the page size is binary (R187; log 29). -/
def Tgt.pageCheck (cfg : Config) (t : Tgt) (a : Addr) : Option TgtFault :=
  if page a < cfg.nPages then
    if t.nvBinary then none else some .nativePageMode
  else some .addressOutOfRange

/-- What a wire command needs besides the gate: the checks of R170 (4); for a buffer load the page mode
alone, since R177 ignores the page bits (log 16); for the switch a nonvolatile cycle (10_state.md R31;
log 17). A host operation is no wire command (R186). -/
def Tgt.check (cfg : Config) (t : Tgt) (i : Instr) : Option TgtFault :=
  match i with
  | .wStatus => none
  | .wId => none
  | .wPsz => if t.nvCycles < cfg.nvCycleLimit then none else some .nvWornOut
  | .wRead a _ => t.pageCheck cfg a
  | .wProg1 a _ => t.pageCheck cfg a
  | .wProg2 a _ => t.pageCheck cfg a
  | .wBufw1 _ _ => if t.nvBinary then none else some .nativePageMode
  | .wBufw2 _ _ => if t.nvBinary then none else some .nativePageMode
  | .wB2m1 a => t.pageCheck cfg a
  | .wB2m2 a => t.pageCheck cfg a
  | .wErase a => t.pageCheck cfg a
  | .wUdpd => none
  | .wWake => none
  | .init => some .unknownCommand
  | .getStatus => some .unknownCommand
  | .getId => some .unknownCommand
  | .readPage _ _ => some .unknownCommand
  | .writePage _ _ => some .unknownCommand
  | .writeBuffer _ _ => some .unknownCommand
  | .bufferToMemory _ => some .unknownCommand
  | .erasePage _ => some .unknownCommand
  | .isReady => some .unknownCommand
  | .isErrorFlagged => some .unknownCommand
  | .setBinaryPageSize => some .unknownCommand
  | .enterUdpd => some .unknownCommand
  | .exitUdpd => some .unknownCommand
  | .reserved13 => some .unknownCommand
  | .reserved14 => some .unknownCommand
  | .reserved15 => some .unknownCommand

/-- The next byte of a command's data phase, given the command its bytes so far make: `W_READ` answers
the next cell (R174), `W_PROG1/2` and `W_BUFW1/2` load the byte into their buffer (R175). -/
def Tgt.dataByte (i : Instr) (tx : Byte) (t : Tgt) : Tgt × Option Byte :=
  match i with
  | .wStatus => (t, none)
  | .wId => (t, none)
  | .wPsz => (t, none)
  | .wRead a k => (t, t.pageCell a k)
  | .wProg1 a d => (t.loadByte .one (off a + d.length) tx, none)
  | .wProg2 a d => (t.loadByte .two (off a + d.length) tx, none)
  | .wBufw1 a d => (t.loadByte .one (off a + d.length) tx, none)
  | .wBufw2 a d => (t.loadByte .two (off a + d.length) tx, none)
  | .wB2m1 _ => (t, none)
  | .wB2m2 _ => (t, none)
  | .wErase _ => (t, none)
  | .wUdpd => (t, none)
  | .wWake => (t, none)
  | .init => (t, none)
  | .getStatus => (t, none)
  | .getId => (t, none)
  | .readPage _ _ => (t, none)
  | .writePage _ _ => (t, none)
  | .writeBuffer _ _ => (t, none)
  | .bufferToMemory _ => (t, none)
  | .erasePage _ => (t, none)
  | .isReady => (t, none)
  | .isErrorFlagged => (t, none)
  | .setBinaryPageSize => (t, none)
  | .enterUdpd => (t, none)
  | .exitUdpd => (t, none)
  | .reserved13 => (t, none)
  | .reserved14 => (t, none)
  | .reserved15 => (t, none)

/-- Whether the target follows a transaction while it lasts: an idle one does, a busy one a status read
only (R170 (1)). -/
def Tgt.hears (t : Tgt) (isStatus : Bool) : Bool :=
  match t.mode with
  | .idle => true
  | .busy => isStatus
  | .dpd => false
  | .udpd => false

/-- One exchange of a transaction, after the bytes `before`: what the target does at it and answers,
`none` where no rule defines the byte (R170). The first byte is the opcode; status and identifier
answer by position; the other commands by what the bytes so far make (20_memory.md R55: the data phase
acts byte by byte). -/
def Tgt.exchange (cfg : Config) (before : List Byte) (tx : Byte) (t : Tgt) : Tgt × Option Byte :=
  match before with
  | [] => (t, none)
  | op :: args =>
    if t.hears (op == cfg.opcStatusRead) then
      if op = cfg.opcStatusRead then t.statusByte cfg args.length
      else if op = cfg.opcIdRead then (t, t.identByte args.length)
      else match decodeWire cfg (op :: args) with
        | .ok i => if (t.check cfg i).isNone then t.dataByte i tx else (t, none)
        | .error _ => (t, none)
    else (t, none)

/-- The exchanges of a transaction one after the other. -/
def Tgt.exchanges (cfg : Config) : List Byte → List Byte → Tgt → Tgt × List (Option Byte)
  | _, [], t => (t, [])
  | before, tx :: txs, t =>
    let (t, r) := t.exchange cfg before tx
    let (t, rs) := Tgt.exchanges cfg (before ++ [tx]) txs t
    (t, r :: rs)

/-- The erase condition of R178, as it stands at the `CS1` (log 9). -/
def Tgt.eraseCondition (cfg : Config) (t : Tgt) (p : Nat) : Bool :=
  cfg.b2mBuiltinErase || t.main.holds (pageBase p) Config.pageSize cfg.erasedByte

/-- The `CS1` of `W_PROG1`, `W_PROG2` (R176): the whole buffer will be programmed. -/
def Tgt.program (t : Tgt) (b : BufId) (a : Addr) : Tgt :=
  (t.forgetPage (page a)).startBusy (.prog (page a) b true)

/-- The `CS1` of `W_B2M1`, `W_B2M2` (R178). -/
def Tgt.bufferToPage (cfg : Config) (t : Tgt) (b : BufId) (a : Addr) : Tgt :=
  (t.forgetPage (page a)).startBusy (.prog (page a) b (t.eraseCondition cfg (page a)))

/-- The `CS1` of `W_ERASE` (R179). -/
def Tgt.pageErase (t : Tgt) (a : Addr) : Tgt := (t.forgetPage (page a)).startBusy (.erase (page a))

/-- The `CS1` of `W_PSZ` (R173): accepted, and paid for, whatever the page size is. -/
def Tgt.pageSizeSwitch (t : Tgt) : Tgt :=
  { t with nvCycles := t.nvCycles + 1 : Tgt }.startBusy .nvcfg

/-- The `CS1` of `W_UDPD` (R180; log 31). -/
def Tgt.powerDown (t : Tgt) : Tgt := { t with mode := .udpd }

/-- What the `CS1` of a command does (R170 (5)): nothing for the commands that only answer or load. -/
def Tgt.commit (cfg : Config) (i : Instr) (t : Tgt) : Tgt :=
  match i with
  | .wStatus => t
  | .wId => t
  | .wPsz => t.pageSizeSwitch
  | .wRead _ _ => t
  | .wProg1 a _ => t.program .one a
  | .wProg2 a _ => t.program .two a
  | .wBufw1 _ _ => t
  | .wBufw2 _ _ => t
  | .wB2m1 a => t.bufferToPage cfg .one a
  | .wB2m2 a => t.bufferToPage cfg .two a
  | .wErase a => t.pageErase a
  | .wUdpd => t.powerDown
  | .wWake => t
  | .init => t
  | .getStatus => t
  | .getId => t
  | .readPage _ _ => t
  | .writePage _ _ => t
  | .writeBuffer _ _ => t
  | .bufferToMemory _ => t
  | .erasePage _ => t
  | .isReady => t
  | .isErrorFlagged => t
  | .setBinaryPageSize => t
  | .enterUdpd => t
  | .exitUdpd => t
  | .reserved13 => t
  | .reserved14 => t
  | .reserved15 => t

/-- What the target makes of the bytes of a whole transaction, in the order of R170: the gate, the
command they are, its checks (log 23). -/
def Tgt.verdict (cfg : Config) (bytes : List Byte) (t : Tgt) : Except TgtFault Instr :=
  match decodeWire cfg bytes with
  | .ok i =>
    match gate t.mode bytes.length (i == .wStatus), t.check cfg i with
    | some f, _ => .error f
    | none, some f => .error f
    | none, none => .ok i
  | .error _ =>
    match gate t.mode bytes.length false with
    | some f => .error f
    | none => .error .unknownCommand

/-- The `CS1` of a transaction: "deassert = latch/execute" (R170). -/
def Tgt.latch (cfg : Config) (bytes : List Byte) (t : Tgt) : Tgt × Option TgtFault :=
  match t.verdict cfg bytes with
  | .ok i => (t.commit cfg i, none)
  | .error f => (t, some f)

/-- The wake out of ultra-deep power-down (R181): both buffers `UNDEF`, `epe` drawn. -/
def Tgt.wakeUp (t : Tgt) : Tgt :=
  { t with mode := .idle, buf1 := [], buf2 := [], epe := t.free.nextByte.1.getLsbD 0,
           free := t.free.nextByte.2 }

/-- The end of the settle time after a bare pulse (R181): a wake in `UDPD`, nothing in another mode. -/
def Tgt.settle (t : Tgt) : Tgt :=
  match t.mode with
  | .udpd => t.wakeUp
  | .idle => t
  | .busy => t
  | .dpd => t

end Sys2Proof.Machine
end

