-- ==== Sys2Proof/Machine/Ops.lean ====
section
/-! DEFINITION. The operations SEQ is made of (spec/00_scope.md R5): the primitive calls, each one advance of
`SEQ_PC` (10_state.md R16); what follows the last call of a piece; the response, the reset, and the soft error
that stands in for taking an exception. -/

namespace Sys2Proof.Machine

/-- The fault of a target reason, with SEQ's side (log 10). -/
def TgtFault.toFault (f : TgtFault) (seen : Seq) : Fault :=
  match f with
  | .commandWhileBusy => .commandWhileBusy seen
  | .commandWhilePoweredDown => .commandWhilePoweredDown seen
  | .unknownCommand => .unknownCommand seen
  | .addressOutOfRange => .addressOutOfRange seen
  | .nativePageMode => .nativePageMode seen
  | .nvWornOut => .nvWornOut seen

/-! ### Reset -/

/-- SEQ's registers at reset entry (10_state.md R11 to R16, 70_reset_and_hazards.md R231): `CS` and
`CLK_HZ` wait for INIT's steps (a) and (b), the trace starts anew (R34). The target is not reset
(R233, D41), its buffers included: the model's choice where R26, R231 and 45_buffer_erase.md R151 call a
buffer not written since reset `UNDEF` (log 32). -/
def State.resetRegs (s : State) : State :=
  { s with seq := { s.seq with
      idCache := 0, pwSel := false, bwSel := false, pc := .initStart, trace := [], resp := none } }

/-- The reset input: SEQ drops what it does, and INIT is next (70_reset_and_hazards.md R230). The target,
its buffers (log 32) and what waits at the host port stay (R233). -/
def State.assertReset (s : State) : State := { s.resetRegs with resetIn := none }

/-- The reset input after `n` primitive calls (log 11). -/
def State.spend (s : State) (n : Nat) : State := { s with resetIn := s.resetIn.map (· - n) }

/-! ### Primitive calls -/

/-- The calls of a transaction (30_encoding.md R73). -/
def xactCalls (exchanges : List Call) : List Call := .csAssert :: (exchanges ++ [.csDeassert])

/-- `_ <- Xchg(b)` for each byte. -/
def discards (bytes : List Byte) : List Call := bytes.map fun b => .xchg b .discard

/-- A transaction that keeps nothing. -/
def sendCalls (bytes : List Byte) : List Call := xactCalls (discards bytes)

/-- Format `WQ(k)` (R75): the opcode, then `k` dummies, their received bytes kept. -/
def queryCalls (cfg : Config) (op : Byte) (k : Nat) : List Call :=
  xactCalls (.xchg op .discard :: List.replicate k (.xchg cfg.dummy .keep))

/-- `GETSTATUS` (41_status_id.md R110). -/
def statusCalls (cfg : Config) : List Call := queryCalls cfg cfg.opcStatusRead 2

/-- `GETID` (41_status_id.md R111). -/
def identCalls (cfg : Config) : List Call := queryCalls cfg cfg.opcIdRead 3

/-- Format `WR(n)` (R77), byte `i` received going to the host's buffer (43_page_read.md R130). -/
def readCalls (cfg : Config) (a : Addr) (n : Nat) : List Call :=
  xactCalls (discards (readHeader cfg a) ++ (List.range n).map fun i => .xchg cfg.dummy (.hostOut i))

/-- The bare pulse and the settle time (46_power_down.md R161). -/
def wakeCalls (cfg : Config) : List Call :=
  [.csAssert, .delay cfg.tWakePulse, .csDeassert, .delay Config.tWakeSettle]

/-- INIT's steps (a), (b) and (c) (40_init.md R100, R104). -/
def initCalls (cfg : Config) : List Call :=
  .csDeassert :: .setClock (min cfg.cfgMaxHz Config.chipMaxHz) :: identCalls cfg

/-- Append an event to the bus trace (10_state.md R34). -/
def State.log (s : State) (e : BusEvent) : State :=
  { s with seq := { s.seq with trace := s.seq.trace ++ [e] } }

/-- Whether the target follows what SEQ does: a chip is on the bus (log 20), and it has raised no fault
in this operation, after which its state has no meaning (log 10). -/
def State.reaches (s : State) : Bool := s.cfg.chipPresent && s.tgtFault.isNone

/-- `CsAssert()`: `CS <- 0`. A transaction begins, with an opportunity for TGT-COMPLETE before it. -/
def State.csAssert (s : State) : State :=
  { s.log .cs0 with
    tgt := if s.reaches then s.tgt.tick s.cfg else s.tgt
    shifted := []
    seq := { (s.log .cs0).seq with cs := false } }

/-- `CsDeassert()`: `CS <- 1`. If chip-select was low the target sees the edge and acts on the bytes it
has received, those of a transaction that a reset has cut included (70_reset_and_hazards.md R230). -/
def State.csDeassert (s : State) : State :=
  let (t, f) := if s.reaches && !s.seq.cs then s.tgt.latch s.cfg s.shifted else (s.tgt, none)
  { s.log .cs1 with
    tgt := t
    tgtFault := s.tgtFault <|> f
    shifted := []
    seq := { (s.log .cs1).seq with cs := true } }

/-- `HostOut(i, v)`; bytes above the last one stored stay (43_page_read.md R130; log 27). -/
def hostOut (i : Nat) (v : Byte) (buf : List Byte) : List Byte := buf.take i ++ v :: buf.drop (i + 1)

/-- `Xchg(tx)`: the target's answer, and where its byte goes; with it, the byte if it is kept. -/
def State.xchg (s : State) (tx : Byte) (sink : Sink) : State × List Byte :=
  let (t, r) := if s.reaches then s.tgt.exchange s.cfg s.shifted tx else (s.tgt, none)
  let s := { s with tgt := t, shifted := s.shifted ++ [tx] }
  let (b, free) := t.free.receive r
  match sink with
  | .discard => (s.log (.x tx none), [])
  | .keep => ({ s.log (.x tx (some b)) with tgt := { t with free := free } }, [b])
  | .hostOut i =>
    let s := s.log (.x tx (some b))
    ({ s with
       tgt := { t with free := free }
       seq := { s.seq with hostBuf := hostOut i b s.seq.hostBuf } }, [])

/-- `Delay(t)`: an event and nothing else (R20; log 24). -/
def State.delay (s : State) (ns : Nat) : State := s.log (.dly ns)

/-- `SetClock(hz)`. -/
def State.setClock (s : State) (hz : Nat) : State :=
  { s.log (.clk hz) with seq := { (s.log (.clk hz)).seq with clkHz := hz } }

/-- The effect of one primitive call (00_scope.md R5), and the byte it keeps. -/
def State.perform (s : State) (c : Call) : State × List Byte :=
  match c with
  | .csAssert => (s.csAssert, [])
  | .csDeassert => (s.csDeassert, [])
  | .xchg tx sink => s.xchg tx sink
  | .delay ns => (s.delay ns, [])
  | .setClock hz => (s.setClock hz, [])

/-! ### What follows the last call of a piece -/

/-- SEQ starts on a list of calls; there is no response while it is at them (R18). -/
def State.begin (s : State) (stage : Stage) (calls : List Call) : State :=
  { s with seq := { s.seq with pc := .running stage calls [], resp := none } }

/-- `return v`: the one response, `ok = 1` always, and `SEQ_PC <- IDLE` (00_scope.md R5,
30_encoding.md R72, 60_exceptions.md R200). -/
def State.respond (s : State) (v : BitVec 32) : State :=
  { s with seq := { s.seq with pc := .idle, resp := some ⟨true, v⟩ } }

/-- What stands in for taking an exception, on `E1` and `E2` (60_exceptions.md R210): the single write
`ID_CACHE <- 0`. Nothing is saved, nothing is masked, control goes on; nothing returns (R211). -/
def State.softError (s : State) : State := { s with seq := { s.seq with idCache := 0 } }

/-- The status word two received bytes make (30_encoding.md R83). -/
def statusOf (kept : List Byte) : StatusWord := statusWord (kept.getD 0 0) (kept.getD 1 0)

/-- The identifier three received bytes make (30_encoding.md R84). -/
def identOf (kept : List Byte) : Ident := assembleId (kept.getD 0 0) (kept.getD 1 0) (kept.getD 2 0)

/-- `GETID` writes `ID_CACHE`, called by the host or by INIT (41_status_id.md R111, D42). -/
def State.cacheId (s : State) (id : Ident) : State := { s with seq := { s.seq with idCache := id } }

/-- The end of the settle time of EXITUDPD: the wake, "taken as one step at the end" (47_target.md R181). -/
def State.settle (s : State) : State := { s with tgt := if s.reaches then s.tgt.settle else s.tgt }

/-- The return of SETBINARYPAGESIZE to its caller: its boolean to the host, or INIT's page-size check and
INIT's own return (40_init.md R102, R103). -/
def State.pageSizeReturn (s : State) (caller : Caller) (ok : Bool) : State :=
  match caller with
  | .host => s.respond (boolValue ok)
  | .init => (if ok then s else s.softError).respond 0

/-- One turn of the poll loop: a status read, no delay, no bound (42_page_size.md R121). -/
def State.poll (s : State) (caller : Caller) : State := s.begin (.sizePoll caller) (statusCalls s.cfg)

/-- INIT's step (d): read status (40_init.md R100). -/
def State.initStatus (s : State) : State := s.begin .initStatus (statusCalls s.cfg)

/-- What follows the last call of a piece, with the bytes it kept: `return`, the next piece, or the loop. -/
def State.endStage (s : State) (stage : Stage) (kept : List Byte) : State :=
  match stage with
  | .getStatus => s.respond ((statusOf kept).setWidth 32)
  | .getId => (s.cacheId (identOf kept)).respond (identOf kept)
  | .readPage => s.respond 0
  | .writePage => s.respond 0
  | .writeBuffer => s.respond 0
  | .bufferToMemory => s.respond 0
  | .erasePage => s.respond 0
  | .isReady => s.respond (boolValue (ready (statusOf kept)))
  | .isErrorFlagged => s.respond (boolValue (error (statusOf kept)))
  | .enterUdpd => s.respond 0
  | .exitUdpd => s.settle.respond 0
  -- SETBINARYPAGESIZE, 42_page_size.md R120, R121
  | .sizeCheck caller =>
    if binary (statusOf kept) then s.pageSizeReturn caller true
    else s.begin (.sizeSwitch caller) (sendCalls (pageSizeBytes s.cfg))
  | .sizeSwitch caller => s.poll caller
  | .sizePoll caller =>
    if ready (statusOf kept) then s.begin (.sizeRecheck caller) (statusCalls s.cfg) else s.poll caller
  | .sizeRecheck caller => s.pageSizeReturn caller (binary (statusOf kept))
  -- INIT, 40_init.md R100 to R102; D9: the parameter says whether a mismatch ends it
  | .initIdent =>
    let s := s.cacheId (identOf kept)
    if identOf kept = Config.expectedId then s.initStatus
    else if s.cfg.initCfgOnIdMismatch then s.softError.initStatus
    else s.softError.respond 0
  | .initStatus =>
    if binary (statusOf kept) then s.respond 0
    else s.begin (.sizeCheck .init) (statusCalls s.cfg)

/-! ### SEQ's own step, and operations as runs of it -/

/-- One advance of `SEQ_PC` (R16): the reset, if it is due (70_reset_and_hazards.md R230), else the next
primitive call and, after the last of a piece, what follows it. -/
def State.callStep (s : State) : State :=
  if s.resetIn = some 0 then s.assertReset
  else match s.seq.pc with
    | .running stage (c :: rest) kept =>
      let (t, got) := (s.spend 1).perform c
      let kept := kept ++ got
      let t := { t with seq := { t.seq with pc := .running stage rest kept } }
      match rest with
      | [] => t.endStage stage kept
      | _ :: _ => t
    | .running _ [] _ => s
    | .idle => s
    | .initStart => s

/-- `n` advances. -/
def State.calls : Nat → State → State
  | 0, s => s
  | n + 1, s => State.calls n s.callStep

/-- How many calls are left of the piece SEQ is in. -/
def SeqPc.left : SeqPc → Nat
  | .idle => 0
  | .initStart => 0
  | .running _ rest _ => rest.length

/-- The poll loop, the only piece without a bound (42_page_size.md R121). -/
def Stage.isPoll : Stage → Bool
  | .sizePoll _ => true
  | _ => false

/-- Where one step of the machine leaves SEQ: outside an operation, or in the poll loop, whose turns are
steps of their own (log 1). -/
def SeqPc.rests : SeqPc → Bool
  | .idle => true
  | .initStart => true
  | .running stage _ _ => stage.isPoll

/-- The piece SEQ is in, to its end, and up to `n` more, until SEQ rests. -/
def State.carryOn : Nat → State → State
  | 0, s => s.calls s.seq.pc.left
  | n + 1, s =>
    let s := s.calls s.seq.pc.left
    if s.seq.pc.rests then s else s.carryOn n

/-- SEQ goes on from where it is until it rests. INIT, the longest, has four pieces before its poll loop. -/
def State.resume (s : State) : State := s.carryOn 3

/-- The end of a step: a fault the target has raised is reported once the operation is over, with SEQ's
side of it (60_exceptions.md R207; log 10), else the state reached. -/
def State.finish (s : State) : Host.Outcome State Fault Refusal :=
  match s.tgtFault with
  | none => .next s
  | some f =>
    match s.seq.pc with
    | .running _ _ _ => .next s
    | .idle => .fault (f.toFault s.seq)
    | .initStart => .fault (f.toFault s.seq)

/-- A host operation: SEQ starts on its first piece and goes on until it rests. -/
def State.serve (s : State) (stage : Stage) (calls : List Call) : Host.Outcome State Fault Refusal :=
  (s.begin stage calls).resume.finish

/-! ### Raw transactions -/

/-- A whole transaction by another bus master (log 13), handled by the target as one of SEQ's is. That
master lets a bare pulse settle. -/
def wireStep (s : State) (bytes : List Byte) : Host.Outcome State Fault Refusal :=
  if s.cfg.chipPresent then
    let (t, rx) := Tgt.exchanges s.cfg [] bytes (s.tgt.tick s.cfg)
    match t.latch s.cfg bytes with
    | (t, none) => .next { s with tgt := if bytes = [] then t.settle else t, wireRx := rx }
    | (_, some f) => .fault (f.toFault s.seq)
  else .next { s with wireRx := bytes.map fun _ => none }

end Sys2Proof.Machine
end

