-- ==== Sys2Proof/Machine/BufferErase.lean ====
section
/-! DEFINITION. WRITEBUFFER, BUFFERTOMEMORY, ERASEPAGE (spec/45_buffer_erase.md). -/

namespace Sys2Proof.Machine

/-- WRITEBUFFER (R150): the buffer `BW_SEL` selects; the flag is not changed (D6). -/
def execWriteBuffer (o : Offset) (data : List Byte) (s : State) : Host.Outcome State Fault Refusal :=
  s.serve .writeBuffer
    (sendCalls (addrHeader (bufwOpcode s.cfg s.seq.bwSel) (offsetAddr o) ++ data))

/-- The buffer-write flag complemented (10_state.md R13). -/
def State.turnBwSel (s : State) : State := { s with seq := { s.seq with bwSel := !s.seq.bwSel } }

/-- BUFFERTOMEMORY (R151): the buffer `BW_SEL` selects; the flag is complemented. -/
def execBufferToMemory (addr : Addr) (s : State) : Host.Outcome State Fault Refusal :=
  s.turnBwSel.serve .bufferToMemory (sendCalls (addrHeader (b2mOpcode s.cfg s.seq.bwSel) addr))

/-- ERASEPAGE (R152). -/
def execErasePage (addr : Addr) (s : State) : Host.Outcome State Fault Refusal :=
  s.serve .erasePage (sendCalls (addrHeader s.cfg.opcPageErase addr))

end Sys2Proof.Machine
end

