-- ==== Sys2Proof/Machine/Init.lean ====
section
/-! DEFINITION. INIT (spec/40_init.md): the reset sequence, run from each reset and on op-select 0. -/

namespace Sys2Proof.Machine

/-- INIT (R100): the registers at their reset values, then steps (a) to (d). Where the chip is not
binary the step ends in the poll loop, and the loop's last turn returns for INIT (R102, log 1). -/
def execInit (s : State) : Host.Outcome State Fault Refusal :=
  s.resetRegs.serve .initIdent (initCalls s.cfg)

end Sys2Proof.Machine
end

