-- ==== Sys2Proof/Machine/PageRead.lean ====
section
/-! DEFINITION. READPAGE (spec/43_page_read.md). -/

namespace Sys2Proof.Machine

/-- READPAGE (R130). -/
def execReadPage (addr : Addr) (size : Nat) (s : State) : Host.Outcome State Fault Refusal :=
  s.serve .readPage (readCalls s.cfg addr size)

end Sys2Proof.Machine
end

