-- ==== Sys2Proof/Machine/PageSize.lean ====
section
/-! DEFINITION. SETBINARYPAGESIZE (spec/42_page_size.md). -/

namespace Sys2Proof.Machine

/-- SETBINARYPAGESIZE (R120): true at once on a binary chip, else the switch and the poll loop, each of
whose turns is a step of its own (R121; log 1). -/
def execSetBinaryPageSize (s : State) : Host.Outcome State Fault Refusal :=
  s.serve (.sizeCheck .host) (statusCalls s.cfg)

end Sys2Proof.Machine
end

