-- ==== Sys2Proof/Machine/PageWrite.lean ====
section
/-! DEFINITION. WRITEPAGE (spec/44_page_write.md). -/

namespace Sys2Proof.Machine

/-- The page-write flag complemented, once a call (10_state.md R12). -/
def State.turnPwSel (s : State) : State := { s with seq := { s.seq with pwSel := !s.seq.pwSel } }

/-- WRITEPAGE (R140): the flag selects the opcode and is complemented first (D34); the call returns at
the `CS1`. -/
def execWritePage (addr : Addr) (data : List Byte) (s : State) : Host.Outcome State Fault Refusal :=
  s.turnPwSel.serve .writePage
    (sendCalls (addrHeader (progOpcode s.cfg s.seq.pwSel) addr ++ data))

end Sys2Proof.Machine
end

