-- ==== Sys2Proof/Machine/PowerDown.lean ====
section
/-! DEFINITION. ENTERUDPD, EXITUDPD (spec/46_power_down.md). -/

namespace Sys2Proof.Machine

/-- ENTERUDPD (R160). -/
def execEnterUdpd (s : State) : Host.Outcome State Fault Refusal :=
  s.serve .enterUdpd (sendCalls [s.cfg.opcUdpd])

/-- EXITUDPD (R161). -/
def execExitUdpd (s : State) : Host.Outcome State Fault Refusal :=
  s.serve .exitUdpd (wakeCalls s.cfg)

end Sys2Proof.Machine
end

