-- ==== Sys2Proof/Machine/Reserved.lean ====
section
/-! DEFINITION. The reserved op-select codes (spec/30_encoding.md R87): a request with one is refused, with no
bus event and no register change. -/

namespace Sys2Proof.Machine

/-- Op-select code 13 (R87). -/
def execReserved13 (_s : State) : Host.Outcome State Fault Refusal := .refused (.reservedOpSelect 13)

/-- Op-select code 14 (R87). -/
def execReserved14 (_s : State) : Host.Outcome State Fault Refusal := .refused (.reservedOpSelect 14)

/-- Op-select code 15 (R87). -/
def execReserved15 (_s : State) : Host.Outcome State Fault Refusal := .refused (.reservedOpSelect 15)

end Sys2Proof.Machine
end

