-- ==== Sys2Proof/Machine/StatusId.lean ====
section
/-! DEFINITION. GETSTATUS, GETID, ISREADY, ISERRORFLAGGED (spec/41_status_id.md). -/

namespace Sys2Proof.Machine

/-- GETSTATUS (R110): the status word in bits 15:0 of the value. -/
def execGetStatus (s : State) : Host.Outcome State Fault Refusal :=
  s.serve .getStatus (statusCalls s.cfg)

/-- GETID (R111). -/
def execGetId (s : State) : Host.Outcome State Fault Refusal :=
  s.serve .getId (identCalls s.cfg)

/-- ISREADY (R112): `(s & 0x8000) != 0` of a fresh status word. -/
def execIsReady (s : State) : Host.Outcome State Fault Refusal :=
  s.serve .isReady (statusCalls s.cfg)

/-- ISERRORFLAGGED (R113): `(s & 0x0020) != 0` of a fresh status word. -/
def execIsErrorFlagged (s : State) : Host.Outcome State Fault Refusal :=
  s.serve .isErrorFlagged (statusCalls s.cfg)

end Sys2Proof.Machine
end

