-- ==== Sys2Proof/Machine/Wire.lean ====
section
/-! DEFINITION. The wire commands as raw transactions of another bus master (spec/47_target.md; log 13): the
bytes of each, by its format (30_encoding.md R74 to R80). -/

namespace Sys2Proof.Machine

/-- `W_STATUS`, format `WQ(2)` (R171). -/
def execWStatus (s : State) : Host.Outcome State Fault Refusal :=
  wireStep s (queryBytes s.cfg s.cfg.opcStatusRead 2)

/-- `W_ID`, format `WQ(3)` (R172). -/
def execWId (s : State) : Host.Outcome State Fault Refusal :=
  wireStep s (queryBytes s.cfg s.cfg.opcIdRead 3)

/-- `W_PSZ`, format `WX` (R173). -/
def execWPsz (s : State) : Host.Outcome State Fault Refusal :=
  wireStep s (pageSizeBytes s.cfg)

/-- `W_READ`, format `WR(n)` (R174). -/
def execWRead (addr : Addr) (n : Nat) (s : State) : Host.Outcome State Fault Refusal :=
  wireStep s (readHeader s.cfg addr ++ List.replicate n s.cfg.dummy)

/-- `W_PROG1`, format `WD(n)` (R176). -/
def execWProg1 (addr : Addr) (data : List Byte) (s : State) : Host.Outcome State Fault Refusal :=
  wireStep s (addrHeader s.cfg.opcProgB1 addr ++ data)

/-- `W_PROG2`, format `WD(n)` (R176). -/
def execWProg2 (addr : Addr) (data : List Byte) (s : State) : Host.Outcome State Fault Refusal :=
  wireStep s (addrHeader s.cfg.opcProgB2 addr ++ data)

/-- `W_BUFW1`, format `WD(n)` (R177). -/
def execWBufw1 (addr : Addr) (data : List Byte) (s : State) : Host.Outcome State Fault Refusal :=
  wireStep s (addrHeader s.cfg.opcBufwB1 addr ++ data)

/-- `W_BUFW2`, format `WD(n)` (R177). -/
def execWBufw2 (addr : Addr) (data : List Byte) (s : State) : Host.Outcome State Fault Refusal :=
  wireStep s (addrHeader s.cfg.opcBufwB2 addr ++ data)

/-- `W_B2M1`, format `WA` (R178). -/
def execWB2m1 (addr : Addr) (s : State) : Host.Outcome State Fault Refusal :=
  wireStep s (addrHeader s.cfg.opcB2mB1 addr)

/-- `W_B2M2`, format `WA` (R178). -/
def execWB2m2 (addr : Addr) (s : State) : Host.Outcome State Fault Refusal :=
  wireStep s (addrHeader s.cfg.opcB2mB2 addr)

/-- `W_ERASE`, format `WA` (R179). -/
def execWErase (addr : Addr) (s : State) : Host.Outcome State Fault Refusal :=
  wireStep s (addrHeader s.cfg.opcPageErase addr)

/-- `W_UDPD`, format `W1` (R180). -/
def execWUdpd (s : State) : Host.Outcome State Fault Refusal :=
  wireStep s [s.cfg.opcUdpd]

/-- `W_WAKE`, format `WP` (R181). -/
def execWWake (s : State) : Host.Outcome State Fault Refusal :=
  wireStep s []

end Sys2Proof.Machine
end

