-- ==== Sys2Proof/Machine/Dispatch.lean ====
section
/-! DEFINITION. The dispatch: one arm per constructor of Instr. -/

namespace Sys2Proof.Machine

def exec (i : Instr) (s : State) : Host.Outcome State Fault Refusal :=
  match i with
  -- host level, spec/30_encoding.md R71
  | .init => Sys2Proof.Machine.execInit s
  | .getStatus => Sys2Proof.Machine.execGetStatus s
  | .getId => Sys2Proof.Machine.execGetId s
  | .readPage addr size => Sys2Proof.Machine.execReadPage addr size s
  | .writePage addr data => Sys2Proof.Machine.execWritePage addr data s
  | .writeBuffer o data => Sys2Proof.Machine.execWriteBuffer o data s
  | .bufferToMemory addr => Sys2Proof.Machine.execBufferToMemory addr s
  | .erasePage addr => Sys2Proof.Machine.execErasePage addr s
  | .isReady => Sys2Proof.Machine.execIsReady s
  | .isErrorFlagged => Sys2Proof.Machine.execIsErrorFlagged s
  | .setBinaryPageSize => Sys2Proof.Machine.execSetBinaryPageSize s
  | .enterUdpd => Sys2Proof.Machine.execEnterUdpd s
  | .exitUdpd => Sys2Proof.Machine.execExitUdpd s
  -- reserved op-select codes, R87
  | .reserved13 => Sys2Proof.Machine.execReserved13 s
  | .reserved14 => Sys2Proof.Machine.execReserved14 s
  | .reserved15 => Sys2Proof.Machine.execReserved15 s
  -- wire level, spec/47_target.md
  | .wStatus => Sys2Proof.Machine.execWStatus s
  | .wId => Sys2Proof.Machine.execWId s
  | .wPsz => Sys2Proof.Machine.execWPsz s
  | .wRead addr n => Sys2Proof.Machine.execWRead addr n s
  | .wProg1 addr data => Sys2Proof.Machine.execWProg1 addr data s
  | .wProg2 addr data => Sys2Proof.Machine.execWProg2 addr data s
  | .wBufw1 addr data => Sys2Proof.Machine.execWBufw1 addr data s
  | .wBufw2 addr data => Sys2Proof.Machine.execWBufw2 addr data s
  | .wB2m1 addr => Sys2Proof.Machine.execWB2m1 addr s
  | .wB2m2 addr => Sys2Proof.Machine.execWB2m2 addr s
  | .wErase addr => Sys2Proof.Machine.execWErase addr s
  | .wUdpd => Sys2Proof.Machine.execWUdpd s
  | .wWake => Sys2Proof.Machine.execWWake s

end Sys2Proof.Machine
end

