-- ==== Sys2Proof/Machine/Fetch.lean ====
section
/-! DEFINITION. What the machine does next (spec/10_state.md R16, R18; 70_reset_and_hazards.md R230, R232):
reset, INIT, going on with an operation, the next packet at the ports, or waiting. -/

namespace Sys2Proof.Machine

/-- What the next step is. -/
inductive Action where
  | reset
  | init
  | resume
  | wait
  | take (p : Packet) (rest : List Packet)
  deriving DecidableEq, Repr

/-- The next step: the reset input first; then what `SEQ_PC` says; a packet is taken only when SEQ is
idle, so a request made before INIT has returned is held (R18, D15). -/
def State.nextAction (s : State) : Action :=
  if s.resetIn = some 0 then .reset
  else match s.seq.pc with
    | .initStart => .init
    | .running _ _ _ => .resume
    | .idle =>
      match s.requests with
      | [] => .wait
      | p :: rest => .take p rest

/-- SEQ takes a packet: it leaves the queue, and a host request lends its buffer and clears the
response (R18). -/
def State.takePacket (s : State) (p : Packet) (rest : List Packet) : State :=
  match p with
  | .host _ data =>
    { s with requests := rest, seq := { s.seq with resp := none, hostBuf := data } }
  | .wire _ => { s with requests := rest }

/-- SEQ idle and nothing asked: the target alone may step (TGT-COMPLETE, 47_target.md R182; the run is
over if it is not busy, 70_reset_and_hazards.md R252), and time passes for the reset input (log 22). -/
def waitStep (s : State) : Host.Outcome State Fault Refusal :=
  .next { s.spend 1 with tgt := s.tgt.tick s.cfg }

/-- A packet that is no instruction: a host request is refused (log 15), and a transaction meets the
target's gate and then `UnknownCommand` (47_target.md R186). -/
def rejectPacket (p : Packet) (why : DecodeError) (s : State) : Host.Outcome State Fault Refusal :=
  match p with
  | .host _ _ => .refused (.malformedRequest why)
  | .wire bytes => wireStep s bytes

/-- `s` with a packet next at the ports of an idle SEQ, so that the next step takes it (log 21). -/
def State.offer (s : State) (p : Packet) : State :=
  { s with
    requests := p :: s.requests
    resetIn := none
    shifted := []
    tgtFault := none
    seq := { s.seq with pc := .idle, cs := true } }

end Sys2Proof.Machine
end

