-- ==== Sys2Proof/Machine/Step.lean ====
section
/-! DEFINITION. One step of the machine. -/

namespace Sys2Proof.Machine

/-- One step: one operation of SEQ, one turn of its poll loop, one raw wire transaction, a reset, or a step
of the target alone (log 1). From inside an operation SEQ goes on with the calls left. -/
def step (s : State) : Host.Outcome State Fault Refusal :=
  match s.nextAction with
  | .reset => s.assertReset.finish
  | .init => exec .init s
  | .resume => s.resume.finish
  | .wait => waitStep s
  | .take p rest =>
    match decode s.cfg p with
    | .ok i => exec i (s.takePacket p rest)
    | .error why => rejectPacket p why (s.takePacket p rest)

/-- `s` with a word of the opcode table where the next step takes it (log 21). -/
def State.withFetchWord (s : State) (nbits w : Nat) : State := s.offer (tablePacket nbits w)

end Sys2Proof.Machine
end

