-- ==== Sys2Proof/Safety.lean ====
section
/-! DEFINITION. The terms claims are stated in: the invariant of every step, the host's duties (spec/60_exceptions.md
R219), runs, and what SEQ's own rules put on the bus (spec/30_encoding.md R73 to R80). -/

namespace Sys2Proof

/-- What a busy target still defines: the status read and the bare pulse (47_target.md R188). -/
def Instr.busyLegal : Instr → Bool
  | .init => false
  | .getStatus => true
  | .getId => false
  | .readPage _ _ => false
  | .writePage _ _ => false
  | .writeBuffer _ _ => false
  | .bufferToMemory _ => false
  | .erasePage _ => false
  | .isReady => true
  | .isErrorFlagged => true
  | .setBinaryPageSize => false
  | .enterUdpd => false
  | .exitUdpd => true
  | .reserved13 => false
  | .reserved14 => false
  | .reserved15 => false
  | .wStatus => true
  | .wId => false
  | .wPsz => false
  | .wRead _ _ => false
  | .wProg1 _ _ => false
  | .wProg2 _ _ => false
  | .wBufw1 _ _ => false
  | .wBufw2 _ _ => false
  | .wB2m1 _ => false
  | .wB2m2 _ => false
  | .wErase _ => false
  | .wUdpd => false
  | .wWake => true

/-- The instructions that are raw wire commands. -/
def Instr.isWire : Instr → Bool
  | .init => false
  | .getStatus => false
  | .getId => false
  | .readPage _ _ => false
  | .writePage _ _ => false
  | .writeBuffer _ _ => false
  | .bufferToMemory _ => false
  | .erasePage _ => false
  | .isReady => false
  | .isErrorFlagged => false
  | .setBinaryPageSize => false
  | .enterUdpd => false
  | .exitUdpd => false
  | .reserved13 => false
  | .reserved14 => false
  | .reserved15 => false
  | .wStatus => true
  | .wId => true
  | .wPsz => true
  | .wRead _ _ => true
  | .wProg1 _ _ => true
  | .wProg2 _ _ => true
  | .wBufw1 _ _ => true
  | .wBufw2 _ _ => true
  | .wB2m1 _ => true
  | .wB2m2 _ => true
  | .wErase _ => true
  | .wUdpd => true
  | .wWake => true

/-- The page address of an instruction that touches the main array (47_target.md R170 (4)). -/
def Instr.pageAddr : Instr → Option Addr
  | .init => none
  | .getStatus => none
  | .getId => none
  | .readPage a _ => some a
  | .writePage a _ => some a
  | .writeBuffer _ _ => none
  | .bufferToMemory a => some a
  | .erasePage a => some a
  | .isReady => none
  | .isErrorFlagged => none
  | .setBinaryPageSize => none
  | .enterUdpd => none
  | .exitUdpd => none
  | .reserved13 => none
  | .reserved14 => none
  | .reserved15 => none
  | .wStatus => none
  | .wId => none
  | .wPsz => none
  | .wRead a _ => some a
  | .wProg1 a _ => some a
  | .wProg2 a _ => some a
  | .wBufw1 _ _ => none
  | .wBufw2 _ _ => none
  | .wB2m1 a => some a
  | .wB2m2 a => some a
  | .wErase a => some a
  | .wUdpd => none
  | .wWake => none

/-- The page address of an instruction that starts a program or an erase of that page. -/
def Instr.rewrites : Instr → Option Addr
  | .init => none
  | .getStatus => none
  | .getId => none
  | .readPage _ _ => none
  | .writePage a _ => some a
  | .writeBuffer _ _ => none
  | .bufferToMemory a => some a
  | .erasePage a => some a
  | .isReady => none
  | .isErrorFlagged => none
  | .setBinaryPageSize => none
  | .enterUdpd => none
  | .exitUdpd => none
  | .reserved13 => none
  | .reserved14 => none
  | .reserved15 => none
  | .wStatus => none
  | .wId => none
  | .wPsz => none
  | .wRead _ _ => none
  | .wProg1 a _ => some a
  | .wProg2 a _ => some a
  | .wBufw1 _ _ => none
  | .wBufw2 _ _ => none
  | .wB2m1 a => some a
  | .wB2m2 a => some a
  | .wErase a => some a
  | .wUdpd => none
  | .wWake => none

/-- The instructions that take a buffer offset and leave the main array alone (R177). -/
def Instr.isBufferLoad : Instr → Bool
  | .init => false
  | .getStatus => false
  | .getId => false
  | .readPage _ _ => false
  | .writePage _ _ => false
  | .writeBuffer _ _ => true
  | .bufferToMemory _ => false
  | .erasePage _ => false
  | .isReady => false
  | .isErrorFlagged => false
  | .setBinaryPageSize => false
  | .enterUdpd => false
  | .exitUdpd => false
  | .reserved13 => false
  | .reserved14 => false
  | .reserved15 => false
  | .wStatus => false
  | .wId => false
  | .wPsz => false
  | .wRead _ _ => false
  | .wProg1 _ _ => false
  | .wProg2 _ _ => false
  | .wBufw1 _ _ => true
  | .wBufw2 _ _ => true
  | .wB2m1 _ => false
  | .wB2m2 _ => false
  | .wErase _ => false
  | .wUdpd => false
  | .wWake => false

/-- The instructions that change the content of a buffer: the loads of R175 and the wake of R181. -/
def Instr.changesBuffers : Instr → Bool
  | .init => false
  | .getStatus => false
  | .getId => false
  | .readPage _ _ => false
  | .writePage _ _ => true
  | .writeBuffer _ _ => true
  | .bufferToMemory _ => false
  | .erasePage _ => false
  | .isReady => false
  | .isErrorFlagged => false
  | .setBinaryPageSize => false
  | .enterUdpd => false
  | .exitUdpd => true
  | .reserved13 => false
  | .reserved14 => false
  | .reserved15 => false
  | .wStatus => false
  | .wId => false
  | .wPsz => false
  | .wRead _ _ => false
  | .wProg1 _ _ => true
  | .wProg2 _ _ => true
  | .wBufw1 _ _ => true
  | .wBufw2 _ _ => true
  | .wB2m1 _ => false
  | .wB2m2 _ => false
  | .wErase _ => false
  | .wUdpd => false
  | .wWake => true

/-- A host operation that names an operation (R71: codes 0 to 12). -/
def Instr.isOperation : Instr → Bool
  | .init => true
  | .getStatus => true
  | .getId => true
  | .readPage _ _ => true
  | .writePage _ _ => true
  | .writeBuffer _ _ => true
  | .bufferToMemory _ => true
  | .erasePage _ => true
  | .isReady => true
  | .isErrorFlagged => true
  | .setBinaryPageSize => true
  | .enterUdpd => true
  | .exitUdpd => true
  | .reserved13 => false
  | .reserved14 => false
  | .reserved15 => false
  | .wStatus => false
  | .wId => false
  | .wPsz => false
  | .wRead _ _ => false
  | .wProg1 _ _ => false
  | .wProg2 _ _ => false
  | .wBufw1 _ _ => false
  | .wBufw2 _ _ => false
  | .wB2m1 _ => false
  | .wB2m2 _ => false
  | .wErase _ => false
  | .wUdpd => false
  | .wWake => false

/-- Whether an instruction is a WRITEPAGE. -/
def Instr.isWritePage : Instr → Bool
  | .init => false
  | .getStatus => false
  | .getId => false
  | .readPage _ _ => false
  | .writePage _ _ => true
  | .writeBuffer _ _ => false
  | .bufferToMemory _ => false
  | .erasePage _ => false
  | .isReady => false
  | .isErrorFlagged => false
  | .setBinaryPageSize => false
  | .enterUdpd => false
  | .exitUdpd => false
  | .reserved13 => false
  | .reserved14 => false
  | .reserved15 => false
  | .wStatus => false
  | .wId => false
  | .wPsz => false
  | .wRead _ _ => false
  | .wProg1 _ _ => false
  | .wProg2 _ _ => false
  | .wBufw1 _ _ => false
  | .wBufw2 _ _ => false
  | .wB2m1 _ => false
  | .wB2m2 _ => false
  | .wErase _ => false
  | .wUdpd => false
  | .wWake => false

/-- Whether an instruction is a BUFFERTOMEMORY. -/
def Instr.isBufferToMemory : Instr → Bool
  | .init => false
  | .getStatus => false
  | .getId => false
  | .readPage _ _ => false
  | .writePage _ _ => false
  | .writeBuffer _ _ => false
  | .bufferToMemory _ => true
  | .erasePage _ => false
  | .isReady => false
  | .isErrorFlagged => false
  | .setBinaryPageSize => false
  | .enterUdpd => false
  | .exitUdpd => false
  | .reserved13 => false
  | .reserved14 => false
  | .reserved15 => false
  | .wStatus => false
  | .wId => false
  | .wPsz => false
  | .wRead _ _ => false
  | .wProg1 _ _ => false
  | .wProg2 _ _ => false
  | .wBufw1 _ _ => false
  | .wBufw2 _ _ => false
  | .wB2m1 _ => false
  | .wB2m2 _ => false
  | .wErase _ => false
  | .wUdpd => false
  | .wWake => false

end Sys2Proof

namespace Sys2Proof.Machine

/-- The page a pending program or erase works on. -/
def Work.page? : Work → Option Nat
  | .prog p _ _ => some p
  | .erase p => some p
  | .nvcfg => none

/-- Whether calls made from chip-select level `cs` on pair every assert with a deassert, exchange inside
transactions only, set the clock outside them, and leave chip-select high (10_state.md R15, R19). -/
def callsPair : Bool → List Call → Bool
  | cs, [] => cs
  | cs, .csAssert :: rest => cs && callsPair false rest
  | _, .csDeassert :: rest => callsPair true rest
  | cs, .xchg _ _ :: rest => !cs && callsPair cs rest
  | cs, .delay _ :: rest => callsPair cs rest
  | cs, .setClock _ :: rest => cs && callsPair cs rest

/-- What holds after any number of primitive calls. -/
structure State.Inv (s : State) : Prop where
  /-- chip-select is high while SEQ is idle (10_state.md R15) -/
  csHigh : s.seq.pc = .idle → s.seq.cs = true
  /-- inside an operation calls are left, they end with chip-select high, and there is no response yet
  (R15, R16, R18) -/
  inside : ∀ stage rest kept, s.seq.pc = .running stage rest kept →
    rest ≠ [] ∧ callsPair s.seq.cs rest = true ∧ s.seq.resp = none
  /-- a transaction is open only while chip-select is low (20_memory.md R55) -/
  closed : s.seq.cs = true → s.shifted = []
  /-- `pending` is `none` exactly when `mode != BUSY` (10_state.md R30) -/
  pendingBusy : s.tgt.mode = .busy ↔ s.tgt.pending.isSome = true
  /-- a pending operation works on a page of the array (47_target.md R186) -/
  pendingPage : ∀ p, (s.tgt.pending.bind Work.page?) = some p → p < s.cfg.nPages
  /-- the three cell memories are in canonical form -/
  mainWf : s.tgt.main.wf
  buf1Wf : s.tgt.buf1.wf
  buf2Wf : s.tgt.buf2.wf
  /-- no cell outside the array or the buffers (10_state.md R25, R26) -/
  mainBelow : s.tgt.main.below (s.cfg.nPages * Config.pageSize)
  buf1Below : s.tgt.buf1.below Config.pageSize
  buf2Below : s.tgt.buf2.below Config.pageSize
  /-- bits 31:24 of the identifier are 0 (41_status_id.md R111) -/
  idHigh : s.seq.idCache.extractLsb' 24 8 = 0
  /-- `ok` is 1 in every response (60_exceptions.md R200) -/
  respOk : ∀ r, s.seq.resp = some r → r.ok = true

/-- Between two steps a fault of the target is pending only inside an operation (60_exceptions.md R207):
anywhere else the step has reported it. -/
def State.FaultInside (s : State) : Prop :=
  s.tgtFault.isSome = true → ∃ stage rest kept, s.seq.pc = .running stage rest kept

/-- The parameters meet R3's constraint, a chip answers, it has raised no fault, and the host does not
assert the reset input. -/
structure State.Undisturbed (s : State) : Prop where
  cfgWf : s.cfg.wf = true
  chip : s.cfg.chipPresent = true
  noReset : s.resetIn = none
  noFault : s.tgtFault = none

/-- The target takes any command on page `a`: it is idle, in binary page mode, and has the page. -/
structure State.PageReady (s : State) (a : Addr) : Prop where
  idle : s.tgt.mode = .idle
  binaryMode : s.tgt.nvBinary = true
  inArray : page a < s.cfg.nPages

/-- The bytes received where the target answers so at the positions, with the free values left: a draw
where no rule defines the byte. -/
def Draws.fill : List (Option Byte) → Draws → List Byte × Draws
  | [], d => ([], d)
  | r :: rs, d =>
    let (b, d) := d.receive r
    let (bs, d) := Draws.fill rs d
    (b :: bs, d)

/-- `SEQ_PC` at the start of a turn of the poll loop (42_page_size.md R121). -/
def SeqPc.polling (cfg : Config) (caller : Caller) : SeqPc :=
  .running (.sizePoll caller) (statusCalls cfg) []

/-- The state after an operation of SEQ that put `es` on the bus, answered `v` and left the target as
`t`, no transaction open; everything else is as in `s`. -/
def State.served (s : State) (es : List BusEvent) (v : BitVec 32) (t : Tgt) : State :=
  { s with
    tgt := t
    shifted := []
    seq := { s.seq with
      trace := s.seq.trace ++ es, cs := true, pc := .idle, resp := some ⟨true, v⟩ } }

/-- The events of a transaction whose received bytes are all discarded. -/
def sentEvents (bytes : List Byte) : List BusEvent :=
  .cs0 :: (bytes.map (fun b => .x b none) ++ [.cs1])

/-- The events of a query of format `WQ(k)` (30_encoding.md R75): the opcode, then the bytes received
for the dummies. -/
def queryEvents (op dummy : Byte) (rx : List Byte) : List BusEvent :=
  .cs0 :: .x op none :: (rx.map (fun b => .x dummy (some b)) ++ [.cs1])

/-- The events of one status read. -/
def statusEvents (cfg : Config) (b1 b2 : Byte) : List BusEvent :=
  queryEvents cfg.opcStatusRead cfg.dummy [b1, b2]

/-- SEQ's side of an outcome: of the next state, or what a fault carries. -/
def Fault.seen : Fault → Seq
  | .commandWhileBusy q => q
  | .commandWhilePoweredDown q => q
  | .unknownCommand q => q
  | .addressOutOfRange q => q
  | .nativePageMode q => q
  | .nvWornOut q => q

/-- SEQ's side of an outcome, if the machine did not refuse. -/
def seqOf : Host.Outcome State Fault Refusal → Option Seq
  | .next t => some t.seq
  | .fault f => some f.seen
  | .refused _ => none

/-- An event with what came back from the target left out: what SEQ does to the bus. -/
def BusEvent.driven : BusEvent → BusEvent
  | .x tx _ => .x tx none
  | .clk hz => .clk hz
  | .cs0 => .cs0
  | .cs1 => .cs1
  | .dly ns => .dly ns

/-- What a primitive call does to the bus (00_scope.md R5). -/
def Call.driven : Call → BusEvent
  | .csAssert => .cs0
  | .csDeassert => .cs1
  | .xchg tx _ => .x tx none
  | .delay ns => .dly ns
  | .setClock hz => .clk hz

/-- What SEQ will still drive onto the bus in the piece it is in. -/
def SeqPc.toDrive : SeqPc → List BusEvent
  | .idle => []
  | .initStart => []
  | .running _ rest _ => rest.map Call.driven

/-- An outcome by which the target has raised the fault: the fault itself, or a next state in the poll
loop, whose turns SEQ, which cannot see the fault, goes on taking (60_exceptions.md R207). -/
def faultsWith (f : TgtFault) : Host.Outcome State Fault Refusal → Prop
  | .next t => t.tgtFault = some f ∧ ∃ c, t.seq.pc = .polling t.cfg c
  | .fault g => ∃ q, g = f.toFault q
  | .refused _ => False

/-- What an operation of one transaction drives onto the bus, by the formats of 30_encoding.md R73 to
R80, from its operands, the parameters and the two rotation flags alone. `none`: not such an operation. -/
def drivenBy (cfg : Config) (pwSel bwSel : Bool) : Instr → Option (List BusEvent)
  | .getStatus => some (sentEvents (cfg.opcStatusRead :: List.replicate 2 cfg.dummy))
  | .isReady => some (sentEvents (cfg.opcStatusRead :: List.replicate 2 cfg.dummy))
  | .isErrorFlagged => some (sentEvents (cfg.opcStatusRead :: List.replicate 2 cfg.dummy))
  | .getId => some (sentEvents (cfg.opcIdRead :: List.replicate 3 cfg.dummy))
  | .readPage a n =>
    some (sentEvents (cfg.opcPageRead :: (addrBytes a ++ List.replicate (4 + n) cfg.dummy)))
  | .writePage a d =>
    some (sentEvents ((if pwSel then cfg.opcProgB2 else cfg.opcProgB1) :: (addrBytes a ++ d)))
  | .writeBuffer o d =>
    some (sentEvents
      ((if bwSel then cfg.opcBufwB2 else cfg.opcBufwB1) :: (addrBytes (o.setWidth 24) ++ d)))
  | .bufferToMemory a =>
    some (sentEvents ((if bwSel then cfg.opcB2mB2 else cfg.opcB2mB1) :: addrBytes a))
  | .erasePage a => some (sentEvents (cfg.opcPageErase :: addrBytes a))
  | .enterUdpd => some (sentEvents [cfg.opcUdpd])
  | .exitUdpd => some [.cs0, .dly cfg.tWakePulse, .cs1, .dly Config.tWakeSettle]
  | .init => none
  | .setBinaryPageSize => none
  | .reserved13 => none
  | .reserved14 => none
  | .reserved15 => none
  | .wStatus => none
  | .wId => none
  | .wPsz => none
  | .wRead _ _ => none
  | .wProg1 _ _ => none
  | .wProg2 _ _ => none
  | .wBufw1 _ _ => none
  | .wBufw2 _ _ => none
  | .wB2m1 _ => none
  | .wB2m2 _ => none
  | .wErase _ => none
  | .wUdpd => none
  | .wWake => none

/-- What the host owes before an instruction so that the target's side is defined: HD1, HD2, HD7, HD9
and HD12 of R219 (a wire command owes the same of another master). -/
def State.Dutiful (s : State) : Instr → Prop
  | .init => s.tgt.mode = .idle ∧ s.tgt.nvCycles < s.cfg.nvCycleLimit ∧ s.seq.cs = true
  | .getStatus => s.tgt.mode = .idle ∨ s.tgt.mode = .busy
  | .isReady => s.tgt.mode = .idle ∨ s.tgt.mode = .busy
  | .isErrorFlagged => s.tgt.mode = .idle ∨ s.tgt.mode = .busy
  | .getId => s.tgt.mode = .idle
  | .readPage a _ => s.PageReady a
  | .writePage a _ => s.PageReady a
  | .writeBuffer _ _ => s.tgt.mode = .idle ∧ s.tgt.nvBinary = true
  | .bufferToMemory a => s.PageReady a
  | .erasePage a => s.PageReady a
  | .setBinaryPageSize => s.tgt.mode = .idle ∧ s.tgt.nvCycles < s.cfg.nvCycleLimit
  | .enterUdpd => s.tgt.mode = .idle
  | .exitUdpd => s.tgt.mode ≠ .dpd
  | .reserved13 => False
  | .reserved14 => False
  | .reserved15 => False
  | .wStatus => s.tgt.mode = .idle ∨ s.tgt.mode = .busy
  | .wId => s.tgt.mode = .idle
  | .wPsz => s.tgt.mode = .idle ∧ s.tgt.nvCycles < s.cfg.nvCycleLimit
  | .wRead a _ => s.PageReady a
  | .wProg1 a _ => s.PageReady a
  | .wProg2 a _ => s.PageReady a
  | .wBufw1 _ _ => s.tgt.mode = .idle ∧ s.tgt.nvBinary = true
  | .wBufw2 _ _ => s.tgt.mode = .idle ∧ s.tgt.nvBinary = true
  | .wB2m1 a => s.PageReady a
  | .wB2m2 a => s.PageReady a
  | .wErase a => s.PageReady a
  | .wUdpd => s.tgt.mode = .idle
  | .wWake => s.tgt.mode ≠ .dpd

/-- Instructions carried out one after the other, each to a next state; `none` where one is not. -/
def execAll : List Instr → State → Option State
  | [], s => some s
  | i :: is, s =>
    match exec i s with
    | .next t => execAll is t
    | .fault _ => none
    | .refused _ => none

/-- Where a scan of the bus trace stands: between two transactions or inside one. -/
inductive Scan where
  | outside | inside | broken
  deriving DecidableEq, Repr

/-- One event of the scan (10_state.md R15, R34). -/
def Scan.next : Scan → BusEvent → Scan
  | .outside, .cs0 => .inside
  | .outside, .dly _ => .outside
  | .inside, .x _ _ => .inside
  | .inside, .dly _ => .inside
  | .inside, .cs1 => .outside
  | .outside, .cs1 => .broken
  | .outside, .x _ _ => .broken
  | .outside, .clk _ => .broken
  | .inside, .cs0 => .broken
  | .inside, .clk _ => .broken
  | .broken, _ => .broken

/-- A list of events that is a sequence of whole transactions separated by `DLY` events only (R34). -/
def wholeTransactions (es : List BusEvent) : Prop := es.foldl Scan.next .outside = .outside

/-- The bus trace as R34 has it, with what the calls left will append: empty until INIT starts, then
INIT's steps (a) and (b), then whole transactions. -/
def State.TraceWhole (s : State) : Prop :=
  if s.seq.pc = .initStart then s.seq.trace = []
  else ∃ hz es, s.seq.trace.map BusEvent.driven ++ s.seq.pc.toDrive = .cs1 :: .clk hz :: es ∧
    wholeTransactions es

end Sys2Proof.Machine
end

