-- ==== Sys2Proof/Certificates/Slice0/Obligations.lean ====
section
/-! DEFINITION. The statements for the provers. Each docstring names the rules of spec/ it formalises.
`State.served` (Safety.lean) is the whole next state of an operation, so an equality with it is a frame. -/

open Sys2Proof Sys2Proof.Machine

/-! ### Encoding -/

/-- Words written out from the tables of 30_encoding.md R71 and R74 to R80 (the host words as
95_test_vectors.md writes them) decode to what they stand for. -/
def Obligations.WrittenWordsDecode : Prop :=
  decode Config.default (.wire [0xD7, 0x00, 0x00]) = .ok .wStatus ∧
  decode Config.default (.wire [0x9F, 0x00, 0x00, 0x00]) = .ok .wId ∧
  decode Config.default (.wire [0x3D, 0x2A, 0x80, 0xA6]) = .ok .wPsz ∧
  decode Config.default (.wire [0xD2, 0x01, 0x23, 0x45, 0x00, 0x00, 0x00, 0x00, 0x00]) =
    .ok (.wRead 0x012345 1) ∧
  decode Config.default (.wire [0x85, 0x01, 0x23, 0x45, 0xAA, 0xBB, 0xCC]) =
    .ok (.wProg2 0x012345 [0xAA, 0xBB, 0xCC]) ∧
  decode Config.default (.wire [0x84, 0x00, 0x01, 0x00, 0x11, 0x22]) =
    .ok (.wBufw1 0x000100 [0x11, 0x22]) ∧
  decode Config.default (.wire [0x83, 0x00, 0x06, 0x00]) = .ok (.wB2m1 0x000600) ∧
  decode Config.default (.wire [0x81, 0x00, 0x06, 0x00]) = .ok (.wErase 0x000600) ∧
  decode Config.default (.wire [0x79]) = .ok .wUdpd ∧
  decode Config.default (.wire []) = .ok .wWake ∧
  decode Config.default (.host 0x00000000001 []) = .ok .getStatus ∧
  decode Config.default (.host 0x00020002001 []) = .ok .getStatus ∧
  decode Config.default (.host 0x00010123453 []) = .ok (.readPage 0x012345 1) ∧
  decode Config.default (.host 0x00030123454 [0xAA, 0xBB, 0xCC]) =
    .ok (.writePage 0x012345 [0xAA, 0xBB, 0xCC]) ∧
  decode Config.default (.host 0x00020001005 [0x11, 0x22]) =
    .ok (.writeBuffer 0x100 [0x11, 0x22]) ∧
  decode Config.default (.host 0x00000007FF6 []) = .ok (.bufferToMemory 0x0007FF) ∧
  decode Config.default (.host 0x0000FFFE007 []) = .ok (.erasePage 0xFFFE00) ∧
  decode Config.default (.host 0x0000000000A []) = .ok .setBinaryPageSize ∧
  decode Config.default (.host 0x0000000000C []) = .ok .exitUdpd ∧
  decode Config.default (.host 0x0000000000D []) = .ok .reserved13

/-- Decode and encode agree, for every instruction at every operand and for every choice of the OPEN
parameters that meets R3's constraint (R86). -/
def Obligations.DecodeOfEncodeIsTheInstruction : Prop :=
  ∀ (cfg : Config) (i : Instr), cfg.wf = true → i.wellFormed cfg = true →
    decode cfg (encode cfg i) = .ok i

/-- Whatever the decoder accepts is well formed: the size of a host request is below `2^SIZE_W`
(10_state.md R18), whatever the word. -/
def Obligations.DecodedInstructionsAreWellFormed : Prop :=
  ∀ (cfg : Config) (p : Packet) (i : Instr), decode cfg p = .ok i → i.wellFormed cfg = true

/-! ### The machine's step -/

/-- A step of an idle SEQ runs the instruction its next packet decodes to, on the state without that
packet; a host request lends its buffer and clears the response (10_state.md R18). -/
def Obligations.StepRunsTheDecodedInstruction : Prop :=
  ∀ (s : State) (rest : List Packet) (i : Instr), s.resetIn ≠ some 0 → s.seq.pc = .idle →
    (∀ word data, s.requests = .host word data :: rest → decodeHost s.cfg word data = .ok i →
      step s = exec i { s with
        requests := rest, seq := { s.seq with resp := none, hostBuf := data } }) ∧
    (∀ bytes, s.requests = .wire bytes :: rest → decodeWire s.cfg bytes = .ok i →
      step s = exec i { s with requests := rest })

/-- R16, 00_scope.md R5: SEQ advances by one primitive call at a time, in the order of the list of calls
left: the call appends its one event to the bus trace, drives chip-select as it says, and is gone from
the list; after the last call of a piece SEQ returns, with a response, or stands before the first call of
another. The reset input strikes before a call. An operation, and a step from inside one, is a number of
these advances, at least the calls left, to where SEQ rests. -/
def Obligations.StepPerformsItsPrimitiveCalls : Prop :=
  (∀ s : State, s.resetIn = some 0 → s.callStep = s.assertReset) ∧
  (∀ (s : State) (stage : Stage) (c : Call) (rest : List Call) (kept : List Byte),
    s.resetIn ≠ some 0 → s.seq.pc = .running stage (c :: rest) kept →
    (∃ e, e.driven = c.driven ∧ s.callStep.seq.trace = s.seq.trace ++ [e]) ∧
    s.callStep.seq.cs = (match c with
      | .csAssert => false
      | .csDeassert => true
      | .xchg _ _ => s.seq.cs
      | .delay _ => s.seq.cs
      | .setClock _ => s.seq.cs) ∧
    s.callStep.resetIn = s.resetIn.map (· - 1) ∧ s.callStep.requests = s.requests ∧
    (rest ≠ [] → ∃ got, got.length ≤ 1 ∧ s.callStep.seq.resp = s.seq.resp ∧
      s.callStep.seq.pc = .running stage rest (kept ++ got)) ∧
    (rest = [] → (s.callStep.seq.pc = .idle ∧ ∃ v, s.callStep.seq.resp = some ⟨true, v⟩) ∨
      ∃ stage' c' rest', s.callStep.seq.pc = .running stage' (c' :: rest') [] ∧
        s.callStep.seq.resp = none)) ∧
  (∀ (i : Instr) (s : State), i.isOperation = true →
    ∃ stage c rest u n, u.seq.pc = .running stage (c :: rest) [] ∧ u.tgt = s.tgt ∧
      u.seq.trace = (if i = .init then [] else s.seq.trace) ∧ rest.length < n ∧
      (State.callStep^[n] u).seq.pc.rests = true ∧ exec i s = (State.callStep^[n] u).finish) ∧
  ∀ (s : State) (stage : Stage) (c : Call) (rest : List Call) (kept : List Byte),
    s.resetIn ≠ some 0 → s.seq.pc = .running stage (c :: rest) kept →
    ∃ n, rest.length < n ∧ (State.callStep^[n] s).seq.pc.rests = true ∧
      step s = (State.callStep^[n] s).finish

/-- R18, V72: while SEQ is not idle no request is taken; it stays where it is. -/
def Obligations.RequestsWaitUntilSeqIsIdle : Prop :=
  ∀ s t : State, s.seq.pc ≠ .idle → step s = .next t → t.requests = s.requests

/-- R87: a request with op-select code 13, 14 or 15 is refused, whatever its other fields and whatever
the state. -/
def Obligations.ReservedCodesAreRefused : Prop :=
  (∀ s : State, exec .reserved13 s = .refused (.reservedOpSelect 13) ∧
    exec .reserved14 s = .refused (.reservedOpSelect 14) ∧
    exec .reserved15 s = .refused (.reservedOpSelect 15)) ∧
  ∀ (s : State) (word : Nat) (data : List Byte) (rest : List Packet), s.resetIn ≠ some 0 →
    s.seq.pc = .idle → s.requests = .host word data :: rest → word < 2 ^ (28 + s.cfg.sizeW) →
    13 ≤ word % 16 → step s = .refused (.reservedOpSelect (BitVec.ofNat 4 word))

/-! ### The status word and the identifier -/

/-- R22: the four extractions, by bit and by mask. -/
def Obligations.StatusFieldsByMask : Prop :=
  ∀ w : StatusWord,
    (ready w = true ↔ w &&& 0x8000 ≠ 0) ∧ (binary w = true ↔ w &&& 0x0100 ≠ 0) ∧
    (error w = true ↔ w &&& 0x0020 ≠ 0) ∧ idCode w = ((w &&& 0x3C00) >>> 10).setWidth 4 ∧
    ready w = w.getLsbD 15 ∧ binary w = w.getLsbD 8 ∧ error w = w.getLsbD 5

/-- 47_target.md R171, 10_state.md R21: the word assembled from byte1 of a target and byte2 of the same
target or of one a TGT-COMPLETE later; its other ten bits are those of a byte drawn at each of the two
exchanges, whatever it is. -/
def Obligations.StatusWordShowsTheTarget : Prop :=
  ∀ t u : Tgt,
    let w := statusWord t.byte1 u.byte2
    ready w = decide (t.mode = .idle) ∧ idCode w = t.density ∧ binary w = t.nvBinary ∧
      error w = u.epe ∧ w &&& 0x4200 = (t.free.nextByte.1.setWidth 16 <<< 8) &&& 0x4200 ∧
      w &&& 0x00DF = u.free.nextByte.1.setWidth 16 &&& 0x00DF

/-- R110, R112, R113: GETSTATUS, ISREADY and ISERRORFLAGGED make one status read, on an idle and on a busy
target, and return the composite, the ready bit and the error bit; of the target nothing changes but what
TGT-COMPLETE does of itself and the two bytes drawn for the undefined bits. -/
def Obligations.StatusReadsReturnTheirPart : Prop :=
  ∀ s : State, s.Undisturbed → (s.tgt.mode = .idle ∨ s.tgt.mode = .busy) →
    let t := s.tgt.tick s.cfg
    let u := t.drawn.tick s.cfg
    exec .getStatus s = .next (s.served (statusEvents s.cfg t.byte1 u.byte2)
        ((t.byte1.setWidth 32 <<< 8) ||| u.byte2.setWidth 32) u.drawn) ∧
      exec .isReady s = .next (s.served (statusEvents s.cfg t.byte1 u.byte2)
        (if t.mode = .idle then 1 else 0) u.drawn) ∧
      exec .isErrorFlagged s = .next (s.served (statusEvents s.cfg t.byte1 u.byte2)
        (if u.epe then 1 else 0) u.drawn)

/-- R110 to R113, R130, R206: whatever the target is and whatever it answers, GETSTATUS returns the two
bytes it received as byte1 and byte2, ISREADY bit 15 and ISERRORFLAGGED bit 5 of that word, GETID the
three bytes it received, which it caches too, and READPAGE stores the bytes it received for its `size`
dummies, in order: garbage is passed through unchanged. -/
def Obligations.QueriesReturnWhatTheyReceive : Prop :=
  ∀ s : State, s.resetIn = none →
    (∃ b1 b2, seqOf (exec .getStatus s) = some { s.seq with
      trace := s.seq.trace ++ statusEvents s.cfg b1 b2, cs := true, pc := .idle
      resp := some ⟨true, (b1.setWidth 32 <<< 8) ||| b2.setWidth 32⟩ }) ∧
    (∃ b1 b2, seqOf (exec .isReady s) = some { s.seq with
      trace := s.seq.trace ++ statusEvents s.cfg b1 b2, cs := true, pc := .idle
      resp := some ⟨true, if b1.getLsbD 7 then 1 else 0⟩ }) ∧
    (∃ b1 b2, seqOf (exec .isErrorFlagged s) = some { s.seq with
      trace := s.seq.trace ++ statusEvents s.cfg b1 b2, cs := true, pc := .idle
      resp := some ⟨true, if b2.getLsbD 5 then 1 else 0⟩ }) ∧
    (∃ i0 i1 i2, let id : Ident := (0 : Byte) ++ i0 ++ i1 ++ i2
      seqOf (exec .getId s) = some { s.seq with
        trace := s.seq.trace ++ queryEvents s.cfg.opcIdRead s.cfg.dummy [i0, i1, i2]
        cs := true, pc := .idle, idCache := id, resp := some ⟨true, id⟩ }) ∧
    ∀ (a : Addr) (size : Nat), ∃ rx : List Byte, rx.length = size ∧
      seqOf (exec (.readPage a size) s) = some { s.seq with
        trace := s.seq.trace ++ .cs0 ::
          ((s.cfg.opcPageRead :: (addrBytes a ++ List.replicate 4 s.cfg.dummy)).map (fun b => .x b none) ++
            rx.map (fun b => .x s.cfg.dummy (some b)) ++ [.cs1])
        cs := true, pc := .idle, hostBuf := rx ++ s.seq.hostBuf.drop size, resp := some ⟨true, 0⟩ }

/-- R111, R172: GETID reads three bytes, caches their big-endian assembly and returns it; no target
state changes, so a second GETID returns and caches the same value. -/
def Obligations.GetIdCachesTheIdentifier : Prop :=
  ∀ s : State, s.Undisturbed → s.tgt.mode = .idle →
    let id : Ident := s.tgt.devId.setWidth 32
    let es := queryEvents s.cfg.opcIdRead s.cfg.dummy
      [s.tgt.devId.extractLsb' 16 8, s.tgt.devId.extractLsb' 8 8, s.tgt.devId.extractLsb' 0 8]
    exec .getId s = .next { s.served es id s.tgt with
      seq := { (s.served es id s.tgt).seq with idCache := id } }

/-- 10_state.md R11: no operation but GETID and INIT writes `ID_CACHE`. -/
def Obligations.OnlyGetIdAndInitWriteTheIdentifier : Prop :=
  ∀ (i : Instr) (s t : State), i ≠ .getId → i ≠ .init → s.resetIn = none → exec i s = .next t →
    t.seq.idCache = s.seq.idCache

/-! ### Page-size configuration and its poll loop -/

/-- R120, R173: SETBINARYPAGESIZE of an idle chip. On one that is already binary it returns true after one
status read and leaves the nonvolatile state alone. On a native one it makes one status read and the
four-byte switch; the target goes busy with `NVCFG`, has spent a cycle, and SEQ is at its poll loop with
no response yet. -/
def Obligations.SetBinaryReturnsAtOnceOrSwitches : Prop :=
  ∀ s : State, s.Undisturbed → s.tgt.mode = .idle →
    let u := s.tgt.drawn
    (s.tgt.nvBinary = true → exec .setBinaryPageSize s =
      .next (s.served (statusEvents s.cfg s.tgt.byte1 u.byte2) 1 u.drawn)) ∧
    (s.tgt.nvBinary = false → s.tgt.nvCycles < s.cfg.nvCycleLimit →
      exec .setBinaryPageSize s = .next { s with
        shifted := []
        tgt := { u.drawn with nvCycles := s.tgt.nvCycles + 1 : Tgt }.startBusy .nvcfg
        seq := { s.seq with
          trace := s.seq.trace ++ statusEvents s.cfg s.tgt.byte1 u.byte2 ++
            sentEvents [s.cfg.psz0, s.cfg.psz1, s.cfg.psz2, s.cfg.psz3]
          cs := true
          pc := .polling s.cfg .host
          resp := none } })

/-- R121: a poll that meets a busy target is one status read, and the loop goes on: no delay, no
response, no other change. -/
def Obligations.PollOfBusyTargetRepeats : Prop :=
  ∀ (s : State) (c : Caller), s.Undisturbed → s.seq.pc = .polling s.cfg c →
    (s.tgt.tick s.cfg).mode = .busy →
    let t := s.tgt.tick s.cfg
    let u := t.drawn.tick s.cfg
    step s = .next { s with
      shifted := []
      tgt := u.drawn
      seq := { s.seq with
        trace := s.seq.trace ++ statusEvents s.cfg t.byte1 u.byte2, cs := true, resp := none } }

/-- R120, R102: a poll that sees the ready bit ends the loop with a fresh status read. Called by the
host, SETBINARYPAGESIZE returns whether that reports binary mode; inside INIT a false result writes
`ID_CACHE <- 0`, a true one keeps it, and INIT returns. -/
def Obligations.PollOfReadyTargetReturns : Prop :=
  ∀ (s : State) (c : Caller), s.Undisturbed → s.seq.pc = .polling s.cfg c →
    (s.tgt.tick s.cfg).mode = .idle →
    let t := s.tgt.tick s.cfg
    let u := t.drawn
    let v := u.drawn
    let w := v.drawn
    let es := statusEvents s.cfg t.byte1 u.byte2 ++ statusEvents s.cfg v.byte1 w.byte2
    (c = .host → step s = .next (s.served es (if t.nvBinary then 1 else 0) w.drawn)) ∧
    (c = .init → step s = .next { s.served es 0 w.drawn with
      seq := { (s.served es 0 w.drawn).seq with
        idCache := if t.nvBinary then s.seq.idCache else 0 } })

/-- 60_exceptions.md R207, 46_power_down.md R162: a fault the target raised before the poll loop does not
end it: SEQ, which cannot see it, goes on with status reads, whatever bytes come, until one shows ready,
makes the re-check and returns; the fault is reported there, and carries SEQ as the operation's rule
leaves it. A reset before that reports it with SEQ's registers reset. -/
def Obligations.PollLoopGoesOnAfterAFault : Prop :=
  ∀ (s : State) (c : Caller) (f : TgtFault), s.tgtFault = some f → s.seq.pc = .polling s.cfg c →
    (s.resetIn = some 0 → step s = .fault (f.toFault { s.seq with
      idCache := 0, pwSel := false, bwSel := false, pc := .initStart, trace := [], resp := none })) ∧
    (s.resetIn = none → ∃ b1 b2,
      (b1.getLsbD 7 = false → ∃ t, step s = .next t ∧ t.tgtFault = some f ∧
        t.seq = { s.seq with
          trace := s.seq.trace ++ statusEvents s.cfg b1 b2, cs := true, resp := none }) ∧
      (b1.getLsbD 7 = true → ∃ b3 b4, step s = .fault (f.toFault { s.seq with
        trace := s.seq.trace ++ (statusEvents s.cfg b1 b2 ++ statusEvents s.cfg b3 b4)
        cs := true
        pc := .idle
        idCache := if c = .init ∧ b3.getLsbD 0 = false then 0 else s.seq.idCache
        resp := some ⟨true, if c = .host ∧ b3.getLsbD 0 = true then 1 else 0⟩ })))

/-- R121, 60_exceptions.md R205: on a chip that never becomes ready the loop never ends, however many
steps are taken. -/
def Obligations.PollNeverEndsOnHangingChip : Prop :=
  ∀ (s : State) (c : Caller) (k : Nat), s.Undisturbed → s.seq.pc = .polling s.cfg c →
    s.tgt.mode = .busy → s.tgt.fate.after = none →
    ∃ t : State, Host.Core.run Sys2Proof.core k s = .next t ∧ t.seq.pc = .polling s.cfg c

/-- R189: under responsiveness (TGT-COMPLETE fires after some number of opportunities) the poll loop
ends. -/
def Obligations.PollEndsOnResponsiveChip : Prop :=
  ∀ (s : State) (c : Caller) (n : Nat), s.Undisturbed → s.seq.pc = .polling s.cfg c →
    s.tgt.mode = .busy → s.tgt.fate.after = some n →
    ∃ k ≤ n + 1, ∃ t : State, Host.Core.run Sys2Proof.core k s = .next t ∧ t.seq.pc = .idle ∧
      t.tgt.mode = .idle ∧ ∃ v, t.seq.resp = some ⟨true, v⟩

/-! ### INIT -/

/-- R100, R101, R104: INIT against a binary chip, chip-select high: chip-select event, clock,
identifier, one status read, no page-size switch; the flags are 0, the clock is the lesser of the two,
and `ID_CACHE` holds the identifier if it is the expected one and 0 if not. -/
def Obligations.InitOfBinaryChip : Prop :=
  ∀ s : State, s.Undisturbed → s.seq.cs = true → s.tgt.mode = .idle → s.tgt.nvBinary = true →
    (s.tgt.devId = 0x1F2600 ∨ s.cfg.initCfgOnIdMismatch = true) →
    exec .init s = .next { s with
      shifted := []
      tgt := s.tgt.drawn.drawn
      seq := {
        idCache := if s.tgt.devId = 0x1F2600 then 0x001F2600 else 0
        pwSel := false
        bwSel := false
        clkHz := min s.cfg.cfgMaxHz 16000000
        cs := true
        pc := .idle
        trace := [.cs1, .clk (min s.cfg.cfgMaxHz 16000000)] ++
          queryEvents s.cfg.opcIdRead s.cfg.dummy [s.tgt.devId.extractLsb' 16 8,
            s.tgt.devId.extractLsb' 8 8, s.tgt.devId.extractLsb' 0 8] ++
          statusEvents s.cfg s.tgt.byte1 s.tgt.drawn.byte2
        resp := some ⟨true, 0⟩
        hostBuf := s.seq.hostBuf } }

/-- R100, R102, D10: INIT against a native chip makes its own status read, then SETBINARYPAGESIZE's,
then exactly one switch, and is in the poll loop; the identifier check has been made. -/
def Obligations.InitOfNativeChipSwitchesOnce : Prop :=
  ∀ s : State, s.Undisturbed → s.seq.cs = true → s.tgt.mode = .idle → s.tgt.nvBinary = false →
    s.tgt.nvCycles < s.cfg.nvCycleLimit →
    (s.tgt.devId = 0x1F2600 ∨ s.cfg.initCfgOnIdMismatch = true) →
    let t := s.tgt.drawn
    let u := t.drawn
    let v := u.drawn
    exec .init s = .next { s with
      shifted := []
      tgt := { v.drawn with nvCycles := s.tgt.nvCycles + 1 : Tgt }.startBusy .nvcfg
      seq := {
        idCache := if s.tgt.devId = 0x1F2600 then 0x001F2600 else 0
        pwSel := false
        bwSel := false
        clkHz := min s.cfg.cfgMaxHz 16000000
        cs := true
        pc := .polling s.cfg .init
        trace := [.cs1, .clk (min s.cfg.cfgMaxHz 16000000)] ++
          queryEvents s.cfg.opcIdRead s.cfg.dummy [s.tgt.devId.extractLsb' 16 8,
            s.tgt.devId.extractLsb' 8 8, s.tgt.devId.extractLsb' 0 8] ++
          statusEvents s.cfg s.tgt.byte1 t.byte2 ++ statusEvents s.cfg u.byte1 v.byte2 ++
          sentEvents [s.cfg.psz0, s.cfg.psz1, s.cfg.psz2, s.cfg.psz3]
        resp := none
        hostBuf := s.seq.hostBuf } }

/-- R101, D9: with `INIT_CFG_ON_ID_MISMATCH` false a mismatch ends INIT after the identifier read,
with `ID_CACHE` 0 and success reported. -/
def Obligations.InitMayStopAtMismatch : Prop :=
  ∀ s : State, s.Undisturbed → s.seq.cs = true → s.tgt.mode = .idle →
    s.tgt.devId ≠ 0x1F2600 → s.cfg.initCfgOnIdMismatch = false →
    ∃ t : State, exec .init s = .next t ∧ t.tgt = s.tgt ∧ t.seq.idCache = 0 ∧ t.seq.pc = .idle ∧
      t.seq.resp = some ⟨true, 0⟩ ∧
      t.seq.trace = [.cs1, .clk (min s.cfg.cfgMaxHz 16000000)] ++
        queryEvents s.cfg.opcIdRead s.cfg.dummy [s.tgt.devId.extractLsb' 16 8,
          s.tgt.devId.extractLsb' 8 8, s.tgt.devId.extractLsb' 0 8]

/-! ### Page read -/

/-- R130, R174: READPAGE sends the eight-byte header and `size` dummies and stores what it receives in
the host's buffer from index 0; bytes above stay, and nothing else of SEQ or of the target changes but
the free values drawn for `UNDEF` cells. -/
def Obligations.ReadPageStoresWhatItReceives : Prop :=
  ∀ (s : State) (a : Addr) (size : Nat), s.Undisturbed → s.PageReady a →
    let got := Draws.fill ((List.range size).map (s.tgt.pageCell a)) s.tgt.free
    let es : List BusEvent := .cs0 ::
      ((s.cfg.opcPageRead :: (addrBytes a ++ List.replicate 4 s.cfg.dummy)).map (fun b => .x b none) ++
        got.1.map (fun b => .x s.cfg.dummy (some b)) ++ [.cs1])
    exec (.readPage a size) s = .next { s.served es 0 { s.tgt with free := got.2 } with
      seq := { (s.served es 0 s.tgt).seq with hostBuf := got.1 ++ s.seq.hostBuf.drop size } }

/-- R131, R53: data byte i of a READPAGE is cell `(off + i) mod 512` of the page, for every size, where
the page holds bytes; a read past the end of the page wraps inside it. -/
def Obligations.ReadPageWrapsInsideThePage : Prop :=
  ∀ (s : State) (a : Addr) (size : Nat) (content : Nat → Byte), s.Undisturbed → s.PageReady a →
    (∀ j < 512, s.tgt.main.read (page a * 512 + j) = some (content j)) →
    ∃ t : State, exec (.readPage a size) s = .next t ∧ t.tgt = s.tgt ∧
      (∀ i < size, t.seq.hostBuf[i]? = some (content ((off a + i) % 512))) ∧
      ∀ i ≥ size, t.seq.hostBuf[i]? = s.seq.hostBuf[i]?

/-! ### Page write, buffer write, buffer to memory, erase -/

/-- 47_target.md R175: a buffer load stores the data from the address's low nine bits up and keeps
every other cell of both buffers; one that runs past the end makes every cell of its buffer `UNDEF`. -/
def Obligations.BufferLoadStoresInPlace : Prop :=
  ∀ (t : Tgt) (b c : BufId) (a : Addr) (data : List Byte), c ≠ b →
    (off a + data.length ≤ 512 → ∀ i, ((t.loadBuffer b a data).buf b).read i =
      if off a ≤ i ∧ i < off a + data.length then data[i - off a]? else (t.buf b).read i) ∧
    (512 < off a + data.length → ∀ i, ((t.loadBuffer b a data).buf b).read i = none) ∧
    (t.loadBuffer b a data).buf c = t.buf c

/-- R140, R176: WRITEPAGE sends the opcode its flag selects, complements the flag, loads that buffer
and starts the erase-then-program of the page from it; it returns success at once. -/
def Obligations.WritePageLoadsAndStartsProgram : Prop :=
  ∀ (s : State) (a : Addr) (data : List Byte), s.Undisturbed → s.PageReady a →
    let b : BufId := if s.seq.pwSel then .two else .one
    let opc := if s.seq.pwSel then s.cfg.opcProgB2 else s.cfg.opcProgB1
    let es := sentEvents (opc :: (addrBytes a ++ data))
    let t := ((s.tgt.loadBuffer b a data).forgetPage (page a)).startBusy (.prog (page a) b true)
    exec (.writePage a data) s = .next { s.served es 0 t with
      seq := { (s.served es 0 t).seq with pwSel := !s.seq.pwSel } }

/-- R150, R177, R82: WRITEBUFFER sends the opcode `BW_SEL` selects and the zero-extended offset, and
loads that buffer; no flag changes, the target stays idle, the main array is untouched. -/
def Obligations.WriteBufferLoadsAndNothingElse : Prop :=
  ∀ (s : State) (o : Offset) (data : List Byte), s.Undisturbed → s.tgt.mode = .idle →
    s.tgt.nvBinary = true →
    let b : BufId := if s.seq.bwSel then .two else .one
    let opc := if s.seq.bwSel then s.cfg.opcBufwB2 else s.cfg.opcBufwB1
    let t := s.tgt.loadBuffer b (o.setWidth 24) data
    exec (.writeBuffer o data) s = .next (s.served
      (sentEvents (opc :: 0x00 :: (o.extractLsb' 8 1).setWidth 8 :: o.extractLsb' 0 8 :: data)) 0 t) ∧
    t.mode = .idle ∧ t.main = s.tgt.main

/-- R151, R178: BUFFERTOMEMORY sends the opcode `BW_SEL` selects, complements the flag, and starts the
program of the page from that buffer; the result will be defined if the command erases or every cell
of the page held the erased byte. -/
def Obligations.BufferToMemoryStartsProgram : Prop :=
  ∀ (s : State) (a : Addr) (clean : Bool), s.Undisturbed → s.PageReady a →
    (clean = true ↔ s.cfg.b2mBuiltinErase = true ∨
      ∀ i < 512, s.tgt.main.read (page a * 512 + i) = some s.cfg.erasedByte) →
    let b : BufId := if s.seq.bwSel then .two else .one
    let opc := if s.seq.bwSel then s.cfg.opcB2mB2 else s.cfg.opcB2mB1
    let es := sentEvents (opc :: addrBytes a)
    let t := (s.tgt.forgetPage (page a)).startBusy (.prog (page a) b clean)
    exec (.bufferToMemory a) s = .next { s.served es 0 t with
      seq := { (s.served es 0 t).seq with bwSel := !s.seq.bwSel } }

/-- R152, R179: ERASEPAGE sends the fixed opcode and the address and starts the erase; neither flag and
neither buffer changes. -/
def Obligations.ErasePageStartsErase : Prop :=
  ∀ (s : State) (a : Addr), s.Undisturbed → s.PageReady a →
    let t := (s.tgt.forgetPage (page a)).startBusy (.erase (page a))
    exec (.erasePage a) s = .next (s.served (sentEvents (s.cfg.opcPageErase :: addrBytes a)) 0 t) ∧
      t.buf1 = s.tgt.buf1 ∧ t.buf2 = s.tgt.buf2

/-- R176, R178, R179: from the starting `CS1` every cell of the page is `UNDEF` and every other cell of
the main array is as before, for every instruction that programs or erases a page. -/
def Obligations.StartingAProgramForgetsItsPageOnly : Prop :=
  ∀ (i : Instr) (a : Addr) (s t : State), i.rewrites = some a → s.Undisturbed → s.PageReady a →
    exec i s = .next t →
    t.tgt.mode = .busy ∧ ∀ x, t.tgt.main.read x =
      if page a * 512 ≤ x ∧ x < page a * 512 + 512 then none else s.tgt.main.read x

/-- R26, R59, R174, R177: an instruction that neither programs nor erases leaves every cell of the main
array alone (on a target that is not busy), and the buffers change by the loads and the wake only
(chip-select high: no truncated transaction waits for its `CS1`). That ENTERUDPD and W_UDPD keep the
buffers is the model's choice (log 31): R180 leaves it to the chip. -/
def Obligations.OtherInstructionsLeaveTheMemories : Prop :=
  ∀ (i : Instr) (s t : State), s.cfg.wf = true → s.resetIn = none → s.seq.cs = true →
    exec i s = .next t →
    (i.rewrites = none → s.tgt.mode ≠ .busy → t.tgt.main = s.tgt.main) ∧
      (i.changesBuffers = false → t.tgt.buf1 = s.tgt.buf1 ∧ t.tgt.buf2 = s.tgt.buf2)

/-! ### The rotation flags -/

/-- 10_state.md R12, R13: only WRITEPAGE writes `PW_SEL` and only BUFFERTOMEMORY writes `BW_SEL` (INIT
resets both), by complementing it; WRITEBUFFER changes neither. -/
def Obligations.EachFamilyTurnsItsOwnRotationFlag : Prop :=
  ∀ (i : Instr) (s t : State), s.resetIn = none → i ≠ .init → exec i s = .next t →
    t.seq.pwSel = (if i.isWritePage then !s.seq.pwSel else s.seq.pwSel) ∧
      t.seq.bwSel = (if i.isBufferToMemory then !s.seq.bwSel else s.seq.bwSel)

/-- R141: the k-th WRITEPAGE after INIT sends the buffer-1 opcode if k is odd and the buffer-2 opcode if
k is even, whatever the operands and the instructions between, and whatever the target makes of it. -/
def Obligations.PageWritesAlternate : Prop :=
  ∀ (is : List Instr) (s t : State) (a : Addr) (data : List Byte), s.seq.pwSel = false →
    s.resetIn = none → .init ∉ is → execAll is s = some t →
    ∃ q rest, seqOf (exec (.writePage a data) t) = some q ∧
      q.trace.map BusEvent.driven = t.seq.trace.map BusEvent.driven ++ .cs0 ::
        .x (if (is.countP Instr.isWritePage + 1) % 2 = 1 then t.cfg.opcProgB1 else t.cfg.opcProgB2)
          none :: rest

/-- R151, corner case 1: the k-th BUFFERTOMEMORY after INIT uses buffer 1 if k is odd and buffer 2 if k
is even, whatever WRITEBUFFER calls lie between. -/
def Obligations.BufferCommitsAlternate : Prop :=
  ∀ (is : List Instr) (s t : State) (a : Addr), s.seq.bwSel = false → s.resetIn = none →
    .init ∉ is → execAll is s = some t →
    ∃ q rest, seqOf (exec (.bufferToMemory a) t) = some q ∧
      q.trace.map BusEvent.driven = t.seq.trace.map BusEvent.driven ++ .cs0 ::
        .x (if (is.countP Instr.isBufferToMemory + 1) % 2 = 1 then t.cfg.opcB2mB1
          else t.cfg.opcB2mB2) none :: rest

/-! ### Power-down -/

/-- R160, R180: ENTERUDPD sends one byte and the target is in ultra-deep power-down; the array, the
page-size bit and SEQ's registers stay. (So do the buffers: the model's choice of log 31, R180 leaving
it to the chip; nothing reads them before the wake.) -/
def Obligations.EnterUdpdPowersDown : Prop :=
  ∀ s : State, s.Undisturbed → s.tgt.mode = .idle →
    exec .enterUdpd s =
      .next (s.served (sentEvents [s.cfg.opcUdpd]) 0 { s.tgt with mode := .udpd })

/-- R161, R181: EXITUDPD is a bare pulse and a settle time. It wakes a target in ultra-deep power-down:
idle, every cell of both buffers `UNDEF`, the error flag drawn, the rest kept; an idle or busy target
it leaves alone (but for TGT-COMPLETE's own step). SEQ's flags are not reset. The raw pulse wakes the
target the same way and is nothing to SEQ. -/
def Obligations.ExitUdpdWakesAndLosesTheBuffers : Prop :=
  ∀ s : State, s.Undisturbed →
    let es : List BusEvent := [.cs0, .dly s.cfg.tWakePulse, .cs1, .dly 1000000]
    (s.tgt.mode = .udpd → ∃ (e : Bool) (f : Draws),
      let t : Tgt := { s.tgt with mode := .idle, buf1 := [], buf2 := [], epe := e, free := f }
      exec .exitUdpd s = .next (s.served es 0 t) ∧
        exec .wWake s = .next { s with tgt := t, wireRx := [] }) ∧
    (s.tgt.mode = .idle ∨ s.tgt.mode = .busy →
      exec .exitUdpd s = .next (s.served es 0 (s.tgt.tick s.cfg)))

/-- R162, R218: a step leaves ultra-deep power-down only by EXITUDPD or the wire command it is made of,
and then to idle: SEQ never wakes the target of itself. -/
def Obligations.OnlyTheWakeLeavesUdpd : Prop :=
  ∀ s t : State, s.tgt.mode = .udpd → step s = .next t → t.tgt.mode ≠ .udpd →
    t.tgt.mode = .idle ∧ ((∃ rest kept, s.seq.pc = .running .exitUdpd rest kept) ∨
      ∃ p rest i, s.seq.pc = .idle ∧ s.requests = p :: rest ∧
        decode s.cfg p = .ok i ∧ (i = .exitUdpd ∨ i = .wWake))

/-- 10_state.md R24, conflict C1: no step enters or leaves deep power-down. -/
def Obligations.DeepPowerDownIsNeitherEnteredNorLeft : Prop :=
  ∀ s t : State, step s = .next t → (t.tgt.mode = .dpd ↔ s.tgt.mode = .dpd)

/-! ### TGT-COMPLETE -/

/-- R182: the completion of a program. If it succeeded, cell i of the page holds cell i of the buffer,
`UNDEF` included, where the erase condition held, and is `UNDEF` where it did not; if it failed, every
cell is `UNDEF`. The error flag says which; the buffers, the rest of the array and SEQ stay. -/
def Obligations.CompletionOfProgram : Prop :=
  ∀ (s : State) (p : Nat) (b : BufId) (clean : Bool), s.resetIn = none → s.seq.pc = .idle →
    s.requests = [] → s.tgt.mode = .busy → s.tgt.pending = some (.prog p b clean) →
    s.tgt.fate.after = some 0 →
    ∃ m e, step s = .next { s with
        tgt := { s.tgt with mode := .idle, pending := none, main := m, epe := e } } ∧
      e = !s.tgt.fate.ok ∧
      ∀ x, m.read x = if p * 512 ≤ x ∧ x < p * 512 + 512 then
          (if s.tgt.fate.ok = true ∧ clean = true then (s.tgt.buf b).read (x - p * 512) else none)
        else s.tgt.main.read x

/-- R182: the completion of an erase: every cell of the page holds the erased byte if it succeeded and is
`UNDEF` if not, and the error flag says which. That of the page-size switch: it sets the bit if it
succeeded and leaves it if not, and the error flag is unchanged either way. -/
def Obligations.CompletionOfEraseAndOfPageSizeSwitch : Prop :=
  ∀ s : State, s.resetIn = none → s.seq.pc = .idle → s.requests = [] → s.tgt.mode = .busy →
    s.tgt.fate.after = some 0 →
    (∀ p, s.tgt.pending = some (.erase p) →
      ∃ m e, step s = .next { s with
          tgt := { s.tgt with mode := .idle, pending := none, main := m, epe := e } } ∧
        e = !s.tgt.fate.ok ∧
        ∀ x, m.read x = if p * 512 ≤ x ∧ x < p * 512 + 512 then
            (if s.tgt.fate.ok then some s.cfg.erasedByte else none)
          else s.tgt.main.read x) ∧
    (s.tgt.pending = some .nvcfg → step s = .next { s with tgt := { s.tgt with
      mode := .idle, pending := none,
      nvBinary := if s.tgt.fate.ok then true else s.tgt.nvBinary } })

/-- 20_memory.md R58, read after program: once a successful program of a page is over, READPAGE of the
page returns the bytes of the buffer that was programmed. -/
def Obligations.ReadAfterProgramReturnsTheBuffer : Prop :=
  ∀ (s : State) (a : Addr) (size : Nat) (b : BufId) (content : Nat → Byte), s.Undisturbed →
    s.tgt.mode = .busy → s.tgt.pending = some (.prog (page a) b true) →
    s.tgt.fate = ⟨some 0, true⟩ → s.tgt.nvBinary = true → page a < s.cfg.nPages →
    (∀ j < 512, (s.tgt.buf b).read j = some (content j)) →
    ∃ t : State, exec (.readPage a size) s = .next t ∧ t.tgt.epe = false ∧
      ∀ i < size, t.seq.hostBuf[i]? = some (content ((off a + i) % 512))

/-! ### The target's faults, and SEQ's side of them -/

/-- 60_exceptions.md R207, R200, 70_reset_and_hazards.md R236: what an operation of one transaction
drives onto the bus depends on its operands, the parameters and the two rotation flags alone, never on
the target, and it ends with `ok = 1` and SEQ idle, in whatever state the target is and whether or not
the target faults. -/
def Obligations.SeqDrivesTheBusWhateverTheTarget : Prop :=
  ∀ (i : Instr) (s : State) (es : List BusEvent), s.resetIn = none →
    drivenBy s.cfg s.seq.pwSel s.seq.bwSel i = some es →
    ∃ q v, seqOf (exec i s) = some q ∧
      q.trace.map BusEvent.driven = s.seq.trace.map BusEvent.driven ++ es ∧
      q.resp = some ⟨true, v⟩ ∧ q.pc = .idle ∧ q.cs = true

/-- 93_implementation_defined.md U3, 60_exceptions.md R206: on a bus without a chip every operation is
carried out, whatever bytes it receives; one that may poll ends idle or at its poll loop. -/
def Obligations.EveryOperationRunsWithoutAChip : Prop :=
  ∀ (i : Instr) (s : State), i.isOperation = true → s.resetIn = none → s.cfg.chipPresent = false →
    s.tgtFault = none →
    ∃ t : State, exec i s = .next t ∧ t.seq.cs = true ∧
      ((t.seq.pc = .idle ∧ ∃ v, t.seq.resp = some ⟨true, v⟩) ∨
        ∃ c, t.seq.pc = .polling s.cfg c ∧ t.seq.resp = none)

/-- R183: a busy target, its window not over, faults on every transaction of at least one byte but the
status read: on every instruction of one transaction but those, on INIT (chip-select high; its identifier
read comes first), on SETBINARYPAGESIZE of a native chip whose window lasts through its status read, and
on a raw transaction that is no command (one that begins with the status opcode: if the window lasts
through its bytes). -/
def Obligations.BusyTargetFaults : Prop :=
  ∀ s : State, s.Undisturbed → s.tgt.mode = .busy → s.tgt.fate.after ≠ some 0 →
    (∀ i : Instr, i.busyLegal = false →
      ((drivenBy s.cfg s.seq.pwSel s.seq.bwSel i).isSome = true ∨ i.isWire = true) →
      ∃ q, exec i s = .fault (.commandWhileBusy q)) ∧
    (s.seq.cs = true → faultsWith .commandWhileBusy (exec .init s)) ∧
    (s.tgt.nvBinary = false → (∀ n, s.tgt.fate.after = some n → 3 ≤ n) →
      faultsWith .commandWhileBusy (exec .setBinaryPageSize s)) ∧
    ∀ bytes rest why, s.seq.pc = .idle → s.requests = .wire bytes :: rest →
      decodeWire s.cfg bytes = .error why →
      (bytes.head? = some s.cfg.opcStatusRead → ∀ n, s.tgt.fate.after = some n → 2 ≤ n) →
      step s = .fault (.commandWhileBusy s.seq)

/-- R184, R185: in ultra-deep power-down every transaction of at least one byte faults; in deep
power-down the bare pulse too. So do INIT (chip-select high), SETBINARYPAGESIZE and a raw transaction
that is no command; where SEQ is then at its poll loop the fault is reported at the loop's end. -/
def Obligations.PoweredDownTargetFaults : Prop :=
  ∀ s : State, s.Undisturbed → (s.tgt.mode = .udpd ∨ s.tgt.mode = .dpd) →
    (∀ i : Instr, ((drivenBy s.cfg s.seq.pwSel s.seq.bwSel i).isSome = true ∨ i.isWire = true) →
      ((i ≠ .exitUdpd ∧ i ≠ .wWake) ∨ s.tgt.mode = .dpd) →
      ∃ q, exec i s = .fault (.commandWhilePoweredDown q)) ∧
    (s.seq.cs = true → faultsWith .commandWhilePoweredDown (exec .init s)) ∧
    faultsWith .commandWhilePoweredDown (exec .setBinaryPageSize s) ∧
    ∀ bytes rest why, s.seq.pc = .idle → s.requests = .wire bytes :: rest →
      decodeWire s.cfg bytes = .error why → step s = .fault (.commandWhilePoweredDown s.seq)

/-- R186, R187: on an idle target a command on a page the array does not have faults; one on a page it
has faults in native page mode, and so does every buffer load. (That a page outside the array in native
mode faults for the page is the model's choice of log 29; that a buffer load at any address faults for
the page mode, its page bits being ignored, is log 16, which follows R177 against R170 (4) and R186.) -/
def Obligations.WrongPageOrPageModeFaults : Prop :=
  ∀ (i : Instr) (s : State), s.Undisturbed → s.tgt.mode = .idle →
    (∀ a, i.pageAddr = some a → s.cfg.nPages ≤ page a →
      ∃ q, exec i s = .fault (.addressOutOfRange q)) ∧
    (∀ a, i.pageAddr = some a → page a < s.cfg.nPages → s.tgt.nvBinary = false →
      ∃ q, exec i s = .fault (.nativePageMode q)) ∧
    (i.isBufferLoad = true → s.tgt.nvBinary = false → ∃ q, exec i s = .fault (.nativePageMode q))

/-- R186: a transaction that matches no wire command faults on an idle target. -/
def Obligations.UnknownTransactionFaults : Prop :=
  ∀ (s : State) (bytes : List Byte) (rest : List Packet) (why : DecodeError), s.resetIn ≠ some 0 →
    s.cfg.chipPresent = true → s.seq.pc = .idle → s.requests = .wire bytes :: rest →
    s.tgt.mode = .idle → decodeWire s.cfg bytes = .error why →
    step s = .fault (.unknownCommand s.seq)

/-- 60_exceptions.md R219: a host that keeps its duties never meets a fault: every instruction whose
duty holds is carried out. (That a buffer load runs at any address rests on log 16, which follows R177
against R170 (4) and R186.) -/
def Obligations.DutifulHostNeverFaults : Prop :=
  ∀ (i : Instr) (s : State), s.Undisturbed → s.Dutiful i → ∃ t : State, exec i s = .next t

/-! ### The wire level -/

/-- R171, R172, R174, R181: the wire commands that answer, as raw transactions: what comes back at each
position, and that SEQ does not change. The status read answers while busy too (R183). -/
def Obligations.WireQueriesAnswer : Prop :=
  ∀ s : State, s.Undisturbed →
    (s.tgt.mode = .idle ∨ s.tgt.mode = .busy →
      let t := s.tgt.tick s.cfg
      let u := t.drawn.tick s.cfg
      exec .wStatus s = .next { s with
        tgt := u.drawn, wireRx := [none, some t.byte1, some u.byte2] } ∧
      exec .wWake s = .next { s with tgt := t, wireRx := [] }) ∧
    (s.tgt.mode = .idle → exec .wId s = .next { s with
      wireRx := [none, some (s.tgt.devId.extractLsb' 16 8),
        some (s.tgt.devId.extractLsb' 8 8), some (s.tgt.devId.extractLsb' 0 8)] }) ∧
    (∀ (a : Addr) (n : Nat), s.PageReady a →
      exec (.wRead a n) s = .next { s with wireRx := (List.replicate 8 none ++
        (List.range n).map fun i => s.tgt.main.read (page a * 512 + (off a + i) % 512)) })

/-- R173, R175 to R178, R179: the wire commands that load buffers and start busy windows. -/
def Obligations.WireWritesLoadAndStart : Prop :=
  ∀ (s : State) (a : Addr) (data : List Byte) (clean : Bool), s.Undisturbed → s.PageReady a →
    (clean = true ↔ s.cfg.b2mBuiltinErase = true ∨
      ∀ i < 512, s.tgt.main.read (page a * 512 + i) = some s.cfg.erasedByte) →
    let none4 : List (Option Byte) := [none, none, none, none]
    let rx := none4 ++ data.map fun _ => none
    let prog (b : BufId) :=
      ((s.tgt.loadBuffer b a data).forgetPage (page a)).startBusy (.prog (page a) b true)
    let b2m (b : BufId) := (s.tgt.forgetPage (page a)).startBusy (.prog (page a) b clean)
    exec (.wProg1 a data) s = .next { s with tgt := prog .one, wireRx := rx } ∧
    exec (.wProg2 a data) s = .next { s with tgt := prog .two, wireRx := rx } ∧
    exec (.wBufw1 a data) s = .next { s with tgt := s.tgt.loadBuffer .one a data, wireRx := rx } ∧
    exec (.wBufw2 a data) s = .next { s with tgt := s.tgt.loadBuffer .two a data, wireRx := rx } ∧
    exec (.wB2m1 a) s = .next { s with tgt := b2m .one, wireRx := none4 } ∧
    exec (.wB2m2 a) s = .next { s with tgt := b2m .two, wireRx := none4 } ∧
    exec (.wErase a) s = .next { s with
      tgt := (s.tgt.forgetPage (page a)).startBusy (.erase (page a)), wireRx := none4 }

/-- R173, R180: the page-size switch and the power-down command as raw transactions. A switch is
accepted and costs a cycle whatever the page size is; past the limit of cycles it faults (the fault is
the model's choice among the two of 10_state.md R31, log 17). The power-down command changes the mode and
nothing else (that the buffers keep their content is the model's choice of log 31: R180 leaves it to the
chip). -/
def Obligations.WireSwitchAndPowerDown : Prop :=
  ∀ s : State, s.Undisturbed → s.tgt.mode = .idle →
    (s.tgt.nvCycles < s.cfg.nvCycleLimit → exec .wPsz s = .next { s with
      tgt := { s.tgt with nvCycles := s.tgt.nvCycles + 1 : Tgt }.startBusy .nvcfg
      wireRx := [none, none, none, none] }) ∧
    (s.cfg.nvCycleLimit ≤ s.tgt.nvCycles → exec .wPsz s = .fault (.nvWornOut s.seq)) ∧
    exec .wUdpd s = .next { s with tgt := { s.tgt with mode := .udpd }, wireRx := [none] }

/-! ### Reset -/

/-- 70_reset_and_hazards.md R231: the values the spec gives for reset entry. -/
def Obligations.ResetEntryValues : Prop :=
  State.reset.seq.idCache = 0 ∧ State.reset.seq.pwSel = false ∧ State.reset.seq.bwSel = false ∧
    State.reset.seq.pc = .initStart ∧ State.reset.seq.trace = [] ∧
    ∀ i, State.reset.tgt.buf1.read i = none ∧ State.reset.tgt.buf2.read i = none

/-- R230, R232: the reset input of an SEQ between two operations: SEQ drops what it does (a poll loop
included), its registers have their reset values, INIT is next; the target and the requests waiting are
untouched (R233, D41; that the buffers keep their bytes is the model's choice of log 32). -/
def Obligations.ResetInputStartsInitAgain : Prop :=
  ∀ s : State, s.resetIn = some 0 → s.tgtFault = none → step s = .next { s with
    resetIn := none
    seq := { s.seq with
      idCache := 0, pwSel := false, bwSel := false, pc := .initStart, trace := [], resp := none } }

/-- R230, R55: a reset in the middle of a transaction, after chip-select and `k` exchanges: chip-select is
low with the first `k` bytes shifted in, the registers have their reset values, there is no response.
Of a WRITEPAGE the target has loaded the data bytes that came, byte by byte, and done nothing else (what
it makes of the bytes is INIT's first step); of a READPAGE the host has the cells that came. When the
reset strikes, and that the host keeps what READPAGE stored, is the model's choice of log 11; that the
buffers keep their bytes across the reset is that of log 32. -/
def Obligations.ResetCutsATransaction : Prop :=
  ∀ (s : State) (a : Addr) (k : Nat), s.cfg.wf = true → s.cfg.chipPresent = true →
    s.tgtFault = none → s.PageReady a → s.resetIn = some (k + 1) →
    let cut (t : State) (bytes : List Byte) : Prop :=
      t.shifted = bytes.take k ∧ t.seq.cs = false ∧ t.seq.pc = .initStart ∧ t.seq.idCache = 0 ∧
        t.seq.pwSel = false ∧ t.seq.bwSel = false ∧ t.seq.resp = none ∧ t.seq.trace = [] ∧
        t.resetIn = none ∧ t.tgtFault = none
    (∀ data : List Byte, k < data.length + 5 →
      let b : BufId := if s.seq.pwSel then .two else .one
      let opc := if s.seq.pwSel then s.cfg.opcProgB2 else s.cfg.opcProgB1
      ∃ t : State, exec (.writePage a data) s = .next t ∧ cut t (opc :: (addrBytes a ++ data)) ∧
        t.tgt = s.tgt.loadBuffer b a (data.take (k - 4))) ∧
    ∀ size : Nat, k < size + 9 →
      let got := Draws.fill ((List.range (k - 8)).map (s.tgt.pageCell a)) s.tgt.free
      ∃ t : State, exec (.readPage a size) s = .next t ∧
        cut t (s.cfg.opcPageRead :: (addrBytes a ++ List.replicate (4 + size) s.cfg.dummy)) ∧
        t.tgt = { s.tgt with free := got.2 } ∧
        t.seq.hostBuf = got.1 ++ s.seq.hostBuf.drop (k - 8)

/-- R230: INIT raises chip-select. A truncated transaction that is no whole command makes an idle target
fault; one whose bytes happen to form a whole command that the target takes is carried out there, and
INIT goes on as from a state in which that has happened. -/
def Obligations.TruncatedTransactionEndsAtInit : Prop :=
  ∀ s : State, s.Undisturbed → s.seq.cs = false →
    (∀ why, s.tgt.mode = .idle → decodeWire s.cfg s.shifted = .error why →
      faultsWith .unknownCommand (exec .init s)) ∧
    ∀ i, s.tgt.verdict s.cfg s.shifted = .ok i →
      exec .init s = exec .init { s with
        tgt := s.tgt.commit s.cfg i, shifted := [], seq := { s.seq with cs := true } }

/-! ### Invariants -/

/-- The invariants of Safety.lean hold at reset, and so does the form of the bus trace. -/
def Obligations.ResetMeetsTheInvariant : Prop :=
  State.reset.Inv ∧ State.reset.FaultInside ∧ State.reset.TraceWhole

/-- Every step keeps the invariant: chip-select high outside an operation (R15), inside one calls left
that pair and no response (R16, R18), `pending` exactly while busy (R30), the memories canonical and
inside their bounds (R25, R26), the identifier's top byte 0 (R111), `ok = 1` in every response (R200). -/
def Obligations.StepKeepsTheInvariant : Prop :=
  ∀ s t : State, s.Inv → step s = .next t → t.Inv

/-- R16: so does every primitive call, from every position of `SEQ_PC`, with the form of the bus trace
(R15, R34); and a fault of the target is pending between two steps only inside an operation (R207). -/
def Obligations.PrimitiveCallsKeepTheInvariants : Prop :=
  (∀ s : State, s.Inv → s.callStep.Inv) ∧
    (∀ s : State, s.TraceWhole → s.callStep.TraceWhole) ∧
    ∀ s t : State, s.FaultInside → step s = .next t → t.FaultInside

/-- R15, R34: every step keeps the bus trace a sequence of whole transactions after INIT's steps (a)
and (b). -/
def Obligations.StepKeepsTransactionsWhole : Prop :=
  ∀ s t : State, s.TraceWhole → step s = .next t → t.TraceWhole

/-- R29, R3, R14: a step never changes the chip's constants or the parameters, and the clock only by
INIT. -/
def Obligations.ConstantsNeverChange : Prop :=
  ∀ s t : State, step s = .next t →
    t.cfg = s.cfg ∧ t.tgt.devId = s.tgt.devId ∧ t.tgt.density = s.tgt.density ∧
      (s.seq.pc ≠ .initStart → (∀ p rest, s.requests = p :: rest → decode s.cfg p ≠ .ok .init) →
        (∀ stage rest kept hz, s.seq.pc = .running stage rest kept → .setClock hz ∉ rest) →
        t.seq.clkHz = s.seq.clkHz)
end

