-- ==== Sys2Proof/Laws/Decode.lean ====
section
/-! SUPPORT. The laws of the two encodings: what the parameter constraint of spec/00_scope.md R3 says, the fields
of a host word, and the command that each whole wire transaction decodes to. -/

namespace Sys2Proof

/-- The constraint of R3, spread out. -/
theorem Config.wf_iff (c : Config) : c.wf = true ↔ c.firstBytes.Nodup ∧ tWakePulseMin ≤ c.tWakePulse := by
  simp [Config.wf]

/-! ### Addresses -/

@[simp] theorem addrBytes_length (a : Addr) : (addrBytes a).length = 3 := rfl

/-- The three address bytes, put together again, are the address (30_encoding.md R81). -/
theorem joinAddr_addrBytes (a : Addr) :
    joinAddr (a.extractLsb' 16 8) (a.extractLsb' 8 8) (a.extractLsb' 0 8) = a := by
  apply BitVec.eq_of_getLsbD_eq
  intro i hi
  rw [joinAddr, BitVec.getLsbD_append, BitVec.getLsbD_append]
  simp only [BitVec.getLsbD_extractLsb']
  split
  · next h => simp [h]
  · split
    · next h1 h2 => simp [h2, show 8 + (i - 8) = i by omega]
    · next h1 h2 => simp [show i - 8 - 8 < 8 by omega, show 16 + (i - 8 - 8) = i by omega]

@[simp] theorem withAddr_addrBytes (a : Addr) (data : List Byte)
    (k : Addr → List Byte → Except DecodeError Instr) :
    withAddr (addrBytes a ++ data) k = k a data := by
  simp [addrBytes, withAddr, joinAddr_addrBytes]

@[simp] theorem onlyAddr_addrBytes (a : Addr) (k : Addr → Instr) :
    onlyAddr (addrBytes a) k = .ok (k a) := by
  have := withAddr_addrBytes a [] fun a data => if data = [] then .ok (k a) else .error .wrongLength
  simpa [onlyAddr] using this

/-! ### Host words -/

theorem hostWord_op (op : Nat) (a : Addr) (size : Nat) (h : op < 16) :
    hostWord op a size % 16 = op := by
  unfold hostWord; omega

theorem hostWord_addr (op : Nat) (a : Addr) (size : Nat) (h : op < 16) :
    BitVec.ofNat 24 (hostWord op a size / 2 ^ 4) = a := by
  apply BitVec.eq_of_toNat_eq
  have := a.isLt
  rw [BitVec.toNat_ofNat]
  unfold hostWord; omega

theorem hostWord_size (op : Nat) (a : Addr) (size : Nat) (h : op < 16) :
    hostWord op a size / 2 ^ 28 = size := by
  have := a.isLt
  unfold hostWord; omega

theorem hostWord_lt (op : Nat) (a : Addr) (size w : Nat) (h : op < 16) (hs : size < 2 ^ w) :
    hostWord op a size < 2 ^ (28 + w) := by
  have := a.isLt
  have hw : (2 : Nat) ^ (28 + w) = 2 ^ 28 * 2 ^ w := Nat.pow_add 2 28 w
  have : 2 ^ 28 * (size + 1) ≤ 2 ^ 28 * 2 ^ w := Nat.mul_le_mul_left _ hs
  unfold hostWord; omega

@[simp] theorem offsetAddr_setWidth (o : Offset) : (offsetAddr o).setWidth 9 = o := by
  simp [offsetAddr]

@[simp] theorem takeStream_length (data : List Byte) (k : List Byte → Instr) :
    takeStream data.length data k = .ok (k data) := by
  simp [takeStream]

/-! ### Whole wire transactions -/

/-- R3's constraint, each opcode told apart from those before it in the list. -/
theorem Config.opcodes_apart {c : Config} (h : c.wf = true) : c.firstBytes.reverse.Nodup :=
  List.nodup_reverse.2 (c.wf_iff.1 h).1

theorem decodeWire_status (cfg : Config) (b1 b2 : Byte) :
    decodeWire cfg [cfg.opcStatusRead, b1, b2] = .ok .wStatus := by
  simp [decodeWire, exactly]

theorem decodeWire_id {cfg : Config} (h : cfg.wf = true) (b1 b2 b3 : Byte) :
    decodeWire cfg ([cfg.opcIdRead, b1, b2, b3]) = .ok .wId := by
  have := Config.opcodes_apart h
  simp [Config.firstBytes] at this
  simp [decodeWire, exactly, this]

theorem decodeWire_psz {cfg : Config} (h : cfg.wf = true) :
    decodeWire cfg (pageSizeBytes cfg) = .ok .wPsz := by
  have := Config.opcodes_apart h
  simp [Config.firstBytes] at this
  simp [decodeWire, pageSizeBytes, this]

theorem decodeWire_read {cfg : Config} (h : cfg.wf = true) (a : Addr) (n : Nat) :
    decodeWire cfg (readHeader cfg a ++ List.replicate n cfg.dummy) = .ok (.wRead a n) := by
  have := Config.opcodes_apart h
  simp [Config.firstBytes] at this
  simp [decodeWire, readHeader, this]

theorem decodeWire_prog1 {cfg : Config} (h : cfg.wf = true) (a : Addr) (data : List Byte) :
    decodeWire cfg (addrHeader cfg.opcProgB1 a ++ data) = .ok (.wProg1 a data) := by
  have := Config.opcodes_apart h
  simp [Config.firstBytes] at this
  simp [decodeWire, addrHeader, this]

theorem decodeWire_prog2 {cfg : Config} (h : cfg.wf = true) (a : Addr) (data : List Byte) :
    decodeWire cfg (addrHeader cfg.opcProgB2 a ++ data) = .ok (.wProg2 a data) := by
  have := Config.opcodes_apart h
  simp [Config.firstBytes] at this
  simp [decodeWire, addrHeader, this]

theorem decodeWire_bufw1 {cfg : Config} (h : cfg.wf = true) (a : Addr) (data : List Byte) :
    decodeWire cfg (addrHeader cfg.opcBufwB1 a ++ data) = .ok (.wBufw1 a data) := by
  have := Config.opcodes_apart h
  simp [Config.firstBytes] at this
  simp [decodeWire, addrHeader, this]

theorem decodeWire_bufw2 {cfg : Config} (h : cfg.wf = true) (a : Addr) (data : List Byte) :
    decodeWire cfg (addrHeader cfg.opcBufwB2 a ++ data) = .ok (.wBufw2 a data) := by
  have := Config.opcodes_apart h
  simp [Config.firstBytes] at this
  simp [decodeWire, addrHeader, this]

theorem decodeWire_b2m1 {cfg : Config} (h : cfg.wf = true) (a : Addr) :
    decodeWire cfg (addrHeader cfg.opcB2mB1 a) = .ok (.wB2m1 a) := by
  have := Config.opcodes_apart h
  simp [Config.firstBytes] at this
  simp [decodeWire, addrHeader, this]

theorem decodeWire_b2m2 {cfg : Config} (h : cfg.wf = true) (a : Addr) :
    decodeWire cfg (addrHeader cfg.opcB2mB2 a) = .ok (.wB2m2 a) := by
  have := Config.opcodes_apart h
  simp [Config.firstBytes] at this
  simp [decodeWire, addrHeader, this]

theorem decodeWire_erase {cfg : Config} (h : cfg.wf = true) (a : Addr) :
    decodeWire cfg (addrHeader cfg.opcPageErase a) = .ok (.wErase a) := by
  have := Config.opcodes_apart h
  simp [Config.firstBytes] at this
  simp [decodeWire, addrHeader, this]

theorem decodeWire_udpd {cfg : Config} (h : cfg.wf = true) :
    decodeWire cfg ([cfg.opcUdpd]) = .ok .wUdpd := by
  have := Config.opcodes_apart h
  simp [Config.firstBytes] at this
  simp [decodeWire, exactly, this]

end Sys2Proof
end

