-- ==== Sys2Proof/Laws/State.lean ====
section
/-! SUPPORT. One lemma per field per update of the state, so that no proof unfolds a record update. -/

namespace Sys2Proof.Machine

/-! ### SEQ registers at reset entry -/

@[simp] theorem State.resetRegs_cfg (s : State) : (s.resetRegs).cfg = s.cfg := rfl
@[simp] theorem State.resetRegs_tgt (s : State) : (s.resetRegs).tgt = s.tgt := rfl
@[simp] theorem State.resetRegs_shifted (s : State) : (s.resetRegs).shifted = s.shifted := rfl
@[simp] theorem State.resetRegs_tgtFault (s : State) : (s.resetRegs).tgtFault = s.tgtFault := rfl
@[simp] theorem State.resetRegs_requests (s : State) : (s.resetRegs).requests = s.requests := rfl
@[simp] theorem State.resetRegs_resetIn (s : State) : (s.resetRegs).resetIn = s.resetIn := rfl
@[simp] theorem State.resetRegs_wireRx (s : State) : (s.resetRegs).wireRx = s.wireRx := rfl
@[simp] theorem State.resetRegs_seq_idCache (s : State) : (s.resetRegs).seq.idCache = 0 := rfl
@[simp] theorem State.resetRegs_seq_pwSel (s : State) : (s.resetRegs).seq.pwSel = false := rfl
@[simp] theorem State.resetRegs_seq_bwSel (s : State) : (s.resetRegs).seq.bwSel = false := rfl
@[simp] theorem State.resetRegs_seq_clkHz (s : State) : (s.resetRegs).seq.clkHz = s.seq.clkHz := rfl
@[simp] theorem State.resetRegs_seq_cs (s : State) : (s.resetRegs).seq.cs = s.seq.cs := rfl
@[simp] theorem State.resetRegs_seq_pc (s : State) : (s.resetRegs).seq.pc = .initStart := rfl
@[simp] theorem State.resetRegs_seq_trace (s : State) : (s.resetRegs).seq.trace = [] := rfl
@[simp] theorem State.resetRegs_seq_resp (s : State) : (s.resetRegs).seq.resp = none := rfl
@[simp] theorem State.resetRegs_seq_hostBuf (s : State) : (s.resetRegs).seq.hostBuf = s.seq.hostBuf := rfl

/-! ### the reset input -/

@[simp] theorem State.assertReset_cfg (s : State) : (s.assertReset).cfg = s.cfg := rfl
@[simp] theorem State.assertReset_tgt (s : State) : (s.assertReset).tgt = s.tgt := rfl
@[simp] theorem State.assertReset_shifted (s : State) : (s.assertReset).shifted = s.shifted := rfl
@[simp] theorem State.assertReset_tgtFault (s : State) : (s.assertReset).tgtFault = s.tgtFault := rfl
@[simp] theorem State.assertReset_requests (s : State) : (s.assertReset).requests = s.requests := rfl
@[simp] theorem State.assertReset_resetIn (s : State) : (s.assertReset).resetIn = none := rfl
@[simp] theorem State.assertReset_wireRx (s : State) : (s.assertReset).wireRx = s.wireRx := rfl
@[simp] theorem State.assertReset_seq_idCache (s : State) : (s.assertReset).seq.idCache = 0 := rfl
@[simp] theorem State.assertReset_seq_pwSel (s : State) : (s.assertReset).seq.pwSel = false := rfl
@[simp] theorem State.assertReset_seq_bwSel (s : State) : (s.assertReset).seq.bwSel = false := rfl
@[simp] theorem State.assertReset_seq_clkHz (s : State) : (s.assertReset).seq.clkHz = s.seq.clkHz := rfl
@[simp] theorem State.assertReset_seq_cs (s : State) : (s.assertReset).seq.cs = s.seq.cs := rfl
@[simp] theorem State.assertReset_seq_pc (s : State) : (s.assertReset).seq.pc = .initStart := rfl
@[simp] theorem State.assertReset_seq_trace (s : State) : (s.assertReset).seq.trace = [] := rfl
@[simp] theorem State.assertReset_seq_resp (s : State) : (s.assertReset).seq.resp = none := rfl
@[simp] theorem State.assertReset_seq_hostBuf (s : State) : (s.assertReset).seq.hostBuf = s.seq.hostBuf := rfl

/-! ### primitive calls counted -/

@[simp] theorem State.spend_cfg (s : State) (n : Nat) : (s.spend n).cfg = s.cfg := rfl
@[simp] theorem State.spend_tgt (s : State) (n : Nat) : (s.spend n).tgt = s.tgt := rfl
@[simp] theorem State.spend_shifted (s : State) (n : Nat) : (s.spend n).shifted = s.shifted := rfl
@[simp] theorem State.spend_tgtFault (s : State) (n : Nat) : (s.spend n).tgtFault = s.tgtFault := rfl
@[simp] theorem State.spend_requests (s : State) (n : Nat) : (s.spend n).requests = s.requests := rfl
@[simp] theorem State.spend_resetIn (s : State) (n : Nat) : (s.spend n).resetIn = s.resetIn.map (· - n) := rfl
@[simp] theorem State.spend_wireRx (s : State) (n : Nat) : (s.spend n).wireRx = s.wireRx := rfl
@[simp] theorem State.spend_seq_idCache (s : State) (n : Nat) : (s.spend n).seq.idCache = s.seq.idCache := rfl
@[simp] theorem State.spend_seq_pwSel (s : State) (n : Nat) : (s.spend n).seq.pwSel = s.seq.pwSel := rfl
@[simp] theorem State.spend_seq_bwSel (s : State) (n : Nat) : (s.spend n).seq.bwSel = s.seq.bwSel := rfl
@[simp] theorem State.spend_seq_clkHz (s : State) (n : Nat) : (s.spend n).seq.clkHz = s.seq.clkHz := rfl
@[simp] theorem State.spend_seq_cs (s : State) (n : Nat) : (s.spend n).seq.cs = s.seq.cs := rfl
@[simp] theorem State.spend_seq_pc (s : State) (n : Nat) : (s.spend n).seq.pc = s.seq.pc := rfl
@[simp] theorem State.spend_seq_trace (s : State) (n : Nat) : (s.spend n).seq.trace = s.seq.trace := rfl
@[simp] theorem State.spend_seq_resp (s : State) (n : Nat) : (s.spend n).seq.resp = s.seq.resp := rfl
@[simp] theorem State.spend_seq_hostBuf (s : State) (n : Nat) : (s.spend n).seq.hostBuf = s.seq.hostBuf := rfl

@[simp] theorem State.spend_seq (s : State) (n : Nat) : (s.spend n).seq = s.seq := rfl

/-! ### the bus trace -/

@[simp] theorem State.log_cfg (s : State) (e : BusEvent) : (s.log e).cfg = s.cfg := rfl
@[simp] theorem State.log_tgt (s : State) (e : BusEvent) : (s.log e).tgt = s.tgt := rfl
@[simp] theorem State.log_shifted (s : State) (e : BusEvent) : (s.log e).shifted = s.shifted := rfl
@[simp] theorem State.log_tgtFault (s : State) (e : BusEvent) : (s.log e).tgtFault = s.tgtFault := rfl
@[simp] theorem State.log_requests (s : State) (e : BusEvent) : (s.log e).requests = s.requests := rfl
@[simp] theorem State.log_resetIn (s : State) (e : BusEvent) : (s.log e).resetIn = s.resetIn := rfl
@[simp] theorem State.log_wireRx (s : State) (e : BusEvent) : (s.log e).wireRx = s.wireRx := rfl
@[simp] theorem State.log_seq_idCache (s : State) (e : BusEvent) : (s.log e).seq.idCache = s.seq.idCache := rfl
@[simp] theorem State.log_seq_pwSel (s : State) (e : BusEvent) : (s.log e).seq.pwSel = s.seq.pwSel := rfl
@[simp] theorem State.log_seq_bwSel (s : State) (e : BusEvent) : (s.log e).seq.bwSel = s.seq.bwSel := rfl
@[simp] theorem State.log_seq_clkHz (s : State) (e : BusEvent) : (s.log e).seq.clkHz = s.seq.clkHz := rfl
@[simp] theorem State.log_seq_cs (s : State) (e : BusEvent) : (s.log e).seq.cs = s.seq.cs := rfl
@[simp] theorem State.log_seq_pc (s : State) (e : BusEvent) : (s.log e).seq.pc = s.seq.pc := rfl
@[simp] theorem State.log_seq_trace (s : State) (e : BusEvent) : (s.log e).seq.trace = s.seq.trace ++ [e] := rfl
@[simp] theorem State.log_seq_resp (s : State) (e : BusEvent) : (s.log e).seq.resp = s.seq.resp := rfl
@[simp] theorem State.log_seq_hostBuf (s : State) (e : BusEvent) : (s.log e).seq.hostBuf = s.seq.hostBuf := rfl

/-! ### CsAssert -/

@[simp] theorem State.csAssert_cfg (s : State) : (s.csAssert).cfg = s.cfg := rfl
@[simp] theorem State.csAssert_tgt (s : State) : (s.csAssert).tgt = if s.reaches then s.tgt.tick s.cfg else s.tgt := rfl
@[simp] theorem State.csAssert_shifted (s : State) : (s.csAssert).shifted = [] := rfl
@[simp] theorem State.csAssert_tgtFault (s : State) : (s.csAssert).tgtFault = s.tgtFault := rfl
@[simp] theorem State.csAssert_requests (s : State) : (s.csAssert).requests = s.requests := rfl
@[simp] theorem State.csAssert_resetIn (s : State) : (s.csAssert).resetIn = s.resetIn := rfl
@[simp] theorem State.csAssert_wireRx (s : State) : (s.csAssert).wireRx = s.wireRx := rfl
@[simp] theorem State.csAssert_seq_idCache (s : State) : (s.csAssert).seq.idCache = s.seq.idCache := rfl
@[simp] theorem State.csAssert_seq_pwSel (s : State) : (s.csAssert).seq.pwSel = s.seq.pwSel := rfl
@[simp] theorem State.csAssert_seq_bwSel (s : State) : (s.csAssert).seq.bwSel = s.seq.bwSel := rfl
@[simp] theorem State.csAssert_seq_clkHz (s : State) : (s.csAssert).seq.clkHz = s.seq.clkHz := rfl
@[simp] theorem State.csAssert_seq_cs (s : State) : (s.csAssert).seq.cs = false := rfl
@[simp] theorem State.csAssert_seq_pc (s : State) : (s.csAssert).seq.pc = s.seq.pc := rfl
@[simp] theorem State.csAssert_seq_trace (s : State) : (s.csAssert).seq.trace = s.seq.trace ++ [.cs0] := rfl
@[simp] theorem State.csAssert_seq_resp (s : State) : (s.csAssert).seq.resp = s.seq.resp := rfl
@[simp] theorem State.csAssert_seq_hostBuf (s : State) : (s.csAssert).seq.hostBuf = s.seq.hostBuf := rfl

/-! ### CsDeassert -/

@[simp] theorem State.csDeassert_cfg (s : State) : (s.csDeassert).cfg = s.cfg := rfl
@[simp] theorem State.csDeassert_shifted (s : State) : (s.csDeassert).shifted = [] := rfl
@[simp] theorem State.csDeassert_requests (s : State) : (s.csDeassert).requests = s.requests := rfl
@[simp] theorem State.csDeassert_resetIn (s : State) : (s.csDeassert).resetIn = s.resetIn := rfl
@[simp] theorem State.csDeassert_wireRx (s : State) : (s.csDeassert).wireRx = s.wireRx := rfl
@[simp] theorem State.csDeassert_seq_idCache (s : State) : (s.csDeassert).seq.idCache = s.seq.idCache := rfl
@[simp] theorem State.csDeassert_seq_pwSel (s : State) : (s.csDeassert).seq.pwSel = s.seq.pwSel := rfl
@[simp] theorem State.csDeassert_seq_bwSel (s : State) : (s.csDeassert).seq.bwSel = s.seq.bwSel := rfl
@[simp] theorem State.csDeassert_seq_clkHz (s : State) : (s.csDeassert).seq.clkHz = s.seq.clkHz := rfl
@[simp] theorem State.csDeassert_seq_cs (s : State) : (s.csDeassert).seq.cs = true := rfl
@[simp] theorem State.csDeassert_seq_pc (s : State) : (s.csDeassert).seq.pc = s.seq.pc := rfl
@[simp] theorem State.csDeassert_seq_trace (s : State) : (s.csDeassert).seq.trace = s.seq.trace ++ [.cs1] := rfl
@[simp] theorem State.csDeassert_seq_resp (s : State) : (s.csDeassert).seq.resp = s.seq.resp := rfl
@[simp] theorem State.csDeassert_seq_hostBuf (s : State) : (s.csDeassert).seq.hostBuf = s.seq.hostBuf := rfl

/-! ### Delay -/

@[simp] theorem State.delay_cfg (s : State) (ns : Nat) : (s.delay ns).cfg = s.cfg := rfl
@[simp] theorem State.delay_tgt (s : State) (ns : Nat) : (s.delay ns).tgt = s.tgt := rfl
@[simp] theorem State.delay_shifted (s : State) (ns : Nat) : (s.delay ns).shifted = s.shifted := rfl
@[simp] theorem State.delay_tgtFault (s : State) (ns : Nat) : (s.delay ns).tgtFault = s.tgtFault := rfl
@[simp] theorem State.delay_requests (s : State) (ns : Nat) : (s.delay ns).requests = s.requests := rfl
@[simp] theorem State.delay_resetIn (s : State) (ns : Nat) : (s.delay ns).resetIn = s.resetIn := rfl
@[simp] theorem State.delay_wireRx (s : State) (ns : Nat) : (s.delay ns).wireRx = s.wireRx := rfl
@[simp] theorem State.delay_seq_idCache (s : State) (ns : Nat) : (s.delay ns).seq.idCache = s.seq.idCache := rfl
@[simp] theorem State.delay_seq_pwSel (s : State) (ns : Nat) : (s.delay ns).seq.pwSel = s.seq.pwSel := rfl
@[simp] theorem State.delay_seq_bwSel (s : State) (ns : Nat) : (s.delay ns).seq.bwSel = s.seq.bwSel := rfl
@[simp] theorem State.delay_seq_clkHz (s : State) (ns : Nat) : (s.delay ns).seq.clkHz = s.seq.clkHz := rfl
@[simp] theorem State.delay_seq_cs (s : State) (ns : Nat) : (s.delay ns).seq.cs = s.seq.cs := rfl
@[simp] theorem State.delay_seq_pc (s : State) (ns : Nat) : (s.delay ns).seq.pc = s.seq.pc := rfl
@[simp] theorem State.delay_seq_trace (s : State) (ns : Nat) : (s.delay ns).seq.trace = s.seq.trace ++ [.dly ns] := rfl
@[simp] theorem State.delay_seq_resp (s : State) (ns : Nat) : (s.delay ns).seq.resp = s.seq.resp := rfl
@[simp] theorem State.delay_seq_hostBuf (s : State) (ns : Nat) : (s.delay ns).seq.hostBuf = s.seq.hostBuf := rfl

/-! ### SetClock -/

@[simp] theorem State.setClock_cfg (s : State) (hz : Nat) : (s.setClock hz).cfg = s.cfg := rfl
@[simp] theorem State.setClock_tgt (s : State) (hz : Nat) : (s.setClock hz).tgt = s.tgt := rfl
@[simp] theorem State.setClock_shifted (s : State) (hz : Nat) : (s.setClock hz).shifted = s.shifted := rfl
@[simp] theorem State.setClock_tgtFault (s : State) (hz : Nat) : (s.setClock hz).tgtFault = s.tgtFault := rfl
@[simp] theorem State.setClock_requests (s : State) (hz : Nat) : (s.setClock hz).requests = s.requests := rfl
@[simp] theorem State.setClock_resetIn (s : State) (hz : Nat) : (s.setClock hz).resetIn = s.resetIn := rfl
@[simp] theorem State.setClock_wireRx (s : State) (hz : Nat) : (s.setClock hz).wireRx = s.wireRx := rfl
@[simp] theorem State.setClock_seq_idCache (s : State) (hz : Nat) : (s.setClock hz).seq.idCache = s.seq.idCache := rfl
@[simp] theorem State.setClock_seq_pwSel (s : State) (hz : Nat) : (s.setClock hz).seq.pwSel = s.seq.pwSel := rfl
@[simp] theorem State.setClock_seq_bwSel (s : State) (hz : Nat) : (s.setClock hz).seq.bwSel = s.seq.bwSel := rfl
@[simp] theorem State.setClock_seq_clkHz (s : State) (hz : Nat) : (s.setClock hz).seq.clkHz = hz := rfl
@[simp] theorem State.setClock_seq_cs (s : State) (hz : Nat) : (s.setClock hz).seq.cs = s.seq.cs := rfl
@[simp] theorem State.setClock_seq_pc (s : State) (hz : Nat) : (s.setClock hz).seq.pc = s.seq.pc := rfl
@[simp] theorem State.setClock_seq_trace (s : State) (hz : Nat) : (s.setClock hz).seq.trace = s.seq.trace ++ [.clk hz] := rfl
@[simp] theorem State.setClock_seq_resp (s : State) (hz : Nat) : (s.setClock hz).seq.resp = s.seq.resp := rfl
@[simp] theorem State.setClock_seq_hostBuf (s : State) (hz : Nat) : (s.setClock hz).seq.hostBuf = s.seq.hostBuf := rfl

/-! ### a piece begun -/

@[simp] theorem State.begin_cfg (s : State) (g : Stage) (cs : List Call) : (s.begin g cs).cfg = s.cfg := rfl
@[simp] theorem State.begin_tgt (s : State) (g : Stage) (cs : List Call) : (s.begin g cs).tgt = s.tgt := rfl
@[simp] theorem State.begin_shifted (s : State) (g : Stage) (cs : List Call) : (s.begin g cs).shifted = s.shifted := rfl
@[simp] theorem State.begin_tgtFault (s : State) (g : Stage) (cs : List Call) : (s.begin g cs).tgtFault = s.tgtFault := rfl
@[simp] theorem State.begin_requests (s : State) (g : Stage) (cs : List Call) : (s.begin g cs).requests = s.requests := rfl
@[simp] theorem State.begin_resetIn (s : State) (g : Stage) (cs : List Call) : (s.begin g cs).resetIn = s.resetIn := rfl
@[simp] theorem State.begin_wireRx (s : State) (g : Stage) (cs : List Call) : (s.begin g cs).wireRx = s.wireRx := rfl
@[simp] theorem State.begin_seq_idCache (s : State) (g : Stage) (cs : List Call) : (s.begin g cs).seq.idCache = s.seq.idCache := rfl
@[simp] theorem State.begin_seq_pwSel (s : State) (g : Stage) (cs : List Call) : (s.begin g cs).seq.pwSel = s.seq.pwSel := rfl
@[simp] theorem State.begin_seq_bwSel (s : State) (g : Stage) (cs : List Call) : (s.begin g cs).seq.bwSel = s.seq.bwSel := rfl
@[simp] theorem State.begin_seq_clkHz (s : State) (g : Stage) (cs : List Call) : (s.begin g cs).seq.clkHz = s.seq.clkHz := rfl
@[simp] theorem State.begin_seq_cs (s : State) (g : Stage) (cs : List Call) : (s.begin g cs).seq.cs = s.seq.cs := rfl
@[simp] theorem State.begin_seq_pc (s : State) (g : Stage) (cs : List Call) : (s.begin g cs).seq.pc = .running g cs [] := rfl
@[simp] theorem State.begin_seq_trace (s : State) (g : Stage) (cs : List Call) : (s.begin g cs).seq.trace = s.seq.trace := rfl
@[simp] theorem State.begin_seq_resp (s : State) (g : Stage) (cs : List Call) : (s.begin g cs).seq.resp = none := rfl
@[simp] theorem State.begin_seq_hostBuf (s : State) (g : Stage) (cs : List Call) : (s.begin g cs).seq.hostBuf = s.seq.hostBuf := rfl

/-! ### return -/

@[simp] theorem State.respond_cfg (s : State) (v : BitVec 32) : (s.respond v).cfg = s.cfg := rfl
@[simp] theorem State.respond_tgt (s : State) (v : BitVec 32) : (s.respond v).tgt = s.tgt := rfl
@[simp] theorem State.respond_shifted (s : State) (v : BitVec 32) : (s.respond v).shifted = s.shifted := rfl
@[simp] theorem State.respond_tgtFault (s : State) (v : BitVec 32) : (s.respond v).tgtFault = s.tgtFault := rfl
@[simp] theorem State.respond_requests (s : State) (v : BitVec 32) : (s.respond v).requests = s.requests := rfl
@[simp] theorem State.respond_resetIn (s : State) (v : BitVec 32) : (s.respond v).resetIn = s.resetIn := rfl
@[simp] theorem State.respond_wireRx (s : State) (v : BitVec 32) : (s.respond v).wireRx = s.wireRx := rfl
@[simp] theorem State.respond_seq_idCache (s : State) (v : BitVec 32) : (s.respond v).seq.idCache = s.seq.idCache := rfl
@[simp] theorem State.respond_seq_pwSel (s : State) (v : BitVec 32) : (s.respond v).seq.pwSel = s.seq.pwSel := rfl
@[simp] theorem State.respond_seq_bwSel (s : State) (v : BitVec 32) : (s.respond v).seq.bwSel = s.seq.bwSel := rfl
@[simp] theorem State.respond_seq_clkHz (s : State) (v : BitVec 32) : (s.respond v).seq.clkHz = s.seq.clkHz := rfl
@[simp] theorem State.respond_seq_cs (s : State) (v : BitVec 32) : (s.respond v).seq.cs = s.seq.cs := rfl
@[simp] theorem State.respond_seq_pc (s : State) (v : BitVec 32) : (s.respond v).seq.pc = .idle := rfl
@[simp] theorem State.respond_seq_trace (s : State) (v : BitVec 32) : (s.respond v).seq.trace = s.seq.trace := rfl
@[simp] theorem State.respond_seq_resp (s : State) (v : BitVec 32) : (s.respond v).seq.resp = some ⟨true, v⟩ := rfl
@[simp] theorem State.respond_seq_hostBuf (s : State) (v : BitVec 32) : (s.respond v).seq.hostBuf = s.seq.hostBuf := rfl

/-! ### the soft error -/

@[simp] theorem State.softError_cfg (s : State) : (s.softError).cfg = s.cfg := rfl
@[simp] theorem State.softError_tgt (s : State) : (s.softError).tgt = s.tgt := rfl
@[simp] theorem State.softError_shifted (s : State) : (s.softError).shifted = s.shifted := rfl
@[simp] theorem State.softError_tgtFault (s : State) : (s.softError).tgtFault = s.tgtFault := rfl
@[simp] theorem State.softError_requests (s : State) : (s.softError).requests = s.requests := rfl
@[simp] theorem State.softError_resetIn (s : State) : (s.softError).resetIn = s.resetIn := rfl
@[simp] theorem State.softError_wireRx (s : State) : (s.softError).wireRx = s.wireRx := rfl
@[simp] theorem State.softError_seq_idCache (s : State) : (s.softError).seq.idCache = 0 := rfl
@[simp] theorem State.softError_seq_pwSel (s : State) : (s.softError).seq.pwSel = s.seq.pwSel := rfl
@[simp] theorem State.softError_seq_bwSel (s : State) : (s.softError).seq.bwSel = s.seq.bwSel := rfl
@[simp] theorem State.softError_seq_clkHz (s : State) : (s.softError).seq.clkHz = s.seq.clkHz := rfl
@[simp] theorem State.softError_seq_cs (s : State) : (s.softError).seq.cs = s.seq.cs := rfl
@[simp] theorem State.softError_seq_pc (s : State) : (s.softError).seq.pc = s.seq.pc := rfl
@[simp] theorem State.softError_seq_trace (s : State) : (s.softError).seq.trace = s.seq.trace := rfl
@[simp] theorem State.softError_seq_resp (s : State) : (s.softError).seq.resp = s.seq.resp := rfl
@[simp] theorem State.softError_seq_hostBuf (s : State) : (s.softError).seq.hostBuf = s.seq.hostBuf := rfl

/-! ### GETID -/

@[simp] theorem State.cacheId_cfg (s : State) (id : Ident) : (s.cacheId id).cfg = s.cfg := rfl
@[simp] theorem State.cacheId_tgt (s : State) (id : Ident) : (s.cacheId id).tgt = s.tgt := rfl
@[simp] theorem State.cacheId_shifted (s : State) (id : Ident) : (s.cacheId id).shifted = s.shifted := rfl
@[simp] theorem State.cacheId_tgtFault (s : State) (id : Ident) : (s.cacheId id).tgtFault = s.tgtFault := rfl
@[simp] theorem State.cacheId_requests (s : State) (id : Ident) : (s.cacheId id).requests = s.requests := rfl
@[simp] theorem State.cacheId_resetIn (s : State) (id : Ident) : (s.cacheId id).resetIn = s.resetIn := rfl
@[simp] theorem State.cacheId_wireRx (s : State) (id : Ident) : (s.cacheId id).wireRx = s.wireRx := rfl
@[simp] theorem State.cacheId_seq_idCache (s : State) (id : Ident) : (s.cacheId id).seq.idCache = id := rfl
@[simp] theorem State.cacheId_seq_pwSel (s : State) (id : Ident) : (s.cacheId id).seq.pwSel = s.seq.pwSel := rfl
@[simp] theorem State.cacheId_seq_bwSel (s : State) (id : Ident) : (s.cacheId id).seq.bwSel = s.seq.bwSel := rfl
@[simp] theorem State.cacheId_seq_clkHz (s : State) (id : Ident) : (s.cacheId id).seq.clkHz = s.seq.clkHz := rfl
@[simp] theorem State.cacheId_seq_cs (s : State) (id : Ident) : (s.cacheId id).seq.cs = s.seq.cs := rfl
@[simp] theorem State.cacheId_seq_pc (s : State) (id : Ident) : (s.cacheId id).seq.pc = s.seq.pc := rfl
@[simp] theorem State.cacheId_seq_trace (s : State) (id : Ident) : (s.cacheId id).seq.trace = s.seq.trace := rfl
@[simp] theorem State.cacheId_seq_resp (s : State) (id : Ident) : (s.cacheId id).seq.resp = s.seq.resp := rfl
@[simp] theorem State.cacheId_seq_hostBuf (s : State) (id : Ident) : (s.cacheId id).seq.hostBuf = s.seq.hostBuf := rfl

/-! ### the wake -/

@[simp] theorem State.settle_cfg (s : State) : (s.settle).cfg = s.cfg := rfl
@[simp] theorem State.settle_tgt (s : State) : (s.settle).tgt = if s.reaches then s.tgt.settle else s.tgt := rfl
@[simp] theorem State.settle_shifted (s : State) : (s.settle).shifted = s.shifted := rfl
@[simp] theorem State.settle_tgtFault (s : State) : (s.settle).tgtFault = s.tgtFault := rfl
@[simp] theorem State.settle_requests (s : State) : (s.settle).requests = s.requests := rfl
@[simp] theorem State.settle_resetIn (s : State) : (s.settle).resetIn = s.resetIn := rfl
@[simp] theorem State.settle_wireRx (s : State) : (s.settle).wireRx = s.wireRx := rfl
@[simp] theorem State.settle_seq_idCache (s : State) : (s.settle).seq.idCache = s.seq.idCache := rfl
@[simp] theorem State.settle_seq_pwSel (s : State) : (s.settle).seq.pwSel = s.seq.pwSel := rfl
@[simp] theorem State.settle_seq_bwSel (s : State) : (s.settle).seq.bwSel = s.seq.bwSel := rfl
@[simp] theorem State.settle_seq_clkHz (s : State) : (s.settle).seq.clkHz = s.seq.clkHz := rfl
@[simp] theorem State.settle_seq_cs (s : State) : (s.settle).seq.cs = s.seq.cs := rfl
@[simp] theorem State.settle_seq_pc (s : State) : (s.settle).seq.pc = s.seq.pc := rfl
@[simp] theorem State.settle_seq_trace (s : State) : (s.settle).seq.trace = s.seq.trace := rfl
@[simp] theorem State.settle_seq_resp (s : State) : (s.settle).seq.resp = s.seq.resp := rfl
@[simp] theorem State.settle_seq_hostBuf (s : State) : (s.settle).seq.hostBuf = s.seq.hostBuf := rfl

/-! ### the rotation flags -/

@[simp] theorem State.turnPwSel_cfg (s : State) : (s.turnPwSel).cfg = s.cfg := rfl
@[simp] theorem State.turnPwSel_tgt (s : State) : (s.turnPwSel).tgt = s.tgt := rfl
@[simp] theorem State.turnPwSel_shifted (s : State) : (s.turnPwSel).shifted = s.shifted := rfl
@[simp] theorem State.turnPwSel_tgtFault (s : State) : (s.turnPwSel).tgtFault = s.tgtFault := rfl
@[simp] theorem State.turnPwSel_requests (s : State) : (s.turnPwSel).requests = s.requests := rfl
@[simp] theorem State.turnPwSel_resetIn (s : State) : (s.turnPwSel).resetIn = s.resetIn := rfl
@[simp] theorem State.turnPwSel_wireRx (s : State) : (s.turnPwSel).wireRx = s.wireRx := rfl
@[simp] theorem State.turnPwSel_seq_idCache (s : State) : (s.turnPwSel).seq.idCache = s.seq.idCache := rfl
@[simp] theorem State.turnPwSel_seq_pwSel (s : State) : (s.turnPwSel).seq.pwSel = !s.seq.pwSel := rfl
@[simp] theorem State.turnPwSel_seq_bwSel (s : State) : (s.turnPwSel).seq.bwSel = s.seq.bwSel := rfl
@[simp] theorem State.turnPwSel_seq_clkHz (s : State) : (s.turnPwSel).seq.clkHz = s.seq.clkHz := rfl
@[simp] theorem State.turnPwSel_seq_cs (s : State) : (s.turnPwSel).seq.cs = s.seq.cs := rfl
@[simp] theorem State.turnPwSel_seq_pc (s : State) : (s.turnPwSel).seq.pc = s.seq.pc := rfl
@[simp] theorem State.turnPwSel_seq_trace (s : State) : (s.turnPwSel).seq.trace = s.seq.trace := rfl
@[simp] theorem State.turnPwSel_seq_resp (s : State) : (s.turnPwSel).seq.resp = s.seq.resp := rfl
@[simp] theorem State.turnPwSel_seq_hostBuf (s : State) : (s.turnPwSel).seq.hostBuf = s.seq.hostBuf := rfl

@[simp] theorem State.turnBwSel_cfg (s : State) : (s.turnBwSel).cfg = s.cfg := rfl
@[simp] theorem State.turnBwSel_tgt (s : State) : (s.turnBwSel).tgt = s.tgt := rfl
@[simp] theorem State.turnBwSel_shifted (s : State) : (s.turnBwSel).shifted = s.shifted := rfl
@[simp] theorem State.turnBwSel_tgtFault (s : State) : (s.turnBwSel).tgtFault = s.tgtFault := rfl
@[simp] theorem State.turnBwSel_requests (s : State) : (s.turnBwSel).requests = s.requests := rfl
@[simp] theorem State.turnBwSel_resetIn (s : State) : (s.turnBwSel).resetIn = s.resetIn := rfl
@[simp] theorem State.turnBwSel_wireRx (s : State) : (s.turnBwSel).wireRx = s.wireRx := rfl
@[simp] theorem State.turnBwSel_seq_idCache (s : State) : (s.turnBwSel).seq.idCache = s.seq.idCache := rfl
@[simp] theorem State.turnBwSel_seq_pwSel (s : State) : (s.turnBwSel).seq.pwSel = s.seq.pwSel := rfl
@[simp] theorem State.turnBwSel_seq_bwSel (s : State) : (s.turnBwSel).seq.bwSel = !s.seq.bwSel := rfl
@[simp] theorem State.turnBwSel_seq_clkHz (s : State) : (s.turnBwSel).seq.clkHz = s.seq.clkHz := rfl
@[simp] theorem State.turnBwSel_seq_cs (s : State) : (s.turnBwSel).seq.cs = s.seq.cs := rfl
@[simp] theorem State.turnBwSel_seq_pc (s : State) : (s.turnBwSel).seq.pc = s.seq.pc := rfl
@[simp] theorem State.turnBwSel_seq_trace (s : State) : (s.turnBwSel).seq.trace = s.seq.trace := rfl
@[simp] theorem State.turnBwSel_seq_resp (s : State) : (s.turnBwSel).seq.resp = s.seq.resp := rfl
@[simp] theorem State.turnBwSel_seq_hostBuf (s : State) : (s.turnBwSel).seq.hostBuf = s.seq.hostBuf := rfl

/-! ### an operation served -/

@[simp] theorem State.served_cfg (s : State) (es : List BusEvent) (v : BitVec 32) (t : Tgt) : (s.served es v t).cfg = s.cfg := rfl
@[simp] theorem State.served_tgt (s : State) (es : List BusEvent) (v : BitVec 32) (t : Tgt) : (s.served es v t).tgt = t := rfl
@[simp] theorem State.served_shifted (s : State) (es : List BusEvent) (v : BitVec 32) (t : Tgt) : (s.served es v t).shifted = [] := rfl
@[simp] theorem State.served_tgtFault (s : State) (es : List BusEvent) (v : BitVec 32) (t : Tgt) : (s.served es v t).tgtFault = s.tgtFault := rfl
@[simp] theorem State.served_requests (s : State) (es : List BusEvent) (v : BitVec 32) (t : Tgt) : (s.served es v t).requests = s.requests := rfl
@[simp] theorem State.served_resetIn (s : State) (es : List BusEvent) (v : BitVec 32) (t : Tgt) : (s.served es v t).resetIn = s.resetIn := rfl
@[simp] theorem State.served_wireRx (s : State) (es : List BusEvent) (v : BitVec 32) (t : Tgt) : (s.served es v t).wireRx = s.wireRx := rfl
@[simp] theorem State.served_seq_idCache (s : State) (es : List BusEvent) (v : BitVec 32) (t : Tgt) : (s.served es v t).seq.idCache = s.seq.idCache := rfl
@[simp] theorem State.served_seq_pwSel (s : State) (es : List BusEvent) (v : BitVec 32) (t : Tgt) : (s.served es v t).seq.pwSel = s.seq.pwSel := rfl
@[simp] theorem State.served_seq_bwSel (s : State) (es : List BusEvent) (v : BitVec 32) (t : Tgt) : (s.served es v t).seq.bwSel = s.seq.bwSel := rfl
@[simp] theorem State.served_seq_clkHz (s : State) (es : List BusEvent) (v : BitVec 32) (t : Tgt) : (s.served es v t).seq.clkHz = s.seq.clkHz := rfl
@[simp] theorem State.served_seq_cs (s : State) (es : List BusEvent) (v : BitVec 32) (t : Tgt) : (s.served es v t).seq.cs = true := rfl
@[simp] theorem State.served_seq_pc (s : State) (es : List BusEvent) (v : BitVec 32) (t : Tgt) : (s.served es v t).seq.pc = .idle := rfl
@[simp] theorem State.served_seq_trace (s : State) (es : List BusEvent) (v : BitVec 32) (t : Tgt) : (s.served es v t).seq.trace = s.seq.trace ++ es := rfl
@[simp] theorem State.served_seq_resp (s : State) (es : List BusEvent) (v : BitVec 32) (t : Tgt) : (s.served es v t).seq.resp = some ⟨true, v⟩ := rfl
@[simp] theorem State.served_seq_hostBuf (s : State) (es : List BusEvent) (v : BitVec 32) (t : Tgt) : (s.served es v t).seq.hostBuf = s.seq.hostBuf := rfl

/-! ### a packet offered and taken -/

@[simp] theorem State.offer_cfg (s : State) (p : Packet) : (s.offer p).cfg = s.cfg := rfl
@[simp] theorem State.offer_tgt (s : State) (p : Packet) : (s.offer p).tgt = s.tgt := rfl
@[simp] theorem State.offer_shifted (s : State) (p : Packet) : (s.offer p).shifted = [] := rfl
@[simp] theorem State.offer_tgtFault (s : State) (p : Packet) : (s.offer p).tgtFault = none := rfl
@[simp] theorem State.offer_requests (s : State) (p : Packet) : (s.offer p).requests = p :: s.requests := rfl
@[simp] theorem State.offer_resetIn (s : State) (p : Packet) : (s.offer p).resetIn = none := rfl
@[simp] theorem State.offer_wireRx (s : State) (p : Packet) : (s.offer p).wireRx = s.wireRx := rfl
@[simp] theorem State.offer_seq_pc (s : State) (p : Packet) : (s.offer p).seq.pc = .idle := rfl
@[simp] theorem State.offer_seq_cs (s : State) (p : Packet) : (s.offer p).seq.cs = true := rfl
@[simp] theorem State.takePacket_cfg (s : State) (p : Packet) (rest : List Packet) : (s.takePacket p rest).cfg = s.cfg := by cases p <;> rfl
@[simp] theorem State.takePacket_tgt (s : State) (p : Packet) (rest : List Packet) : (s.takePacket p rest).tgt = s.tgt := by cases p <;> rfl
@[simp] theorem State.takePacket_shifted (s : State) (p : Packet) (rest : List Packet) : (s.takePacket p rest).shifted = s.shifted := by cases p <;> rfl
@[simp] theorem State.takePacket_tgtFault (s : State) (p : Packet) (rest : List Packet) : (s.takePacket p rest).tgtFault = s.tgtFault := by cases p <;> rfl
@[simp] theorem State.takePacket_requests (s : State) (p : Packet) (rest : List Packet) : (s.takePacket p rest).requests = rest := by cases p <;> rfl
@[simp] theorem State.takePacket_resetIn (s : State) (p : Packet) (rest : List Packet) : (s.takePacket p rest).resetIn = s.resetIn := by cases p <;> rfl
@[simp] theorem State.takePacket_wireRx (s : State) (p : Packet) (rest : List Packet) : (s.takePacket p rest).wireRx = s.wireRx := by cases p <;> rfl
@[simp] theorem State.takePacket_seq_idCache (s : State) (p : Packet) (rest : List Packet) : (s.takePacket p rest).seq.idCache = s.seq.idCache := by cases p <;> rfl
@[simp] theorem State.takePacket_seq_pwSel (s : State) (p : Packet) (rest : List Packet) : (s.takePacket p rest).seq.pwSel = s.seq.pwSel := by cases p <;> rfl
@[simp] theorem State.takePacket_seq_bwSel (s : State) (p : Packet) (rest : List Packet) : (s.takePacket p rest).seq.bwSel = s.seq.bwSel := by cases p <;> rfl
@[simp] theorem State.takePacket_seq_clkHz (s : State) (p : Packet) (rest : List Packet) : (s.takePacket p rest).seq.clkHz = s.seq.clkHz := by cases p <;> rfl
@[simp] theorem State.takePacket_seq_cs (s : State) (p : Packet) (rest : List Packet) : (s.takePacket p rest).seq.cs = s.seq.cs := by cases p <;> rfl
@[simp] theorem State.takePacket_seq_pc (s : State) (p : Packet) (rest : List Packet) : (s.takePacket p rest).seq.pc = s.seq.pc := by cases p <;> rfl
@[simp] theorem State.takePacket_seq_trace (s : State) (p : Packet) (rest : List Packet) : (s.takePacket p rest).seq.trace = s.seq.trace := by cases p <;> rfl

/-! ### the target -/

@[simp] theorem Tgt.forgetPage_mode (t : Tgt) (p : Nat) : (t.forgetPage p).mode = t.mode := rfl
@[simp] theorem Tgt.forgetPage_pending (t : Tgt) (p : Nat) : (t.forgetPage p).pending = t.pending := rfl
@[simp] theorem Tgt.forgetPage_main (t : Tgt) (p : Nat) : (t.forgetPage p).main = t.main.forget (pageBase p) Config.pageSize := rfl
@[simp] theorem Tgt.forgetPage_buf1 (t : Tgt) (p : Nat) : (t.forgetPage p).buf1 = t.buf1 := rfl
@[simp] theorem Tgt.forgetPage_buf2 (t : Tgt) (p : Nat) : (t.forgetPage p).buf2 = t.buf2 := rfl
@[simp] theorem Tgt.forgetPage_nvBinary (t : Tgt) (p : Nat) : (t.forgetPage p).nvBinary = t.nvBinary := rfl
@[simp] theorem Tgt.forgetPage_epe (t : Tgt) (p : Nat) : (t.forgetPage p).epe = t.epe := rfl
@[simp] theorem Tgt.forgetPage_devId (t : Tgt) (p : Nat) : (t.forgetPage p).devId = t.devId := rfl
@[simp] theorem Tgt.forgetPage_density (t : Tgt) (p : Nat) : (t.forgetPage p).density = t.density := rfl
@[simp] theorem Tgt.forgetPage_nvCycles (t : Tgt) (p : Nat) : (t.forgetPage p).nvCycles = t.nvCycles := rfl
@[simp] theorem Tgt.forgetPage_fate (t : Tgt) (p : Nat) : (t.forgetPage p).fate = t.fate := rfl
@[simp] theorem Tgt.forgetPage_free (t : Tgt) (p : Nat) : (t.forgetPage p).free = t.free := rfl
@[simp] theorem Tgt.startBusy_mode (t : Tgt) (w : Work) : (t.startBusy w).mode = .busy := rfl
@[simp] theorem Tgt.startBusy_pending (t : Tgt) (w : Work) : (t.startBusy w).pending = some w := rfl
@[simp] theorem Tgt.startBusy_main (t : Tgt) (w : Work) : (t.startBusy w).main = t.main := rfl
@[simp] theorem Tgt.startBusy_buf1 (t : Tgt) (w : Work) : (t.startBusy w).buf1 = t.buf1 := rfl
@[simp] theorem Tgt.startBusy_buf2 (t : Tgt) (w : Work) : (t.startBusy w).buf2 = t.buf2 := rfl
@[simp] theorem Tgt.startBusy_nvBinary (t : Tgt) (w : Work) : (t.startBusy w).nvBinary = t.nvBinary := rfl
@[simp] theorem Tgt.startBusy_epe (t : Tgt) (w : Work) : (t.startBusy w).epe = t.epe := rfl
@[simp] theorem Tgt.startBusy_devId (t : Tgt) (w : Work) : (t.startBusy w).devId = t.devId := rfl
@[simp] theorem Tgt.startBusy_density (t : Tgt) (w : Work) : (t.startBusy w).density = t.density := rfl
@[simp] theorem Tgt.startBusy_nvCycles (t : Tgt) (w : Work) : (t.startBusy w).nvCycles = t.nvCycles := rfl
@[simp] theorem Tgt.startBusy_fate (t : Tgt) (w : Work) : (t.startBusy w).fate = t.free.nextFate.1 := rfl
@[simp] theorem Tgt.startBusy_free (t : Tgt) (w : Work) : (t.startBusy w).free = t.free.nextFate.2 := rfl
@[simp] theorem Tgt.drawn_mode (t : Tgt) : (t.drawn).mode = t.mode := rfl
@[simp] theorem Tgt.drawn_pending (t : Tgt) : (t.drawn).pending = t.pending := rfl
@[simp] theorem Tgt.drawn_main (t : Tgt) : (t.drawn).main = t.main := rfl
@[simp] theorem Tgt.drawn_buf1 (t : Tgt) : (t.drawn).buf1 = t.buf1 := rfl
@[simp] theorem Tgt.drawn_buf2 (t : Tgt) : (t.drawn).buf2 = t.buf2 := rfl
@[simp] theorem Tgt.drawn_nvBinary (t : Tgt) : (t.drawn).nvBinary = t.nvBinary := rfl
@[simp] theorem Tgt.drawn_epe (t : Tgt) : (t.drawn).epe = t.epe := rfl
@[simp] theorem Tgt.drawn_devId (t : Tgt) : (t.drawn).devId = t.devId := rfl
@[simp] theorem Tgt.drawn_density (t : Tgt) : (t.drawn).density = t.density := rfl
@[simp] theorem Tgt.drawn_nvCycles (t : Tgt) : (t.drawn).nvCycles = t.nvCycles := rfl
@[simp] theorem Tgt.drawn_fate (t : Tgt) : (t.drawn).fate = t.fate := rfl
@[simp] theorem Tgt.drawn_free (t : Tgt) : (t.drawn).free = t.free.nextByte.2 := rfl
@[simp] theorem Tgt.wakeUp_mode (t : Tgt) : (t.wakeUp).mode = .idle := rfl
@[simp] theorem Tgt.wakeUp_pending (t : Tgt) : (t.wakeUp).pending = t.pending := rfl
@[simp] theorem Tgt.wakeUp_main (t : Tgt) : (t.wakeUp).main = t.main := rfl
@[simp] theorem Tgt.wakeUp_buf1 (t : Tgt) : (t.wakeUp).buf1 = [] := rfl
@[simp] theorem Tgt.wakeUp_buf2 (t : Tgt) : (t.wakeUp).buf2 = [] := rfl
@[simp] theorem Tgt.wakeUp_nvBinary (t : Tgt) : (t.wakeUp).nvBinary = t.nvBinary := rfl
@[simp] theorem Tgt.wakeUp_epe (t : Tgt) : (t.wakeUp).epe = t.free.nextByte.1.getLsbD 0 := rfl
@[simp] theorem Tgt.wakeUp_devId (t : Tgt) : (t.wakeUp).devId = t.devId := rfl
@[simp] theorem Tgt.wakeUp_density (t : Tgt) : (t.wakeUp).density = t.density := rfl
@[simp] theorem Tgt.wakeUp_nvCycles (t : Tgt) : (t.wakeUp).nvCycles = t.nvCycles := rfl
@[simp] theorem Tgt.wakeUp_fate (t : Tgt) : (t.wakeUp).fate = t.fate := rfl
@[simp] theorem Tgt.wakeUp_free (t : Tgt) : (t.wakeUp).free = t.free.nextByte.2 := rfl
@[simp] theorem Tgt.setBuf_mode (t : Tgt) (b : BufId) (m : Memory) : (t.setBuf b m).mode = t.mode := by cases b <;> rfl
@[simp] theorem Tgt.setBuf_pending (t : Tgt) (b : BufId) (m : Memory) : (t.setBuf b m).pending = t.pending := by cases b <;> rfl
@[simp] theorem Tgt.setBuf_main (t : Tgt) (b : BufId) (m : Memory) : (t.setBuf b m).main = t.main := by cases b <;> rfl
@[simp] theorem Tgt.setBuf_nvBinary (t : Tgt) (b : BufId) (m : Memory) : (t.setBuf b m).nvBinary = t.nvBinary := by cases b <;> rfl
@[simp] theorem Tgt.setBuf_epe (t : Tgt) (b : BufId) (m : Memory) : (t.setBuf b m).epe = t.epe := by cases b <;> rfl
@[simp] theorem Tgt.setBuf_devId (t : Tgt) (b : BufId) (m : Memory) : (t.setBuf b m).devId = t.devId := by cases b <;> rfl
@[simp] theorem Tgt.setBuf_density (t : Tgt) (b : BufId) (m : Memory) : (t.setBuf b m).density = t.density := by cases b <;> rfl
@[simp] theorem Tgt.setBuf_nvCycles (t : Tgt) (b : BufId) (m : Memory) : (t.setBuf b m).nvCycles = t.nvCycles := by cases b <;> rfl
@[simp] theorem Tgt.setBuf_fate (t : Tgt) (b : BufId) (m : Memory) : (t.setBuf b m).fate = t.fate := by cases b <;> rfl
@[simp] theorem Tgt.setBuf_free (t : Tgt) (b : BufId) (m : Memory) : (t.setBuf b m).free = t.free := by cases b <;> rfl
@[simp] theorem Tgt.setBuf_buf (t : Tgt) (b : BufId) (m : Memory) : (t.setBuf b m).buf b = m := by cases b <;> rfl
theorem Tgt.setBuf_buf_other (t : Tgt) (b c : BufId) (m : Memory) (h : c ≠ b) :
    (t.setBuf b m).buf c = t.buf c := by cases b <;> cases c <;> first | rfl | exact absurd rfl h
@[simp] theorem Tgt.loadByte_mode (t : Tgt) (b : BufId) (i : Nat) (v : Byte) : (t.loadByte b i v).mode = t.mode := Tgt.setBuf_mode _ _ _
@[simp] theorem Tgt.loadByte_pending (t : Tgt) (b : BufId) (i : Nat) (v : Byte) : (t.loadByte b i v).pending = t.pending := Tgt.setBuf_pending _ _ _
@[simp] theorem Tgt.loadByte_main (t : Tgt) (b : BufId) (i : Nat) (v : Byte) : (t.loadByte b i v).main = t.main := Tgt.setBuf_main _ _ _
@[simp] theorem Tgt.loadByte_nvBinary (t : Tgt) (b : BufId) (i : Nat) (v : Byte) : (t.loadByte b i v).nvBinary = t.nvBinary := Tgt.setBuf_nvBinary _ _ _
@[simp] theorem Tgt.loadByte_epe (t : Tgt) (b : BufId) (i : Nat) (v : Byte) : (t.loadByte b i v).epe = t.epe := Tgt.setBuf_epe _ _ _
@[simp] theorem Tgt.loadByte_devId (t : Tgt) (b : BufId) (i : Nat) (v : Byte) : (t.loadByte b i v).devId = t.devId := Tgt.setBuf_devId _ _ _
@[simp] theorem Tgt.loadByte_density (t : Tgt) (b : BufId) (i : Nat) (v : Byte) : (t.loadByte b i v).density = t.density := Tgt.setBuf_density _ _ _
@[simp] theorem Tgt.loadByte_nvCycles (t : Tgt) (b : BufId) (i : Nat) (v : Byte) : (t.loadByte b i v).nvCycles = t.nvCycles := Tgt.setBuf_nvCycles _ _ _
@[simp] theorem Tgt.loadByte_fate (t : Tgt) (b : BufId) (i : Nat) (v : Byte) : (t.loadByte b i v).fate = t.fate := Tgt.setBuf_fate _ _ _
@[simp] theorem Tgt.loadByte_free (t : Tgt) (b : BufId) (i : Nat) (v : Byte) : (t.loadByte b i v).free = t.free := Tgt.setBuf_free _ _ _
@[simp] theorem Tgt.loadBytes_mode (t : Tgt) (b : BufId) (i : Nat) (vs : List Byte) : (Tgt.loadBytes b i vs t).mode = t.mode := by
  induction vs generalizing i t with
  | nil => rfl
  | cons v vs ih => simp [Tgt.loadBytes, ih]
@[simp] theorem Tgt.loadBytes_pending (t : Tgt) (b : BufId) (i : Nat) (vs : List Byte) : (Tgt.loadBytes b i vs t).pending = t.pending := by
  induction vs generalizing i t with
  | nil => rfl
  | cons v vs ih => simp [Tgt.loadBytes, ih]
@[simp] theorem Tgt.loadBytes_main (t : Tgt) (b : BufId) (i : Nat) (vs : List Byte) : (Tgt.loadBytes b i vs t).main = t.main := by
  induction vs generalizing i t with
  | nil => rfl
  | cons v vs ih => simp [Tgt.loadBytes, ih]
@[simp] theorem Tgt.loadBytes_nvBinary (t : Tgt) (b : BufId) (i : Nat) (vs : List Byte) : (Tgt.loadBytes b i vs t).nvBinary = t.nvBinary := by
  induction vs generalizing i t with
  | nil => rfl
  | cons v vs ih => simp [Tgt.loadBytes, ih]
@[simp] theorem Tgt.loadBytes_epe (t : Tgt) (b : BufId) (i : Nat) (vs : List Byte) : (Tgt.loadBytes b i vs t).epe = t.epe := by
  induction vs generalizing i t with
  | nil => rfl
  | cons v vs ih => simp [Tgt.loadBytes, ih]
@[simp] theorem Tgt.loadBytes_devId (t : Tgt) (b : BufId) (i : Nat) (vs : List Byte) : (Tgt.loadBytes b i vs t).devId = t.devId := by
  induction vs generalizing i t with
  | nil => rfl
  | cons v vs ih => simp [Tgt.loadBytes, ih]
@[simp] theorem Tgt.loadBytes_density (t : Tgt) (b : BufId) (i : Nat) (vs : List Byte) : (Tgt.loadBytes b i vs t).density = t.density := by
  induction vs generalizing i t with
  | nil => rfl
  | cons v vs ih => simp [Tgt.loadBytes, ih]
@[simp] theorem Tgt.loadBytes_nvCycles (t : Tgt) (b : BufId) (i : Nat) (vs : List Byte) : (Tgt.loadBytes b i vs t).nvCycles = t.nvCycles := by
  induction vs generalizing i t with
  | nil => rfl
  | cons v vs ih => simp [Tgt.loadBytes, ih]
@[simp] theorem Tgt.loadBytes_fate (t : Tgt) (b : BufId) (i : Nat) (vs : List Byte) : (Tgt.loadBytes b i vs t).fate = t.fate := by
  induction vs generalizing i t with
  | nil => rfl
  | cons v vs ih => simp [Tgt.loadBytes, ih]
@[simp] theorem Tgt.loadBytes_free (t : Tgt) (b : BufId) (i : Nat) (vs : List Byte) : (Tgt.loadBytes b i vs t).free = t.free := by
  induction vs generalizing i t with
  | nil => rfl
  | cons v vs ih => simp [Tgt.loadBytes, ih]
@[simp] theorem Tgt.loadBuffer_mode (t : Tgt) (b : BufId) (a : Addr) (data : List Byte) : (t.loadBuffer b a data).mode = t.mode := by simp [Tgt.loadBuffer]
@[simp] theorem Tgt.loadBuffer_pending (t : Tgt) (b : BufId) (a : Addr) (data : List Byte) : (t.loadBuffer b a data).pending = t.pending := by simp [Tgt.loadBuffer]
@[simp] theorem Tgt.loadBuffer_main (t : Tgt) (b : BufId) (a : Addr) (data : List Byte) : (t.loadBuffer b a data).main = t.main := by simp [Tgt.loadBuffer]
@[simp] theorem Tgt.loadBuffer_nvBinary (t : Tgt) (b : BufId) (a : Addr) (data : List Byte) : (t.loadBuffer b a data).nvBinary = t.nvBinary := by simp [Tgt.loadBuffer]
@[simp] theorem Tgt.loadBuffer_epe (t : Tgt) (b : BufId) (a : Addr) (data : List Byte) : (t.loadBuffer b a data).epe = t.epe := by simp [Tgt.loadBuffer]
@[simp] theorem Tgt.loadBuffer_devId (t : Tgt) (b : BufId) (a : Addr) (data : List Byte) : (t.loadBuffer b a data).devId = t.devId := by simp [Tgt.loadBuffer]
@[simp] theorem Tgt.loadBuffer_density (t : Tgt) (b : BufId) (a : Addr) (data : List Byte) : (t.loadBuffer b a data).density = t.density := by simp [Tgt.loadBuffer]
@[simp] theorem Tgt.loadBuffer_nvCycles (t : Tgt) (b : BufId) (a : Addr) (data : List Byte) : (t.loadBuffer b a data).nvCycles = t.nvCycles := by simp [Tgt.loadBuffer]
@[simp] theorem Tgt.loadBuffer_fate (t : Tgt) (b : BufId) (a : Addr) (data : List Byte) : (t.loadBuffer b a data).fate = t.fate := by simp [Tgt.loadBuffer]
@[simp] theorem Tgt.loadBuffer_free (t : Tgt) (b : BufId) (a : Addr) (data : List Byte) : (t.loadBuffer b a data).free = t.free := by simp [Tgt.loadBuffer]

/-! ### TGT-COMPLETE -/

@[simp] theorem Tgt.complete_mode (cfg : Config) (t : Tgt) : (t.complete cfg).mode = .idle := rfl
@[simp] theorem Tgt.complete_pending (cfg : Config) (t : Tgt) : (t.complete cfg).pending = none := rfl
@[simp] theorem Tgt.complete_buf1 (cfg : Config) (t : Tgt) : (t.complete cfg).buf1 = t.buf1 := by
  unfold Tgt.complete; split <;> rfl
@[simp] theorem Tgt.complete_buf2 (cfg : Config) (t : Tgt) : (t.complete cfg).buf2 = t.buf2 := by
  unfold Tgt.complete; split <;> rfl
@[simp] theorem Tgt.complete_devId (cfg : Config) (t : Tgt) : (t.complete cfg).devId = t.devId := by
  unfold Tgt.complete; split <;> rfl
@[simp] theorem Tgt.complete_density (cfg : Config) (t : Tgt) : (t.complete cfg).density = t.density := by
  unfold Tgt.complete; split <;> rfl
@[simp] theorem Tgt.complete_nvCycles (cfg : Config) (t : Tgt) : (t.complete cfg).nvCycles = t.nvCycles := by
  unfold Tgt.complete; split <;> rfl
@[simp] theorem Tgt.complete_fate (cfg : Config) (t : Tgt) : (t.complete cfg).fate = t.fate := by
  unfold Tgt.complete; split <;> rfl
@[simp] theorem Tgt.complete_free (cfg : Config) (t : Tgt) : (t.complete cfg).free = t.free := by
  unfold Tgt.complete; split <;> rfl
@[simp] theorem Tgt.tick_buf1 (cfg : Config) (t : Tgt) : (t.tick cfg).buf1 = t.buf1 := by
  unfold Tgt.tick; repeat (first | rfl | split | simp)
@[simp] theorem Tgt.tick_buf2 (cfg : Config) (t : Tgt) : (t.tick cfg).buf2 = t.buf2 := by
  unfold Tgt.tick; repeat (first | rfl | split | simp)
@[simp] theorem Tgt.tick_devId (cfg : Config) (t : Tgt) : (t.tick cfg).devId = t.devId := by
  unfold Tgt.tick; repeat (first | rfl | split | simp)
@[simp] theorem Tgt.tick_density (cfg : Config) (t : Tgt) : (t.tick cfg).density = t.density := by
  unfold Tgt.tick; repeat (first | rfl | split | simp)
@[simp] theorem Tgt.tick_nvCycles (cfg : Config) (t : Tgt) : (t.tick cfg).nvCycles = t.nvCycles := by
  unfold Tgt.tick; repeat (first | rfl | split | simp)
@[simp] theorem Tgt.tick_free (cfg : Config) (t : Tgt) : (t.tick cfg).free = t.free := by
  unfold Tgt.tick; repeat (first | rfl | split | simp)

end Sys2Proof.Machine
end

