-- ==== Sys2Proof/Laws/Flags.lean ====
section
/-! SUPPORT. The bits of the status word and of the two bytes the target composes (spec/10_state.md R21, R22;
47_target.md R171). -/

namespace Sys2Proof.Machine

/-- byte1 is the high half of the status word, byte2 the low half. -/
theorem statusWord_getLsbD (b1 b2 : Byte) (i : Nat) (hi : i < 16) :
    (statusWord b1 b2).getLsbD i = if i < 8 then b2.getLsbD i else b1.getLsbD (i - 8) := by
  simp only [statusWord, BitVec.getLsbD_or, BitVec.getLsbD_shiftLeft, BitVec.getLsbD_setWidth]
  by_cases h : i < 8
  · simp [h, hi]
  · have h8 : 8 ≤ i := by omega
    have h16 : i - 8 < 16 := by omega
    simp [h, hi, h16, BitVec.getLsbD_of_ge b2 i h8]

theorem bitAt_getLsbD (k : Nat) (b : Bool) (i : Nat) (hk : k < 8) :
    (bitAt k b).getLsbD i = (decide (i = k) && b) := by
  unfold bitAt
  cases b
  · simp
  · simp only [if_true, BitVec.getLsbD_shiftLeft, Bool.and_true]
    by_cases h : i = k
    · subst h; simp [hk]
    · by_cases h' : i < k
      · simp [h, h']
      · have : ¬ i - k = 0 := by omega
        simp [h, this]

/-- Bit by bit, byte1: bit 7 ready, bits 5:2 the density code, bit 0 binary, bits 6 and 1 undefined. -/
theorem statusByte1_getLsbD (rdy : Bool) (d : BitVec 4) (bin : Bool) (u : Byte) (i : Nat) (hi : i < 8) :
    (statusByte1 rdy d bin u).getLsbD i =
      if i = 7 then rdy else if i = 6 then u.getLsbD 6 else if i = 1 then u.getLsbD 1
      else if i = 0 then bin else d.getLsbD (i - 2) := by
  simp only [statusByte1, BitVec.getLsbD_or, BitVec.getLsbD_and, bitAt_getLsbD 7 rdy i (by decide),
    bitAt_getLsbD 0 bin i (by decide)]
  interval_cases i <;> simp

/-- Bit by bit, byte2: bit 5 the error flag, every other bit undefined. -/
theorem statusByte2_getLsbD (epe : Bool) (u : Byte) (i : Nat) (hi : i < 8) :
    (statusByte2 epe u).getLsbD i = if i = 5 then epe else u.getLsbD i := by
  simp only [statusByte2, BitVec.getLsbD_or, BitVec.getLsbD_and, bitAt_getLsbD 5 epe i (by decide)]
  interval_cases i <;> simp

theorem Tgt.byte1_ready (t : Tgt) : t.byte1.getLsbD 7 = decide (t.mode = .idle) := by
  rw [Tgt.byte1, statusByte1_getLsbD _ _ _ _ _ (by decide)]
  cases t.mode <;> rfl

theorem Tgt.byte1_binary (t : Tgt) : t.byte1.getLsbD 0 = t.nvBinary := by
  rw [Tgt.byte1, statusByte1_getLsbD _ _ _ _ _ (by decide)]; rfl

theorem Tgt.byte2_error (t : Tgt) : t.byte2.getLsbD 5 = t.epe := by
  rw [Tgt.byte2, statusByte2_getLsbD _ _ _ (by decide)]; rfl

theorem ready_statusWord (b1 b2 : Byte) : ready (statusWord b1 b2) = b1.getLsbD 7 :=
  statusWord_getLsbD b1 b2 15 (by decide)

theorem binary_statusWord (b1 b2 : Byte) : binary (statusWord b1 b2) = b1.getLsbD 0 :=
  statusWord_getLsbD b1 b2 8 (by decide)

theorem error_statusWord (b1 b2 : Byte) : error (statusWord b1 b2) = b2.getLsbD 5 :=
  statusWord_getLsbD b1 b2 5 (by decide)

end Sys2Proof.Machine
end

