-- ==== Sys2Proof/Laws/Memory.lean ====
section
/-! SUPPORT. The laws of the cell memories: what a read sees after each operation, and that each operation
keeps the canonical form and the bounds. -/

namespace Sys2Proof.Machine

theorem lookup_cons_if (k : Nat) (v : Byte) (m : Memory) (a : Nat) :
    List.lookup a ((k, v) :: m) = if a = k then some v else List.lookup a m := by
  by_cases h : a = k
  · simp [h]
  · rw [List.lookup_cons, beq_false_of_ne h, if_neg h]

theorem lookup_filter_key (P : Nat → Bool) (m : Memory) (a : Nat) :
    (m.filter fun c => P c.1).lookup a = if P a then m.lookup a else none := by
  induction m with
  | nil => simp
  | cons c m ih =>
    obtain ⟨k, v⟩ := c
    by_cases hk : P k <;> by_cases ha : a = k
    · subst ha; simp [hk]
    · simp [hk, lookup_cons_if, ha, ih]
    · subst ha; simp [hk, ih]
    · simp [hk, lookup_cons_if, ha, ih]

theorem lookup_append (m n : Memory) (a : Nat) :
    (m ++ n).lookup a = (m.lookup a).or (n.lookup a) := by
  induction m with
  | nil => simp
  | cons c m ih =>
    obtain ⟨k, v⟩ := c
    by_cases h : a = k
    · subst h; simp
    · simp [lookup_cons_if, h, ih]

theorem lookup_eq_none_of_forall_ne (m : Memory) (a : Nat) (h : ∀ c ∈ m, c.1 ≠ a) :
    m.lookup a = none := by
  induction m with
  | nil => rfl
  | cons c m ih =>
    obtain ⟨k, v⟩ := c
    have hk : ¬ a = k := fun e => h (k, v) (by simp) e.symm
    simp [lookup_cons_if, hk, ih fun c hc => h c (by simp [hc])]

/-- Every address of `seg` lies in the range. -/
abbrev Memory.inRange (seg : Memory) (base len : Nat) : Prop :=
  ∀ c ∈ seg, base ≤ c.1 ∧ c.1 < base + len

/-- A read inside the range sees the new content, a read outside the old. -/
theorem Memory.read_splice (m seg : Memory) (base len a : Nat) (h : seg.inRange base len) :
    (m.splice base len seg).read a =
      if base ≤ a ∧ a < base + len then seg.read a else m.read a := by
  have hseg : ¬ (base ≤ a ∧ a < base + len) → seg.lookup a = none := fun hn =>
    lookup_eq_none_of_forall_ne _ _ fun c hc e => hn (e ▸ h c hc)
  simp only [Memory.read, Memory.splice, lookup_append,
    lookup_filter_key (fun k => decide (k < base)), lookup_filter_key (fun k => decide (base + len ≤ k))]
  by_cases h1 : a < base
  · have : ¬ (base ≤ a ∧ a < base + len) := by omega
    rw [if_neg this, hseg this]
    have : ¬ (base + len ≤ a) := by omega
    simp [h1, this]
  · by_cases h2 : a < base + len
    · have : base ≤ a ∧ a < base + len := by omega
      have h3 : ¬ (base + len ≤ a) := by omega
      simp [h1, h3, this]
    · have : ¬ (base ≤ a ∧ a < base + len) := by omega
      rw [if_neg this, hseg this]
      have h3 : base + len ≤ a := by omega
      simp [h1, h3]

theorem Memory.wf_splice (m seg : Memory) (base len : Nat) (hm : m.wf) (hs : seg.wf)
    (h : seg.inRange base len) : (m.splice base len seg).wf := by
  unfold Memory.wf Memory.splice
  rw [List.pairwise_append, List.pairwise_append]
  refine ⟨⟨hm.filter _, hs, fun c hc d hd => ?_⟩, hm.filter _, fun c hc d hd => ?_⟩
  · have := (List.mem_filter.1 hc).2
    have := h d hd
    simp at *; omega
  · have hd' := (List.mem_filter.1 hd).2
    rcases List.mem_append.1 hc with hc | hc
    · have := (List.mem_filter.1 hc).2
      simp at *; omega
    · have := h c hc
      simp at *; omega

theorem Memory.below_splice (m seg : Memory) (base len n : Nat) (hm : m.below n)
    (hs : seg.below n) : (m.splice base len seg).below n := by
  intro c hc
  simp only [Memory.splice, List.mem_append, List.mem_filter] at hc
  rcases hc with (hc | hc) | hc
  · exact hm c hc.1
  · exact hs c hc
  · exact hm c hc.1

theorem mem_cellsFrom (a : Nat) (bs : List Byte) (c : Host.Cell) (h : c ∈ cellsFrom a bs) :
    a ≤ c.1 ∧ c.1 < a + bs.length := by
  induction bs generalizing a with
  | nil => simp [cellsFrom] at h
  | cons b bs ih =>
    simp only [cellsFrom, List.mem_cons] at h
    rcases h with rfl | h
    · simp
    · have := ih (a + 1) h
      simp; omega

theorem cellsFrom_wf (a : Nat) (bs : List Byte) : (cellsFrom a bs).wf := by
  induction bs generalizing a with
  | nil => exact List.Pairwise.nil
  | cons b bs ih =>
    exact List.Pairwise.cons (fun c hc => by have := mem_cellsFrom _ _ _ hc; simp; omega) (ih _)

theorem read_cellsFrom (a : Nat) (bs : List Byte) (x : Nat) :
    (cellsFrom a bs).read x = if a ≤ x then bs[x - a]? else none := by
  induction bs generalizing a with
  | nil => simp [cellsFrom, Memory.read]
  | cons b bs ih =>
    simp only [cellsFrom, Memory.read, List.lookup_cons] at ih ⊢
    by_cases h : x = a
    · subst h; simp
    · have hb : (x == a) = false := by simp [h]
      rw [hb, ih]
      by_cases h1 : a ≤ x
      · have h2 : a + 1 ≤ x := by omega
        have h3 : x - a = (x - (a + 1)) + 1 := by omega
        simp [h1, h2, h3]
      · have h2 : ¬ a + 1 ≤ x := by omega
        simp [h1, h2]

/-- A read after a store: the bytes stored, in order, and everything else as before. -/
theorem Memory.read_store (m : Memory) (a : Nat) (bs : List Byte) (x : Nat) :
    (m.store a bs).read x =
      if a ≤ x ∧ x < a + bs.length then bs[x - a]? else m.read x := by
  rw [Memory.store, Memory.read_splice _ _ _ _ _ (mem_cellsFrom a bs), read_cellsFrom]
  split
  · next h => simp [h.1]
  · rfl

theorem Memory.wf_store (m : Memory) (a : Nat) (bs : List Byte) (h : m.wf) : (m.store a bs).wf :=
  m.wf_splice _ _ _ h (cellsFrom_wf a bs) (mem_cellsFrom a bs)

theorem Memory.below_store (m : Memory) (a : Nat) (bs : List Byte) (n : Nat) (h : m.below n)
    (hn : a + bs.length ≤ n) : (m.store a bs).below n :=
  m.below_splice _ _ _ _ h fun c hc => by have := mem_cellsFrom _ _ _ hc; omega

theorem Memory.read_fill (m : Memory) (base len : Nat) (v : Byte) (x : Nat) :
    (m.fill base len v).read x =
      if base ≤ x ∧ x < base + len then some v else m.read x := by
  rw [Memory.fill, Memory.read_store, List.length_replicate]
  split
  · next h =>
    have : x - base < len := by omega
    simp [this]
  · rfl

theorem Memory.wf_fill (m : Memory) (base len : Nat) (v : Byte) (h : m.wf) :
    (m.fill base len v).wf := m.wf_store _ _ h

theorem Memory.below_fill (m : Memory) (base len : Nat) (v : Byte) (n : Nat) (h : m.below n)
    (hn : base + len ≤ n) : (m.fill base len v).below n :=
  m.below_store _ _ _ h (by simpa using hn)

/-- A forgotten cell is `UNDEF`, every other as before. -/
theorem Memory.read_forget (m : Memory) (base len x : Nat) :
    (m.forget base len).read x = if base ≤ x ∧ x < base + len then none else m.read x := by
  rw [Memory.forget, Memory.read_splice _ _ _ _ _ (by simp)]
  rfl

theorem Memory.wf_forget (m : Memory) (base len : Nat) (h : m.wf) : (m.forget base len).wf :=
  m.wf_splice _ _ _ h List.Pairwise.nil (by simp)

theorem Memory.below_forget (m : Memory) (base len n : Nat) (h : m.below n) :
    (m.forget base len).below n := m.below_splice _ _ _ _ h (by simp)

theorem read_shift (src : Memory) (base len x : Nat) :
    Memory.read ((src.filter fun c => decide (c.1 < len)).map fun c => (base + c.1, c.2)) x =
      if base ≤ x ∧ x < base + len then src.read (x - base) else none := by
  induction src with
  | nil => simp [Memory.read]
  | cons c src ih =>
    obtain ⟨k, v⟩ := c
    simp only [Memory.read] at ih ⊢
    by_cases hk : k < len
    · simp only [List.filter_cons, hk, decide_true, if_true, List.map_cons, List.lookup_cons]
      by_cases hx : x = base + k
      · subst hx
        have h1 : base ≤ base + k ∧ base + k < base + len := by omega
        have h2 : base + k - base = k := by omega
        simp [h1, h2]
      · have hb : (x == base + k) = false := by simp [hx]
        rw [hb, ih]
        by_cases h1 : base ≤ x ∧ x < base + len
        · have h2 : (x - base == k) = false := by simp; omega
          simp [h1, h2]
        · simp [h1]
    · simp only [List.filter_cons, hk, decide_false]
      rw [if_neg (by simp), ih]
      by_cases h1 : base ≤ x ∧ x < base + len
      · have h2 : (x - base == k) = false := by simp; omega
        simp [h1, List.lookup_cons, h2]
      · simp [h1]

/-- A read after a copy: inside the range the source cell, `UNDEF` included. -/
theorem Memory.read_copy (m : Memory) (base len : Nat) (src : Memory) (x : Nat) :
    (m.copy base len src).read x =
      if base ≤ x ∧ x < base + len then src.read (x - base) else m.read x := by
  rw [Memory.copy, Memory.read_splice, read_shift]
  · split
    · next h => rfl
    · rfl
  · intro c hc
    obtain ⟨d, hd, rfl⟩ := List.mem_map.1 hc
    have := (List.mem_filter.1 hd).2
    simp at *; omega

theorem Memory.wf_copy (m : Memory) (base len : Nat) (src : Memory) (h : m.wf) (hs : src.wf) :
    (m.copy base len src).wf := by
  refine m.wf_splice _ _ _ h ?_ ?_
  · unfold Memory.wf
    rw [List.pairwise_map]
    exact (hs.filter _).imp fun h => by simpa using h
  · intro c hc
    obtain ⟨d, hd, rfl⟩ := List.mem_map.1 hc
    have := (List.mem_filter.1 hd).2
    simp at *; omega

theorem Memory.below_copy (m : Memory) (base len : Nat) (src : Memory) (n : Nat) (h : m.below n)
    (hn : base + len ≤ n) : (m.copy base len src).below n := by
  refine m.below_splice _ _ _ _ h fun c hc => ?_
  obtain ⟨d, hd, rfl⟩ := List.mem_map.1 hc
  have := (List.mem_filter.1 hd).2
  simp at *; omega

theorem Memory.holds_iff (m : Memory) (base len : Nat) (v : Byte) :
    m.holds base len v = true ↔ ∀ i < len, m.read (base + i) = some v := by
  simp [Memory.holds]

end Sys2Proof.Machine
end

