-- ==== Sys2Proof/Laws/Target.lean ====
section
/-! SUPPORT. The laws of the target: draws, TGT-COMPLETE, the gate, and everything a transaction can do. -/

namespace Sys2Proof.Machine

/-! ### Draws -/

@[simp] theorem Draws.receive_some (d : Draws) (b : Byte) : d.receive (some b) = (b, d) := rfl
@[simp] theorem Draws.receive_none (d : Draws) : d.receive none = d.nextByte := rfl
@[simp] theorem Draws.fill_nil (d : Draws) : Draws.fill [] d = ([], d) := rfl

theorem Draws.fill_cons (r : Option Byte) (rs : List (Option Byte)) (d : Draws) :
    Draws.fill (r :: rs) d =
      ((d.receive r).1 :: (Draws.fill rs (d.receive r).2).1, (Draws.fill rs (d.receive r).2).2) := rfl

/-- One byte is received at each position. -/
@[simp] theorem Draws.fill_length (rs : List (Option Byte)) (d : Draws) :
    (Draws.fill rs d).1.length = rs.length := by
  induction rs generalizing d with
  | nil => rfl
  | cons r rs ih => simp [Draws.fill_cons, ih]

/-- Where every byte is defined nothing is drawn. -/
@[simp] theorem Draws.fill_map_some (bs : List Byte) (d : Draws) :
    Draws.fill (bs.map some) d = (bs, d) := by
  induction bs with
  | nil => rfl
  | cons b bs ih => simp [Draws.fill_cons, ih]

/-! ### TGT-COMPLETE -/

/-- Only a busy target steps by itself. -/
theorem Tgt.tick_of_not_busy (cfg : Config) (t : Tgt) (h : t.mode ≠ .busy) : t.tick cfg = t := by
  unfold Tgt.tick; split <;> simp_all

@[simp] theorem Tgt.tick_of_idle (cfg : Config) (t : Tgt) (h : t.mode = .idle) : t.tick cfg = t :=
  t.tick_of_not_busy cfg (by simp [h])

/-- Everything an opportunity for TGT-COMPLETE can do. -/
theorem Tgt.tick_cases (cfg : Config) (t : Tgt) :
    (t.tick cfg = t ∧ (t.mode ≠ .busy ∨ t.fate.after = none)) ∨
    (t.mode = .busy ∧ t.fate.after = some 0 ∧ t.tick cfg = t.complete cfg) ∨
    ∃ n, t.mode = .busy ∧ t.fate.after = some (n + 1) ∧
      t.tick cfg = { t with fate := { t.fate with after := some n } } := by
  unfold Tgt.tick
  split
  · split
    · exact .inr (.inl ⟨‹_›, ‹_›, rfl⟩)
    · exact .inr (.inr ⟨_, ‹_›, ‹_›, rfl⟩)
    · exact .inl ⟨rfl, .inr ‹_›⟩
  all_goals exact .inl ⟨rfl, .inl (by simp [*])⟩

/-- A target that is not busy keeps its mode; a busy one stays busy or becomes idle. -/
theorem Tgt.tick_mode (cfg : Config) (t : Tgt) :
    (t.tick cfg).mode = t.mode ∨ (t.mode = .busy ∧ (t.tick cfg).mode = .idle) := by
  rcases t.tick_cases cfg with ⟨h, -⟩ | ⟨hm, -, h⟩ | ⟨n, hm, -, h⟩
  · exact .inl (by rw [h])
  · exact .inr ⟨hm, by rw [h]; rfl⟩
  · exact .inl (by rw [h])

/-- A window that is not over keeps the target busy. -/
theorem Tgt.tick_busy (cfg : Config) (t : Tgt) (h : t.mode = .busy) (ha : t.fate.after ≠ some 0) :
    (t.tick cfg).mode = .busy := by
  rcases t.tick_cases cfg with ⟨e, -⟩ | ⟨-, h0, -⟩ | ⟨n, -, -, e⟩
  · rw [e]; exact h
  · exact absurd h0 ha
  · rw [e]; exact h

/-! ### The buffer load -/

@[simp] theorem Tgt.loadBytes_nil (b : BufId) (i : Nat) (t : Tgt) : Tgt.loadBytes b i [] t = t := rfl

theorem Tgt.loadBytes_cons (b : BufId) (i : Nat) (v : Byte) (vs : List Byte) (t : Tgt) :
    Tgt.loadBytes b i (v :: vs) t = Tgt.loadBytes b (i + 1) vs (t.loadByte b i v) := rfl

/-- A load leaves the other buffer alone. -/
theorem Tgt.loadBytes_buf_other {b c : BufId} (h : c ≠ b) (i : Nat) (vs : List Byte) (t : Tgt) :
    (Tgt.loadBytes b i vs t).buf c = t.buf c := by
  induction vs generalizing i t with
  | nil => rfl
  | cons v vs ih => rw [Tgt.loadBytes_cons, ih, Tgt.loadByte, Tgt.setBuf_buf_other _ _ _ _ h]

theorem Tgt.loadByte_buf (t : Tgt) (b : BufId) (i : Nat) (v : Byte) :
    (t.loadByte b i v).buf b = if i < Config.pageSize then (t.buf b).store i [v] else [] :=
  Tgt.setBuf_buf _ _ _

/-- A load that fits stores its bytes in place. -/
theorem Tgt.loadBytes_read (b : BufId) (i : Nat) (vs : List Byte) (t : Tgt)
    (h : i + vs.length ≤ Config.pageSize) (x : Nat) :
    ((Tgt.loadBytes b i vs t).buf b).read x =
      if i ≤ x ∧ x < i + vs.length then vs[x - i]? else (t.buf b).read x := by
  induction vs generalizing i t with
  | nil => simp
  | cons v vs ih =>
    simp only [List.length_cons] at h ⊢
    rw [Tgt.loadBytes_cons, ih _ _ (by omega), Tgt.loadByte_buf, if_pos (c := i < _) (by omega),
      Memory.read_store]
    simp only [List.length_cons, List.length_nil]
    by_cases h1 : i + 1 ≤ x ∧ x < i + 1 + vs.length
    · rw [if_pos h1, if_pos (by omega), show x - i = (x - (i + 1)) + 1 by omega,
        List.getElem?_cons_succ]
    · rw [if_neg h1]
      by_cases h2 : x = i
      · subst h2; simp
      · rw [if_neg (by omega), if_neg (by omega)]

/-- Once the end of the buffer is passed the whole buffer is `UNDEF`. -/
theorem Tgt.loadBytes_past (b : BufId) (i : Nat) (vs : List Byte) (t : Tgt)
    (hi : Config.pageSize ≤ i) (h : t.buf b = []) : (Tgt.loadBytes b i vs t).buf b = [] := by
  induction vs generalizing i t with
  | nil => exact h
  | cons v vs ih =>
    exact ih _ (t.loadByte b i v) (by omega) (by rw [Tgt.loadByte_buf, if_neg (by omega)])

theorem Tgt.loadBytes_overrun (b : BufId) (i : Nat) (vs : List Byte) (t : Tgt)
    (hi : i ≤ Config.pageSize) (h : Config.pageSize < i + vs.length) :
    (Tgt.loadBytes b i vs t).buf b = [] := by
  induction vs generalizing i t with
  | nil => simp at h; omega
  | cons v vs ih =>
    by_cases h1 : i < Config.pageSize
    · exact ih _ _ (by omega) (by simp at h; omega)
    · exact Tgt.loadBytes_past _ _ _ (t.loadByte b i v) (by omega)
        (by rw [Tgt.loadByte_buf, if_neg h1])

/-! ### The well-formed target -/

/-- The target's part of `State.Inv`. -/
structure Tgt.Wf (cfg : Config) (t : Tgt) : Prop where
  pendingBusy : t.mode = .busy ↔ t.pending.isSome = true
  pendingPage : ∀ p, (t.pending.bind Work.page?) = some p → p < cfg.nPages
  mainWf : t.main.wf
  buf1Wf : t.buf1.wf
  buf2Wf : t.buf2.wf
  mainBelow : t.main.below (cfg.nPages * Config.pageSize)
  buf1Below : t.buf1.below Config.pageSize
  buf2Below : t.buf2.below Config.pageSize

variable {cfg : Config} {t : Tgt}

theorem pageBase_le {p n : Nat} (h : p < n) : pageBase p + Config.pageSize ≤ n * Config.pageSize := by
  simp only [pageBase, Config.pageSize]; omega

theorem Tgt.Wf.bufWf (h : t.Wf cfg) (b : BufId) : (t.buf b).wf := by
  cases b
  · exact h.buf1Wf
  · exact h.buf2Wf

theorem Tgt.Wf.bufBelow (h : t.Wf cfg) (b : BufId) : (t.buf b).below Config.pageSize := by
  cases b
  · exact h.buf1Below
  · exact h.buf2Below

/-- A change outside mode, pending and the memories. -/
theorem Tgt.Wf.congr {u : Tgt} (h : t.Wf cfg) (hm : u.mode = t.mode) (hp : u.pending = t.pending)
    (hmain : u.main = t.main) (h1 : u.buf1 = t.buf1) (h2 : u.buf2 = t.buf2) : u.Wf cfg := by
  constructor
  · rw [hm, hp]; exact h.pendingBusy
  · rw [hp]; exact h.pendingPage
  · rw [hmain]; exact h.mainWf
  · rw [h1]; exact h.buf1Wf
  · rw [h2]; exact h.buf2Wf
  · rw [hmain]; exact h.mainBelow
  · rw [h1]; exact h.buf1Below
  · rw [h2]; exact h.buf2Below

/-- A busy window that ends with a well-formed array. -/
theorem Tgt.Wf.ended (h : t.Wf cfg) {m : Memory} (hw : m.wf)
    (hb : m.below (cfg.nPages * Config.pageSize)) {u : Tgt} (hm : u.mode = .idle)
    (hp : u.pending = none) (hmain : u.main = m) (h1 : u.buf1 = t.buf1) (h2 : u.buf2 = t.buf2) :
    u.Wf cfg := by
  refine ⟨by simp [hm, hp], by simp [hp], by rw [hmain]; exact hw, ?_, ?_, by rw [hmain]; exact hb,
    ?_, ?_⟩
  · rw [h1]; exact h.buf1Wf
  · rw [h2]; exact h.buf2Wf
  · rw [h1]; exact h.buf1Below
  · rw [h2]; exact h.buf2Below

theorem Tgt.Wf.complete (h : t.Wf cfg) : (t.complete cfg).Wf cfg := by
  unfold Tgt.complete
  split
  · next p b clean hp =>
    have hpn : p < cfg.nPages := h.pendingPage p (by simp [hp, Work.page?])
    dsimp only [Tgt.completeProg]
    split
    · exact h.ended (Memory.wf_copy _ _ _ _ h.mainWf (h.bufWf b))
        (Memory.below_copy _ _ _ _ _ h.mainBelow (pageBase_le hpn)) rfl rfl rfl rfl rfl
    · exact h.ended (Memory.wf_forget _ _ _ h.mainWf) (Memory.below_forget _ _ _ _ h.mainBelow)
        rfl rfl rfl rfl rfl
  · next p hp =>
    have hpn : p < cfg.nPages := h.pendingPage p (by simp [hp, Work.page?])
    dsimp only [Tgt.completeErase]
    split
    · exact h.ended (Memory.wf_fill _ _ _ _ h.mainWf)
        (Memory.below_fill _ _ _ _ _ h.mainBelow (pageBase_le hpn)) rfl rfl rfl rfl rfl
    · exact h.ended (Memory.wf_forget _ _ _ h.mainWf) (Memory.below_forget _ _ _ _ h.mainBelow)
        rfl rfl rfl rfl rfl
  · exact h.ended h.mainWf h.mainBelow rfl rfl rfl rfl rfl
  · exact h.ended h.mainWf h.mainBelow rfl rfl rfl rfl rfl

theorem Tgt.Wf.tick (h : t.Wf cfg) : (t.tick cfg).Wf cfg := by
  rcases t.tick_cases cfg with ⟨e, -⟩ | ⟨-, -, e⟩ | ⟨n, -, -, e⟩ <;> rw [e]
  · exact h
  · exact h.complete
  · exact h.congr rfl rfl rfl rfl rfl

theorem Tgt.Wf.setBuf (h : t.Wf cfg) (b : BufId) {m : Memory} (hw : m.wf)
    (hb : m.below Config.pageSize) : (t.setBuf b m).Wf cfg := by
  cases b
  · exact ⟨h.pendingBusy, h.pendingPage, h.mainWf, hw, h.buf2Wf, h.mainBelow, hb, h.buf2Below⟩
  · exact ⟨h.pendingBusy, h.pendingPage, h.mainWf, h.buf1Wf, hw, h.mainBelow, h.buf1Below, hb⟩

theorem Tgt.Wf.loadByte (h : t.Wf cfg) (b : BufId) (i : Nat) (v : Byte) :
    (t.loadByte b i v).Wf cfg := by
  unfold Tgt.loadByte
  split
  · next hl =>
    exact h.setBuf b (Memory.wf_store _ _ _ (h.bufWf b))
      (Memory.below_store _ _ _ _ (h.bufBelow b) (by simpa using hl))
  · exact h.setBuf b List.Pairwise.nil (by simp)

theorem Tgt.Wf.forgetPage (h : t.Wf cfg) (p : Nat) : (t.forgetPage p).Wf cfg :=
  ⟨h.pendingBusy, h.pendingPage, Memory.wf_forget _ _ _ h.mainWf, h.buf1Wf, h.buf2Wf,
    Memory.below_forget _ _ _ _ h.mainBelow, h.buf1Below, h.buf2Below⟩

theorem Tgt.Wf.startBusy (h : t.Wf cfg) (w : Work) (hw : ∀ p, w.page? = some p → p < cfg.nPages) :
    (t.startBusy w).Wf cfg :=
  ⟨by simp, by simpa using hw, h.mainWf, h.buf1Wf, h.buf2Wf, h.mainBelow, h.buf1Below, h.buf2Below⟩

/-- A step from idle to another mode that is not busy. -/
theorem Tgt.Wf.remode (h : t.Wf cfg) (hi : t.mode ≠ .busy) {u : Tgt} (hm : u.mode ≠ .busy)
    (hp : u.pending = t.pending) (hmain : u.main = t.main) (h1 : u.buf1.wf)
    (h2 : u.buf2.wf) (b1 : u.buf1.below Config.pageSize) (b2 : u.buf2.below Config.pageSize) :
    u.Wf cfg := by
  refine ⟨?_, ?_, by rw [hmain]; exact h.mainWf, h1, h2, by rw [hmain]; exact h.mainBelow, b1, b2⟩
  · rw [hp, ← h.pendingBusy]; exact ⟨fun e => absurd e hm, fun e => absurd e hi⟩
  · rw [hp]; exact h.pendingPage

/-! ### What an exchange can do -/

/-- The erase condition of 47_target.md R178, in its own words. -/
theorem Tgt.eraseCondition_iff (cfg : Config) (t : Tgt) (p : Nat) :
    t.eraseCondition cfg p = true ↔ cfg.b2mBuiltinErase = true ∨
      ∀ i < 512, t.main.read (p * 512 + i) = some cfg.erasedByte := by
  simp [Tgt.eraseCondition, Memory.holds_iff, pageBase, Config.pageSize]

/-- The gate lets a busy target see only a status read or the pulse, and a target in a power-down only
the pulse. -/
theorem gate_none (m : Mode) (n : Nat) (st : Bool) :
    gate m n st = none ↔ m = .idle ∨ (m = .busy ∧ (n = 0 ∨ st = true)) ∨ (m = .udpd ∧ n = 0) := by
  cases m <;> simp [gate]
  by_cases h : n = 0 <;> simp [h]

/-- How many bytes a wire command takes on the bus (30_encoding.md R74 to R80). -/
def wireLength : Instr → Option Nat
  | .init => none
  | .getStatus => none
  | .getId => none
  | .readPage _ _ => none
  | .writePage _ _ => none
  | .writeBuffer _ _ => none
  | .bufferToMemory _ => none
  | .erasePage _ => none
  | .isReady => none
  | .isErrorFlagged => none
  | .setBinaryPageSize => none
  | .enterUdpd => none
  | .exitUdpd => none
  | .reserved13 => none
  | .reserved14 => none
  | .reserved15 => none
  | .wStatus => some 3
  | .wId => some 4
  | .wPsz => some 4
  | .wRead _ n => some (8 + n)
  | .wProg1 _ d => some (4 + d.length)
  | .wProg2 _ d => some (4 + d.length)
  | .wBufw1 _ d => some (4 + d.length)
  | .wBufw2 _ d => some (4 + d.length)
  | .wB2m1 _ => some 4
  | .wB2m2 _ => some 4
  | .wErase _ => some 4
  | .wUdpd => some 1
  | .wWake => some 0

theorem exactly_ok {n : Nat} {rest : List Byte} {i j : Instr} (h : exactly n rest i = .ok j) :
    rest.length = n ∧ i = j := by
  unfold exactly at h; split at h
  · exact ⟨‹_›, by simpa using h⟩
  · simp at h

theorem withAddr_ok {rest : List Byte} {k : Addr → List Byte → Except DecodeError Instr} {j : Instr}
    (h : withAddr rest k = .ok j) : ∃ a data, rest.length = 3 + data.length ∧ k a data = .ok j := by
  unfold withAddr at h; split at h
  · next a2 a1 a0 data => exact ⟨_, data, by simp; omega, h⟩
  · simp at h

theorem onlyAddr_ok {rest : List Byte} {k : Addr → Instr} {j : Instr}
    (h : onlyAddr rest k = .ok j) : ∃ a, rest.length = 3 ∧ k a = j := by
  obtain ⟨a, data, hl, h⟩ := withAddr_ok h
  split at h
  · next e => exact ⟨a, by simp [hl, e], by simpa using h⟩
  · simp at h

/-- Two branches of a decoder, each of which answers only instructions of the right length. -/
theorem ite_ok {p : Prop} [Decidable p] {a b : Except DecodeError Instr} {i : Instr} {P : Prop}
    (h : (if p then a else b) = .ok i) (ha : a = .ok i → P) (hb : b = .ok i → P) : P := by
  split at h
  · exact ha h
  · exact hb h

/-- A transaction that decodes has the length of its command. -/
theorem decodeWire_length {bytes : List Byte} {i : Instr} (h : decodeWire cfg bytes = .ok i) :
    wireLength i = some bytes.length := by
  have hex : ∀ (n : Nat) (rest : List Byte) (j : Instr), wireLength j = some (n + 1) →
      exactly n rest j = .ok i → wireLength i = some (rest.length + 1) := by
    intro n rest j hj h
    obtain ⟨hl, rfl⟩ := exactly_ok h
    rw [hj, hl]
  have hon : ∀ (rest : List Byte) (k : Addr → Instr), (∀ a, wireLength (k a) = some 4) →
      onlyAddr rest k = .ok i → wireLength i = some (rest.length + 1) := by
    intro rest k hk h
    obtain ⟨a, hl, rfl⟩ := onlyAddr_ok h
    rw [hk, hl]
  have hwd : ∀ (rest : List Byte) (k : Addr → List Byte → Instr),
      (∀ a d, wireLength (k a d) = some (4 + d.length)) →
      (withAddr rest fun a d => .ok (k a d)) = .ok i → wireLength i = some (rest.length + 1) := by
    intro rest k hk h
    obtain ⟨a, d, hl, h⟩ := withAddr_ok h
    cases h
    rw [hk, hl]; congr 1; omega
  cases bytes with
  | nil => cases h; rfl
  | cons op rest =>
    rw [List.length_cons]
    unfold decodeWire at h
    refine ite_ok h (hex 2 _ _ rfl) fun h => ?_
    refine ite_ok h (hex 3 _ _ rfl) fun h => ?_
    refine ite_ok h (fun h => ?_) fun h => ?_
    · refine ite_ok h (fun h' => ?_) fun h => by cases h
      split at h
      · next e => rw [e]; cases h; rfl
      · cases h
    refine ite_ok h (fun h => ?_) fun h => ?_
    · obtain ⟨a, d, hl, h⟩ := withAddr_ok h
      split at h
      · cases h; rw [hl]; simp only [wireLength]; congr 1; omega
      · cases h
    refine ite_ok h (hwd _ _ fun _ _ => rfl) fun h => ?_
    refine ite_ok h (hwd _ _ fun _ _ => rfl) fun h => ?_
    refine ite_ok h (hwd _ _ fun _ _ => rfl) fun h => ?_
    refine ite_ok h (hwd _ _ fun _ _ => rfl) fun h => ?_
    refine ite_ok h (hon _ _ fun _ => rfl) fun h => ?_
    refine ite_ok h (hon _ _ fun _ => rfl) fun h => ?_
    refine ite_ok h (hon _ _ fun _ => rfl) fun h => ?_
    refine ite_ok h (hex 0 _ _ rfl) fun h => by cases h

/-- Only no byte at all is the pulse. -/
theorem decodeWire_wake {bytes : List Byte} : decodeWire cfg bytes = .ok .wWake ↔ bytes = [] := by
  constructor
  · intro h
    have := decodeWire_length h
    simp only [wireLength, Option.some.injEq] at this
    exact List.length_eq_zero_iff.1 this.symm
  · rintro rfl; rfl

/-- Which buffer a command loads, and with what address and bytes so far. -/
def Instr.load? : Instr → Option (BufId × Addr × List Byte)
  | .init => none
  | .getStatus => none
  | .getId => none
  | .readPage _ _ => none
  | .writePage _ _ => none
  | .writeBuffer _ _ => none
  | .bufferToMemory _ => none
  | .erasePage _ => none
  | .isReady => none
  | .isErrorFlagged => none
  | .setBinaryPageSize => none
  | .enterUdpd => none
  | .exitUdpd => none
  | .reserved13 => none
  | .reserved14 => none
  | .reserved15 => none
  | .wStatus => none
  | .wId => none
  | .wPsz => none
  | .wRead _ _ => none
  | .wProg1 a d => some (.one, a, d)
  | .wProg2 a d => some (.two, a, d)
  | .wBufw1 a d => some (.one, a, d)
  | .wBufw2 a d => some (.two, a, d)
  | .wB2m1 _ => none
  | .wB2m2 _ => none
  | .wErase _ => none
  | .wUdpd => none
  | .wWake => none

/-- Everything a byte of a data phase can do to the target. -/
theorem Tgt.dataByte_cases (i : Instr) (tx : Byte) (t : Tgt) :
    (t.dataByte i tx).1 = t ∨
    ∃ b a d, Instr.load? i = some (b, a, d) ∧
      t.dataByte i tx = (t.loadByte b (off a + d.length) tx, none) := by
  cases i <;> first | exact .inl rfl | exact .inr ⟨_, _, _, rfl, rfl⟩

theorem Tgt.exchange_cons (cfg : Config) (op : Byte) (args : List Byte) (tx : Byte) (t : Tgt) :
    t.exchange cfg (op :: args) tx =
      if t.hears (op == cfg.opcStatusRead) then
        if op = cfg.opcStatusRead then t.statusByte cfg args.length
        else if op = cfg.opcIdRead then (t, t.identByte args.length)
        else match decodeWire cfg (op :: args) with
          | .ok i => if (t.check cfg i).isNone then t.dataByte i tx else (t, none)
          | .error _ => (t, none)
      else (t, none) := rfl

/-- Everything an exchange can do to the target: nothing, a draw of a status read (with an opportunity
for TGT-COMPLETE), or a byte of a buffer load. -/
theorem Tgt.exchange_cases (cfg : Config) (before : List Byte) (tx : Byte) (t : Tgt) :
    (t.exchange cfg before tx).1 = t ∨
    (before.head? = some cfg.opcStatusRead ∧ (t.mode = .idle ∨ t.mode = .busy) ∧
      ((t.exchange cfg before tx).1 = t.drawn ∨
        (t.exchange cfg before tx).1 = (t.tick cfg).drawn)) ∨
    ∃ i b a d, before ≠ [] ∧ before.head? ≠ some cfg.opcStatusRead ∧ t.mode = .idle ∧
      decodeWire cfg before = .ok i ∧ t.check cfg i = none ∧ Instr.load? i = some (b, a, d) ∧
      t.exchange cfg before tx = (t.loadByte b (off a + d.length) tx, none) := by
  cases before with
  | nil => exact .inl rfl
  | cons op args =>
    rw [Tgt.exchange_cons]
    by_cases ho : op = cfg.opcStatusRead
    · subst ho
      simp only [beq_self_eq_true, if_true]
      by_cases hh : t.hears true = true
      · rw [if_pos hh]
        have hm : t.mode = .idle ∨ t.mode = .busy := by
          revert hh; unfold Tgt.hears; cases t.mode <;> simp
        unfold Tgt.statusByte
        split
        · exact .inr (.inl ⟨rfl, hm, .inl rfl⟩)
        · exact .inr (.inl ⟨rfl, hm, .inr rfl⟩)
        · exact .inl rfl
      · rw [if_neg hh]; exact .inl rfl
    · rw [if_neg ho, show (op == cfg.opcStatusRead) = false by simpa using ho]
      by_cases hh : t.hears false = true
      · have hm : t.mode = .idle := by revert hh; unfold Tgt.hears; cases t.mode <;> simp
        rw [if_pos hh]
        split
        · exact .inl rfl
        · split
          · next i hi =>
            split
            · next hc =>
              rcases t.dataByte_cases i tx with h | ⟨b, a, d, hl, h⟩
              · exact .inl h
              · exact .inr (.inr ⟨i, b, a, d, by simp, by simpa using ho, hm, hi, by simpa using hc,
                  hl, h⟩)
            · exact .inl rfl
          · exact .inl rfl
      · rw [if_neg hh]; exact .inl rfl

/-- What holds of the target after an exchange if draws, TGT-COMPLETE and loads of an idle target keep
it. -/
theorem Tgt.exchange_keeps {P : Tgt → Prop} (cfg : Config) (before : List Byte) (tx : Byte) (t : Tgt)
    (h : P t) (hd : ∀ u : Tgt, P u → P u.drawn) (ht : P (t.tick cfg))
    (hl : ∀ i b a d, t.mode = .idle → decodeWire cfg before = .ok i → Instr.load? i = some (b, a, d) →
      P (t.loadByte b (off a + d.length) tx)) :
    P (t.exchange cfg before tx).1 := by
  rcases t.exchange_cases cfg before tx with e | ⟨-, -, e | e⟩ | ⟨i, b, a, d, -, -, hm, hi, -, hb, e⟩
  · rw [e]; exact h
  · rw [e]; exact hd _ h
  · rw [e]; exact hd _ ht
  · rw [e]; exact hl i b a d hm hi hb

theorem Tgt.Wf.drawn (h : t.Wf cfg) : t.drawn.Wf cfg := h.congr rfl rfl rfl rfl rfl

theorem Tgt.Wf.exchange (h : t.Wf cfg) (before : List Byte) (tx : Byte) :
    (t.exchange cfg before tx).1.Wf cfg :=
  Tgt.exchange_keeps cfg before tx t h (fun _ h => h.drawn) h.tick fun _ b _ _ _ _ _ => h.loadByte b _ _

/-- An exchange of anything but a status read changes the buffers only. -/
theorem Tgt.exchange_frame {before : List Byte} (hs : before.head? ≠ some cfg.opcStatusRead) (tx : Byte) (t : Tgt) :
    let u := (t.exchange cfg before tx).1
    u.mode = t.mode ∧ u.pending = t.pending ∧ u.main = t.main ∧ u.nvBinary = t.nvBinary ∧
      u.epe = t.epe ∧ u.devId = t.devId ∧ u.density = t.density ∧ u.nvCycles = t.nvCycles ∧
      u.fate = t.fate ∧ u.free = t.free := by
  rcases t.exchange_cases cfg before tx with e | ⟨h, -⟩ | ⟨i, b, a, d, -, -, -, -, -, -, e⟩
  · rw [e]; simp
  · exact absurd h hs
  · rw [e]; simp

/-- An exchange keeps the chip's constants (10_state.md R29). -/
theorem Tgt.exchange_const (cfg : Config) (before : List Byte) (tx : Byte) (t : Tgt) :
    (t.exchange cfg before tx).1.devId = t.devId ∧ (t.exchange cfg before tx).1.density = t.density :=
  Tgt.exchange_keeps (P := fun u => u.devId = t.devId ∧ u.density = t.density) cfg before tx t
    ⟨rfl, rfl⟩ (fun _ h => h) (by simp) (by simp)

/-! ### Exchanges one after the other -/

@[simp] theorem Tgt.exchanges_nil (cfg : Config) (before : List Byte) (t : Tgt) :
    Tgt.exchanges cfg before [] t = (t, []) := rfl

theorem Tgt.exchanges_cons (cfg : Config) (before : List Byte) (tx : Byte) (txs : List Byte) (t : Tgt) :
    Tgt.exchanges cfg before (tx :: txs) t =
      ((Tgt.exchanges cfg (before ++ [tx]) txs (t.exchange cfg before tx).1).1,
        (t.exchange cfg before tx).2 ::
          (Tgt.exchanges cfg (before ++ [tx]) txs (t.exchange cfg before tx).1).2) := rfl

theorem Tgt.exchanges_append (cfg : Config) (before xs ys : List Byte) (t : Tgt) :
    Tgt.exchanges cfg before (xs ++ ys) t =
      ((Tgt.exchanges cfg (before ++ xs) ys (Tgt.exchanges cfg before xs t).1).1,
        (Tgt.exchanges cfg before xs t).2 ++
          (Tgt.exchanges cfg (before ++ xs) ys (Tgt.exchanges cfg before xs t).1).2) := by
  induction xs generalizing before t with
  | nil => simp
  | cons x xs ih => simp [Tgt.exchanges_cons, ih]

@[simp] theorem Tgt.exchanges_length (cfg : Config) (before txs : List Byte) (t : Tgt) :
    (Tgt.exchanges cfg before txs t).2.length = txs.length := by
  induction txs generalizing before t with
  | nil => rfl
  | cons x xs ih => simp [Tgt.exchanges_cons, ih]

/-- A predicate every exchange of a transaction keeps. -/
theorem Tgt.exchanges_induct {P : Tgt → Prop} {cfg : Config} (before txs : List Byte) (t : Tgt)
    (h : P t) (hx : ∀ (pre post : List Byte) (tx : Byte) (u : Tgt), txs = pre ++ tx :: post → P u →
      P (u.exchange cfg (before ++ pre) tx).1) :
    P (Tgt.exchanges cfg before txs t).1 := by
  induction txs generalizing before t with
  | nil => exact h
  | cons x xs ih =>
    refine ih (before ++ [x]) (t.exchange cfg before x).1 (by simpa using hx [] xs x t rfl h) fun pre post tx u e hu => ?_
    have := hx (x :: pre) post tx u (by simp [e]) hu
    simpa using this

theorem Tgt.Wf.exchanges (h : t.Wf cfg) (before txs : List Byte) :
    (Tgt.exchanges cfg before txs t).1.Wf cfg :=
  Tgt.exchanges_induct before txs t h fun _ _ tx _ _ hu => hu.exchange _ tx

theorem Tgt.exchanges_const (cfg : Config) (before txs : List Byte) (t : Tgt) :
    (Tgt.exchanges cfg before txs t).1.devId = t.devId ∧
      (Tgt.exchanges cfg before txs t).1.density = t.density :=
  Tgt.exchanges_induct (P := fun u => u.devId = t.devId ∧ u.density = t.density) before txs t
    ⟨rfl, rfl⟩ fun pre _ tx u _ hu => by
      have := u.exchange_const cfg (before ++ pre) tx
      exact ⟨this.1.trans hu.1, this.2.trans hu.2⟩

/-- A whole transaction of anything but a status read changes the buffers only, before its `CS1`. -/
theorem Tgt.exchanges_frame {bytes : List Byte} (hs : bytes.head? ≠ some cfg.opcStatusRead) (t : Tgt) :
    let u := (Tgt.exchanges cfg [] bytes t).1
    u.mode = t.mode ∧ u.pending = t.pending ∧ u.main = t.main ∧ u.nvBinary = t.nvBinary ∧
      u.epe = t.epe ∧ u.devId = t.devId ∧ u.density = t.density ∧ u.nvCycles = t.nvCycles ∧
      u.fate = t.fate ∧ u.free = t.free := by
  refine Tgt.exchanges_induct (P := fun u => u.mode = t.mode ∧ u.pending = t.pending ∧
    u.main = t.main ∧ u.nvBinary = t.nvBinary ∧ u.epe = t.epe ∧ u.devId = t.devId ∧
    u.density = t.density ∧ u.nvCycles = t.nvCycles ∧ u.fate = t.fate ∧ u.free = t.free) [] bytes t
    (by simp) fun pre post tx u e hu => ?_
  have hp : ([] ++ pre).head? ≠ some cfg.opcStatusRead := by
    cases pre with
    | nil => simp
    | cons p ps => subst e; simpa using hs
  obtain ⟨h1, h2, h3, h4, h5, h6, h7, h8, h9, h10⟩ := Tgt.exchange_frame hp tx u
  obtain ⟨g1, g2, g3, g4, g5, g6, g7, g8, g9, g10⟩ := hu
  exact ⟨h1.trans g1, h2.trans g2, h3.trans g3, h4.trans g4, h5.trans g5, h6.trans g6, h7.trans g7,
    h8.trans g8, h9.trans g9, h10.trans g10⟩

/-! ### The commands, exchange by exchange -/

/-- The target does nothing and answers nothing defined after these bytes. -/
def Tgt.Quiet (cfg : Config) (before : List Byte) (t : Tgt) : Prop :=
  ∀ tx, t.exchange cfg before tx = (t, none)

theorem Tgt.exchanges_quiet {before : List Byte} (txs : List Byte)
    (h : ∀ pre post, txs = pre ++ post → post ≠ [] → t.Quiet cfg (before ++ pre)) :
    Tgt.exchanges cfg before txs t = (t, txs.map fun _ => none) := by
  induction txs generalizing before with
  | nil => rfl
  | cons x xs ih =>
    have hx : t.exchange cfg before x = (t, none) := by
      simpa using h [] (x :: xs) rfl (by simp) x
    rw [Tgt.exchanges_cons, hx]
    simp only
    rw [ih fun pre post e hp => by simpa using h (x :: pre) post (by simp [e]) hp]
    rfl

/-- A target that does not follow the transaction. -/
theorem Tgt.quiet_deaf {before : List Byte}
    (h : t.mode = .udpd ∨ t.mode = .dpd ∨ (t.mode = .busy ∧ before.head? ≠ some cfg.opcStatusRead)) :
    t.Quiet cfg before := by
  intro tx
  cases before with
  | nil => rfl
  | cons op args =>
    rw [Tgt.exchange_cons]; unfold Tgt.hears
    rcases h with h | h | ⟨h, hb⟩
    · simp [h]
    · simp [h]
    · simp at hb; simp [h, hb]

/-- The opcode of a command that answers or loads after its header only. -/
def plainOpcode (cfg : Config) (op : Byte) : Prop := op ≠ cfg.opcStatusRead ∧ op ≠ cfg.opcIdRead

/-- The first bytes of such a command: no data byte comes before the fifth byte, and none of a page read
before the ninth. -/
theorem Tgt.quiet_header {op : Byte} (ho : plainOpcode cfg op) (args : List Byte)
    (h : args.length < 3) : t.Quiet cfg (op :: args) := by
  intro tx
  rw [Tgt.exchange_cons]
  rw [if_neg ho.1, if_neg ho.2]
  split
  · split
    · next i hi =>
      split
      · have hl := decodeWire_length hi
        simp only [List.length_cons] at hl
        cases i <;> first | rfl | (simp [wireLength] at hl; omega)
      · rfl
    · rfl
  · rfl

theorem decodeWire_pageRead_short {args : List Byte} (hw : cfg.wf = true) (h : args.length < 7) :
    ∃ e, decodeWire cfg (cfg.opcPageRead :: args) = .error e := by
  have := Config.opcodes_apart hw
  simp [Config.firstBytes] at this
  simp only [decodeWire, this, if_true, if_false, withAddr]
  split
  · next a2 a1 a0 d => exact ⟨_, by rw [if_neg (by simp at h; omega)]⟩
  · exact ⟨_, rfl⟩

theorem plain_opcodes (hw : cfg.wf = true) :
    plainOpcode cfg cfg.psz0 ∧ plainOpcode cfg cfg.opcPageRead ∧
    (∀ b, plainOpcode cfg (progOpcode cfg b)) ∧ (∀ b, plainOpcode cfg (bufwOpcode cfg b)) ∧
    (∀ b, plainOpcode cfg (b2mOpcode cfg b)) ∧ plainOpcode cfg cfg.opcPageErase ∧
    plainOpcode cfg cfg.opcUdpd := by
  have := Config.opcodes_apart hw
  simp [Config.firstBytes] at this
  simp [plainOpcode, progOpcode, bufwOpcode, b2mOpcode, this]

/-- The header of a page read. -/
theorem Tgt.quiet_pageRead (hw : cfg.wf = true) (args : List Byte) (h : args.length < 7) :
    t.Quiet cfg (cfg.opcPageRead :: args) := by
  intro tx
  obtain ⟨e, he⟩ := decodeWire_pageRead_short hw h
  have ho := (plain_opcodes hw).2.1
  rw [Tgt.exchange_cons]
  rw [if_neg ho.1, if_neg ho.2, he]
  split <;> rfl

/-- A header of four bytes. -/
theorem Tgt.exchanges_header {op : Byte} (ho : plainOpcode cfg op) (args : List Byte)
    (h : args.length ≤ 3) (t : Tgt) :
    Tgt.exchanges cfg [] (op :: args) t = (t, (op :: args).map fun _ => none) := by
  refine Tgt.exchanges_quiet _ fun pre post e hp => ?_
  cases pre with
  | nil => exact fun _ => rfl
  | cons p ps =>
    simp only [List.cons_append, List.cons.injEq] at e
    obtain ⟨rfl, rfl⟩ := e
    have : post.length ≠ 0 := by simpa using hp
    exact Tgt.quiet_header ho ps (by simp at h; omega)

/-- The header of a page read and the dummies in it. -/
theorem Tgt.exchanges_readHeader (hw : cfg.wf = true) (a : Addr) (t : Tgt) :
    Tgt.exchanges cfg [] (readHeader cfg a) t = (t, (readHeader cfg a).map fun _ => none) := by
  refine Tgt.exchanges_quiet _ fun pre post e hp => ?_
  cases pre with
  | nil => exact fun _ => rfl
  | cons p ps =>
    simp only [readHeader, List.cons_append, List.cons.injEq] at e
    obtain ⟨rfl, e⟩ := e
    have hl := congrArg List.length e
    have : post.length ≠ 0 := by simpa using hp
    simp at hl
    exact Tgt.quiet_pageRead hw ps (by omega)

/-- The data phase of a command that loads a buffer, on an idle target that passes its checks. -/
theorem Tgt.exchanges_load {op : Byte} {args : List Byte} (ho : plainOpcode cfg op) (b : BufId) (a : Addr)
    (i : List Byte → Instr) (hi : ∀ d, decodeWire cfg (op :: args ++ d) = .ok (i d))
    (hd : ∀ d tx (u : Tgt), u.dataByte (i d) tx = (u.loadByte b (off a + d.length) tx, none))
    (hm : t.mode = .idle)
    (hc : ∀ d (u : Tgt), u.nvBinary = t.nvBinary → u.check cfg (i d) = none) (d data : List Byte) :
    Tgt.exchanges cfg (op :: args ++ d) data t =
      (Tgt.loadBytes b (off a + d.length) data t, data.map fun _ => none) := by
  induction data generalizing t d with
  | nil => rfl
  | cons x xs ih =>
    have hx : t.exchange cfg (op :: args ++ d) x = (t.loadByte b (off a + d.length) x, none) := by
      rw [show op :: args ++ d = op :: (args ++ d) from rfl]
      rw [Tgt.exchange_cons]; unfold Tgt.hears
      rw [if_neg ho.1, if_neg ho.2, hm, show op :: (args ++ d) = op :: args ++ d from rfl, hi]
      simp [hc d t rfl, hd]
    rw [Tgt.exchanges_cons, hx]
    simp only
    rw [show op :: args ++ d ++ [x] = op :: args ++ (d ++ [x]) by simp,
      ih (by simpa using hm) (by simpa using hc) (d ++ [x]), Tgt.loadBytes_cons]
    simp [Nat.add_assoc]

/-- The data phase of a page read, on an idle target that passes its checks. -/
theorem Tgt.exchange_read (hw : cfg.wf = true) (a : Addr) (k : Nat) (tx : Byte) (hm : t.mode = .idle)
    (hc : t.check cfg (.wRead a k) = none) :
    t.exchange cfg (readHeader cfg a ++ List.replicate k cfg.dummy) tx = (t, t.pageCell a k) := by
  have ho := (plain_opcodes hw).2.1
  have hd := decodeWire_read hw a k
  simp only [readHeader, List.cons_append] at hd ⊢
  rw [Tgt.exchange_cons]; unfold Tgt.hears
  rw [if_neg ho.1, if_neg ho.2, hm, hd]
  simp [hc, Tgt.dataByte]

theorem Tgt.exchanges_read (hw : cfg.wf = true) (a : Addr) (k n : Nat) (hm : t.mode = .idle)
    (hc : ∀ k, t.check cfg (.wRead a k) = none) :
    Tgt.exchanges cfg (readHeader cfg a ++ List.replicate k cfg.dummy) (List.replicate n cfg.dummy) t =
      (t, (List.range n).map fun i => t.pageCell a (k + i)) := by
  induction n generalizing k with
  | zero => rfl
  | succ n ih =>
    rw [List.replicate_succ, Tgt.exchanges_cons, Tgt.exchange_read hw a k _ hm (hc k)]
    simp only [List.append_assoc]
    rw [← List.replicate_succ', ih (k + 1), List.range_succ_eq_map]
    simp [Nat.add_assoc, Nat.add_comm 1]

/-- A status read, on a target that answers one (47_target.md R171). -/
theorem Tgt.exchanges_status (cfg : Config) (x y : Byte) (hm : t.mode = .idle ∨ t.mode = .busy) :
    Tgt.exchanges cfg [] [cfg.opcStatusRead, x, y] t =
      ((t.drawn.tick cfg).drawn, [none, some t.byte1, some (t.drawn.tick cfg).byte2]) := by
  have h : ∀ u : Tgt, u.mode = t.mode → u.hears true = true := by
    intro u hu; unfold Tgt.hears; rw [hu]; rcases hm with hm | hm <;> simp [hm]
  simp [Tgt.exchanges_cons, Tgt.exchange, h t rfl, h t.drawn rfl, Tgt.statusByte]

/-- An identifier read, on an idle target (R172). -/
theorem Tgt.exchanges_ident (hw : cfg.wf = true) (x y z : Byte) (hm : t.mode = .idle) :
    Tgt.exchanges cfg [] [cfg.opcIdRead, x, y, z] t =
      (t, [none, some (t.devId.extractLsb' 16 8), some (t.devId.extractLsb' 8 8),
        some (t.devId.extractLsb' 0 8)]) := by
  have := Config.opcodes_apart hw
  simp [Config.firstBytes] at this
  simp [Tgt.exchanges_cons, Tgt.exchange, Tgt.hears, hm, Tgt.identByte, this]

/-! ### The `CS1` -/

/-- What the target makes of a transaction does not depend on its memories or draws. -/
theorem Tgt.verdict_congr {u : Tgt} (bytes : List Byte) (hm : u.mode = t.mode)
    (hb : u.nvBinary = t.nvBinary) (hn : u.nvCycles = t.nvCycles) :
    u.verdict cfg bytes = t.verdict cfg bytes := by
  have hc : ∀ i, u.check cfg i = t.check cfg i := by
    intro i; cases i <;> simp [Tgt.check, Tgt.pageCheck, hb, hn]
  unfold Tgt.verdict
  rw [hm]
  split
  · next i hi => rw [hc i]
  · rfl

/-- A target that passes the gate and the checks takes the command. -/
theorem Tgt.verdict_ok {bytes : List Byte} {i : Instr} (hi : decodeWire cfg bytes = .ok i)
    (hg : gate t.mode bytes.length (i == .wStatus) = none) (hc : t.check cfg i = none) :
    t.verdict cfg bytes = .ok i := by
  simp [Tgt.verdict, hi, hg, hc]

theorem Tgt.verdict_idle {bytes : List Byte} {i : Instr} (hi : decodeWire cfg bytes = .ok i)
    (hm : t.mode = .idle) (hc : t.check cfg i = none) : t.verdict cfg bytes = .ok i :=
  Tgt.verdict_ok hi (by simp [hm, gate]) hc

/-- What a taken command implies. -/
theorem Tgt.of_verdict_ok {bytes : List Byte} {i : Instr} (h : t.verdict cfg bytes = .ok i) :
    decodeWire cfg bytes = .ok i ∧ gate t.mode bytes.length (i == .wStatus) = none ∧
      t.check cfg i = none := by
  unfold Tgt.verdict at h
  split at h
  · next j hj =>
    cases hg : gate t.mode bytes.length (j == .wStatus) <;> cases hc : t.check cfg j <;>
      simp only [hg, hc] at h <;> first | (cases h; exact ⟨hj, hg, hc⟩) | cases h
  · split at h <;> cases h

theorem Tgt.latch_ok {bytes : List Byte} {i : Instr} (h : t.verdict cfg bytes = .ok i) :
    t.latch cfg bytes = (t.commit cfg i, none) := by simp [Tgt.latch, h]

theorem Tgt.latch_error {bytes : List Byte} {f : TgtFault} (h : t.verdict cfg bytes = .error f) :
    t.latch cfg bytes = (t, some f) := by simp [Tgt.latch, h]

/-- Everything the `CS1` can do: the command's effect, or a fault and nothing. -/
theorem Tgt.latch_cases (cfg : Config) (bytes : List Byte) (t : Tgt) :
    (∃ i, t.verdict cfg bytes = .ok i ∧ t.latch cfg bytes = (t.commit cfg i, none)) ∨
    ∃ f, t.verdict cfg bytes = .error f ∧ t.latch cfg bytes = (t, some f) := by
  cases h : t.verdict cfg bytes with
  | ok i => exact .inl ⟨i, rfl, Tgt.latch_ok h⟩
  | error f => exact .inr ⟨f, rfl, Tgt.latch_error h⟩

/-- A busy target takes the status read and the pulse only, one in a power-down the pulse only. -/
theorem Tgt.mode_of_verdict {bytes : List Byte} {i : Instr} (h : t.verdict cfg bytes = .ok i) :
    t.mode = .idle ∨ i = .wWake ∨ (i = .wStatus ∧ t.mode = .busy) := by
  obtain ⟨hi, hg, -⟩ := Tgt.of_verdict_ok h
  rw [gate_none] at hg
  have h0 : bytes.length = 0 → i = .wWake := by
    intro e
    have : bytes = [] := by simpa using e
    subst this; simpa [decodeWire, eq_comm] using hi
  rcases hg with hm | ⟨hm, e | e⟩ | ⟨-, e⟩
  · exact .inl hm
  · exact .inr (.inl (h0 e))
  · exact .inr (.inr ⟨by simpa using e, hm⟩)
  · exact .inr (.inl (h0 e))

theorem page_of_check {i : Instr} {a : Addr} (hi : i.rewrites = some a) (h : t.check cfg i = none) :
    page a < cfg.nPages := by
  have hp : t.pageCheck cfg a = none → page a < cfg.nPages := by
    unfold Tgt.pageCheck
    intro h
    split at h
    · assumption
    · cases h
  cases i <;> simp only [Instr.rewrites, reduceCtorEq, Option.some.injEq] at hi <;>
    first | (subst hi; exact hp h) | cases h

theorem Tgt.Wf.commit (h : t.Wf cfg) {bytes : List Byte} {i : Instr}
    (hv : t.verdict cfg bytes = .ok i) : (t.commit cfg i).Wf cfg := by
  have hc := (Tgt.of_verdict_ok hv).2.2
  cases i with
  | wPsz =>
    exact (h.congr (u := { t with nvCycles := t.nvCycles + 1 }) rfl rfl rfl rfl rfl).startBusy _
      (by simp [Work.page?])
  | wProg1 a d =>
    exact (h.forgetPage _).startBusy _ (by simpa [Work.page?] using page_of_check rfl hc)
  | wProg2 a d =>
    exact (h.forgetPage _).startBusy _ (by simpa [Work.page?] using page_of_check rfl hc)
  | wB2m1 a => exact (h.forgetPage _).startBusy _ (by simpa [Work.page?] using page_of_check rfl hc)
  | wB2m2 a => exact (h.forgetPage _).startBusy _ (by simpa [Work.page?] using page_of_check rfl hc)
  | wErase a => exact (h.forgetPage _).startBusy _ (by simpa [Work.page?] using page_of_check rfl hc)
  | wUdpd =>
    have hm : t.mode = .idle := by rcases Tgt.mode_of_verdict hv with e | e | ⟨e, -⟩ <;> simp_all
    exact h.remode (by simp [hm]) (u := { t with mode := .udpd }) (by simp) rfl rfl
      h.buf1Wf h.buf2Wf h.buf1Below h.buf2Below
  | _ => exact h

theorem Tgt.Wf.latch (h : t.Wf cfg) (bytes : List Byte) : (t.latch cfg bytes).1.Wf cfg := by
  rcases t.latch_cases cfg bytes with ⟨i, hv, e⟩ | ⟨f, -, e⟩ <;> rw [e]
  · exact h.commit hv
  · exact h

theorem Tgt.commit_const (cfg : Config) (i : Instr) (t : Tgt) :
    (t.commit cfg i).devId = t.devId ∧ (t.commit cfg i).density = t.density := by
  cases i <;> exact ⟨rfl, rfl⟩

theorem Tgt.latch_const (cfg : Config) (bytes : List Byte) (t : Tgt) :
    (t.latch cfg bytes).1.devId = t.devId ∧ (t.latch cfg bytes).1.density = t.density := by
  rcases t.latch_cases cfg bytes with ⟨i, -, e⟩ | ⟨f, -, e⟩ <;> rw [e]
  · exact t.commit_const cfg i
  · exact ⟨rfl, rfl⟩

/-- The `CS1` keeps the buffers. -/
theorem Tgt.commit_buffers (cfg : Config) (i : Instr) (t : Tgt) :
    (t.commit cfg i).buf1 = t.buf1 ∧ (t.commit cfg i).buf2 = t.buf2 := by
  cases i <;> exact ⟨rfl, rfl⟩

theorem Tgt.latch_buffers (cfg : Config) (bytes : List Byte) (t : Tgt) :
    (t.latch cfg bytes).1.buf1 = t.buf1 ∧ (t.latch cfg bytes).1.buf2 = t.buf2 := by
  rcases t.latch_cases cfg bytes with ⟨i, -, e⟩ | ⟨f, -, e⟩ <;> rw [e]
  · exact t.commit_buffers cfg i
  · exact ⟨rfl, rfl⟩

/-- A command that neither programs nor erases keeps the main array at its `CS1`. -/
theorem Tgt.commit_main (cfg : Config) {i : Instr} (h : i.rewrites = none) (t : Tgt) :
    (t.commit cfg i).main = t.main := by
  cases i <;> first | rfl | cases h

/-! ### The wake -/

/-- Everything the settle time can do. -/
theorem Tgt.settle_cases (t : Tgt) :
    (t.mode = .udpd ∧ t.settle = t.wakeUp) ∨ (t.mode ≠ .udpd ∧ t.settle = t) := by
  unfold Tgt.settle; split <;> simp_all

theorem Tgt.settle_of_ne (h : t.mode ≠ .udpd) : t.settle = t := by
  rcases t.settle_cases with ⟨e, -⟩ | ⟨-, e⟩
  · exact absurd e h
  · exact e

theorem Tgt.Wf.settle (h : t.Wf cfg) : t.settle.Wf cfg := by
  rcases t.settle_cases with ⟨hu, e⟩ | ⟨-, e⟩ <;> rw [e]
  · exact h.remode (by simp [hu]) (by simp) rfl rfl (by simp) (by simp) (by simp) (by simp)
  · exact h

theorem Tgt.settle_const (t : Tgt) : t.settle.devId = t.devId ∧ t.settle.density = t.density := by
  rcases t.settle_cases with ⟨-, e⟩ | ⟨-, e⟩ <;> rw [e] <;> simp

end Sys2Proof.Machine
end

