-- ==== Sys2Proof/Laws/Ops.lean ====
section
/-! SUPPORT. The laws of the primitive calls and of what follows a piece: which fields each keeps, whatever the
target does; what a list of calls does when no reset strikes; and that every advance of SEQ keeps the invariant. -/

namespace Sys2Proof.Machine

/-! ### What a primitive call leaves alone -/

@[simp] theorem State.perform_cfg (s : State) (c : Call) : (s.perform c).1.cfg = s.cfg := by
  cases c with
  | xchg tx sink => cases sink <;> rfl
  | _ => rfl
@[simp] theorem State.perform_requests (s : State) (c : Call) : (s.perform c).1.requests = s.requests := by
  cases c with
  | xchg tx sink => cases sink <;> rfl
  | _ => rfl
@[simp] theorem State.perform_resetIn (s : State) (c : Call) : (s.perform c).1.resetIn = s.resetIn := by
  cases c with
  | xchg tx sink => cases sink <;> rfl
  | _ => rfl
@[simp] theorem State.perform_wireRx (s : State) (c : Call) : (s.perform c).1.wireRx = s.wireRx := by
  cases c with
  | xchg tx sink => cases sink <;> rfl
  | _ => rfl
@[simp] theorem State.perform_seq_idCache (s : State) (c : Call) : (s.perform c).1.seq.idCache = s.seq.idCache := by
  cases c with
  | xchg tx sink => cases sink <;> rfl
  | _ => rfl
@[simp] theorem State.perform_seq_pwSel (s : State) (c : Call) : (s.perform c).1.seq.pwSel = s.seq.pwSel := by
  cases c with
  | xchg tx sink => cases sink <;> rfl
  | _ => rfl
@[simp] theorem State.perform_seq_bwSel (s : State) (c : Call) : (s.perform c).1.seq.bwSel = s.seq.bwSel := by
  cases c with
  | xchg tx sink => cases sink <;> rfl
  | _ => rfl
@[simp] theorem State.perform_seq_pc (s : State) (c : Call) : (s.perform c).1.seq.pc = s.seq.pc := by
  cases c with
  | xchg tx sink => cases sink <;> rfl
  | _ => rfl
@[simp] theorem State.perform_seq_resp (s : State) (c : Call) : (s.perform c).1.seq.resp = s.seq.resp := by
  cases c with
  | xchg tx sink => cases sink <;> rfl
  | _ => rfl
/-- The level of chip-select after a call. -/
def Call.csAfter (cs : Bool) : Call → Bool
  | .csAssert => false
  | .csDeassert => true
  | .xchg _ _ => cs
  | .delay _ => cs
  | .setClock _ => cs

@[simp] theorem State.perform_seq_cs (s : State) (c : Call) :
    (s.perform c).1.seq.cs = c.csAfter s.seq.cs := by
  cases c with
  | xchg tx sink => cases sink <;> rfl
  | _ => rfl

/-- A call appends one event, which is what it drives with, perhaps, the byte received. -/
theorem State.perform_trace (s : State) (c : Call) :
    ∃ e, e.driven = c.driven ∧ (s.perform c).1.seq.trace = s.seq.trace ++ [e] := by
  cases c with
  | xchg tx sink => cases sink <;> exact ⟨_, rfl, rfl⟩
  | _ => exact ⟨_, rfl, rfl⟩

theorem State.perform_driven (s : State) (c : Call) :
    (s.perform c).1.seq.trace.map BusEvent.driven = s.seq.trace.map BusEvent.driven ++ [c.driven] := by
  obtain ⟨e, he, h⟩ := s.perform_trace c
  simp [h, he]

/-- A call keeps one byte at most. -/
theorem State.perform_kept (s : State) (c : Call) : (s.perform c).2.length ≤ 1 := by
  cases c with
  | xchg tx sink => cases sink <;> simp [State.perform, State.xchg]
  | _ => simp [State.perform]

/-- Only `SetClock` sets the clock. -/
theorem State.perform_clkHz (s : State) (c : Call) (h : ∀ hz, c ≠ .setClock hz) :
    (s.perform c).1.seq.clkHz = s.seq.clkHz := by
  cases c with
  | xchg tx sink => cases sink <;> rfl
  | setClock hz => exact absurd rfl (h hz)
  | _ => rfl

/-- The bytes of a transaction's calls. -/
def Call.byte? : Call → Option Byte
  | .csAssert => none
  | .csDeassert => none
  | .xchg tx _ => some tx
  | .delay _ => none
  | .setClock _ => none

/-- The target's answer to an exchange of SEQ. -/
def State.answer (s : State) (tx : Byte) : Tgt × Option Byte :=
  if s.reaches then s.tgt.exchange s.cfg s.shifted tx else (s.tgt, none)

theorem State.xchg_discard (s : State) (tx : Byte) :
    s.xchg tx .discard =
      ({ s with
         tgt := (s.answer tx).1
         shifted := s.shifted ++ [tx]
         seq := { s.seq with trace := s.seq.trace ++ [.x tx none] } }, []) := rfl

theorem State.xchg_keep (s : State) (tx : Byte) :
    s.xchg tx .keep =
      ({ s with
         tgt := { (s.answer tx).1 with free := ((s.answer tx).1.free.receive (s.answer tx).2).2 }
         shifted := s.shifted ++ [tx]
         seq := { s.seq with trace := s.seq.trace ++
           [.x tx (some ((s.answer tx).1.free.receive (s.answer tx).2).1)] } },
       [((s.answer tx).1.free.receive (s.answer tx).2).1]) := rfl

theorem State.xchg_hostOut (s : State) (tx : Byte) (i : Nat) :
    s.xchg tx (.hostOut i) =
      ({ s with
         tgt := { (s.answer tx).1 with free := ((s.answer tx).1.free.receive (s.answer tx).2).2 }
         shifted := s.shifted ++ [tx]
         seq := { s.seq with
           trace := s.seq.trace ++ [.x tx (some ((s.answer tx).1.free.receive (s.answer tx).2).1)]
           hostBuf := hostOut i ((s.answer tx).1.free.receive (s.answer tx).2).1 s.seq.hostBuf } },
       []) := rfl

/-- The target after an exchange, whatever becomes of the byte: the answer's, with draws taken. -/
theorem State.xchg_tgt (s : State) (tx : Byte) (sink : Sink) :
    ∃ d, (s.xchg tx sink).1.tgt = { (s.answer tx).1 with free := d } := by
  cases sink
  · exact ⟨_, rfl⟩
  · exact ⟨_, rfl⟩
  · exact ⟨_, rfl⟩

@[simp] theorem State.xchg_shifted (s : State) (tx : Byte) (sink : Sink) :
    (s.xchg tx sink).1.shifted = s.shifted ++ [tx] := by cases sink <;> rfl

@[simp] theorem State.xchg_tgtFault (s : State) (tx : Byte) (sink : Sink) :
    (s.xchg tx sink).1.tgtFault = s.tgtFault := by cases sink <;> rfl

@[simp] theorem State.xchg_reaches (s : State) (tx : Byte) (sink : Sink) :
    (s.xchg tx sink).1.reaches = s.reaches := by cases sink <;> rfl

/-- `CsDeassert()` as the target sees it. -/
def State.edge (s : State) : Tgt × Option TgtFault :=
  if s.reaches && !s.seq.cs then s.tgt.latch s.cfg s.shifted else (s.tgt, none)

theorem State.csDeassert_eq (s : State) :
    s.csDeassert =
      { s with
        tgt := s.edge.1
        tgtFault := s.tgtFault <|> s.edge.2
        shifted := []
        seq := { s.seq with trace := s.seq.trace ++ [.cs1], cs := true } } := rfl

@[simp] theorem State.csDeassert_tgt (s : State) : s.csDeassert.tgt = s.edge.1 := rfl
@[simp] theorem State.csDeassert_tgtFault (s : State) :
    s.csDeassert.tgtFault = (s.tgtFault <|> s.edge.2) := rfl

/-! ### What follows a piece -/

/-- Everything that can follow the last call of a piece: `return`, perhaps after the wake, or the first
position of another piece, the identifier cached or kept. -/
theorem State.endStage_cases (s : State) (g : Stage) (kept : List Byte) :
    (∃ id v, s.endStage g kept =
      ((if g = .exitUdpd then s.settle else s).cacheId id).respond v ∧
        (id = s.seq.idCache ∨ id = 0 ∨ id = identOf kept)) ∨
    ∃ id g' cs, s.endStage g kept = (s.cacheId id).begin g' cs ∧
      (id = s.seq.idCache ∨ id = 0 ∨ id = identOf kept) ∧
      (cs = statusCalls s.cfg ∨ (cs = sendCalls (pageSizeBytes s.cfg) ∧ g'.isPoll = false)) ∧
      g' ≠ .exitUdpd ∧ g' ≠ .getId ∧ g' ≠ .initIdent := by
  have keep : s = s.cacheId s.seq.idCache := rfl
  have ret : ∀ c ok, ∃ id v, s.pageSizeReturn c ok = (s.cacheId id).respond v ∧
      (id = s.seq.idCache ∨ id = 0 ∨ id = identOf kept) := by
    intro c ok
    cases c <;> cases ok
    · exact ⟨_, _, rfl, .inl rfl⟩
    · exact ⟨_, _, rfl, .inl rfl⟩
    · exact ⟨0, _, rfl, .inr (.inl rfl)⟩
    · exact ⟨_, _, rfl, .inl rfl⟩
  cases g with
  | getId => exact .inl ⟨_, _, rfl, .inr (.inr rfl)⟩
  | sizeCheck c =>
    simp only [State.endStage]; split
    · obtain ⟨id, v, h⟩ := ret c true; exact .inl ⟨id, v, h⟩
    · exact .inr ⟨_, _, _, rfl, .inl rfl, .inr ⟨rfl, rfl⟩, by simp⟩
  | sizeSwitch c => exact .inr ⟨_, _, _, rfl, .inl rfl, .inl rfl, by simp⟩
  | sizePoll c =>
    simp only [State.endStage]; split
    · exact .inr ⟨_, _, _, rfl, .inl rfl, .inl rfl, by simp⟩
    · exact .inr ⟨_, _, _, rfl, .inl rfl, .inl rfl, by simp⟩
  | sizeRecheck c =>
    obtain ⟨id, v, h⟩ := ret c (binary (statusOf kept)); exact .inl ⟨id, v, h⟩
  | initIdent =>
    simp only [State.endStage]; split
    · exact .inr ⟨_, _, _, rfl, .inr (.inr rfl), .inl rfl, by simp⟩
    · split
      · exact .inr ⟨0, _, _, rfl, .inr (.inl rfl), .inl rfl, by simp⟩
      · exact .inl ⟨0, _, rfl, .inr (.inl rfl)⟩
  | initStatus =>
    simp only [State.endStage]; split
    · exact .inl ⟨_, _, rfl, .inl rfl⟩
    · exact .inr ⟨_, _, _, rfl, .inl rfl, .inl rfl, by simp⟩
  | _ => exact .inl ⟨_, _, rfl, .inl rfl⟩

@[simp] theorem State.endStage_cfg (s : State) (g : Stage) (k : List Byte) : (s.endStage g k).cfg = s.cfg := by
  rcases s.endStage_cases g k with ⟨id, v, e, -⟩ | ⟨id, g', cs, e, -⟩ <;> rw [e]
  · split <;> rfl
  · rfl
@[simp] theorem State.endStage_shifted (s : State) (g : Stage) (k : List Byte) : (s.endStage g k).shifted = s.shifted := by
  rcases s.endStage_cases g k with ⟨id, v, e, -⟩ | ⟨id, g', cs, e, -⟩ <;> rw [e]
  · split <;> rfl
  · rfl
@[simp] theorem State.endStage_tgtFault (s : State) (g : Stage) (k : List Byte) : (s.endStage g k).tgtFault = s.tgtFault := by
  rcases s.endStage_cases g k with ⟨id, v, e, -⟩ | ⟨id, g', cs, e, -⟩ <;> rw [e]
  · split <;> rfl
  · rfl
@[simp] theorem State.endStage_requests (s : State) (g : Stage) (k : List Byte) : (s.endStage g k).requests = s.requests := by
  rcases s.endStage_cases g k with ⟨id, v, e, -⟩ | ⟨id, g', cs, e, -⟩ <;> rw [e]
  · split <;> rfl
  · rfl
@[simp] theorem State.endStage_resetIn (s : State) (g : Stage) (k : List Byte) : (s.endStage g k).resetIn = s.resetIn := by
  rcases s.endStage_cases g k with ⟨id, v, e, -⟩ | ⟨id, g', cs, e, -⟩ <;> rw [e]
  · split <;> rfl
  · rfl
@[simp] theorem State.endStage_wireRx (s : State) (g : Stage) (k : List Byte) : (s.endStage g k).wireRx = s.wireRx := by
  rcases s.endStage_cases g k with ⟨id, v, e, -⟩ | ⟨id, g', cs, e, -⟩ <;> rw [e]
  · split <;> rfl
  · rfl
@[simp] theorem State.endStage_seq_pwSel (s : State) (g : Stage) (k : List Byte) : (s.endStage g k).seq.pwSel = s.seq.pwSel := by
  rcases s.endStage_cases g k with ⟨id, v, e, -⟩ | ⟨id, g', cs, e, -⟩ <;> rw [e]
  · split <;> rfl
  · rfl
@[simp] theorem State.endStage_seq_bwSel (s : State) (g : Stage) (k : List Byte) : (s.endStage g k).seq.bwSel = s.seq.bwSel := by
  rcases s.endStage_cases g k with ⟨id, v, e, -⟩ | ⟨id, g', cs, e, -⟩ <;> rw [e]
  · split <;> rfl
  · rfl
@[simp] theorem State.endStage_seq_clkHz (s : State) (g : Stage) (k : List Byte) : (s.endStage g k).seq.clkHz = s.seq.clkHz := by
  rcases s.endStage_cases g k with ⟨id, v, e, -⟩ | ⟨id, g', cs, e, -⟩ <;> rw [e]
  · split <;> rfl
  · rfl
@[simp] theorem State.endStage_seq_cs (s : State) (g : Stage) (k : List Byte) : (s.endStage g k).seq.cs = s.seq.cs := by
  rcases s.endStage_cases g k with ⟨id, v, e, -⟩ | ⟨id, g', cs, e, -⟩ <;> rw [e]
  · split <;> rfl
  · rfl
@[simp] theorem State.endStage_seq_trace (s : State) (g : Stage) (k : List Byte) : (s.endStage g k).seq.trace = s.seq.trace := by
  rcases s.endStage_cases g k with ⟨id, v, e, -⟩ | ⟨id, g', cs, e, -⟩ <;> rw [e]
  · split <;> rfl
  · rfl
@[simp] theorem State.endStage_seq_hostBuf (s : State) (g : Stage) (k : List Byte) : (s.endStage g k).seq.hostBuf = s.seq.hostBuf := by
  rcases s.endStage_cases g k with ⟨id, v, e, -⟩ | ⟨id, g', cs, e, -⟩ <;> rw [e]
  · split <;> rfl
  · rfl
/-- Nothing but the wake of EXITUDPD changes the target there. -/
theorem State.endStage_tgt (s : State) (g : Stage) (k : List Byte) :
    (s.endStage g k).tgt = if g = .exitUdpd then s.settle.tgt else s.tgt := by
  rcases s.endStage_cases g k with ⟨id, v, e, -⟩ | ⟨id, g', cs, e, -⟩
  · rw [e]; split <;> rfl
  · by_cases hg : g = .exitUdpd
    · subst hg; cases congrArg (fun u : State => u.seq.pc) e
    · rw [e, if_neg hg]; rfl

/-! ### One advance of SEQ -/

/-- `s` at another position. -/
def State.setPc (s : State) (pc : SeqPc) : State := { s with seq := { s.seq with pc := pc } }

@[simp] theorem State.setPc_setPc (s : State) (p q : SeqPc) : (s.setPc p).setPc q = s.setPc q := rfl
@[simp] theorem State.setPc_cfg (s : State) (p : SeqPc) : (s.setPc p).cfg = s.cfg := rfl
@[simp] theorem State.setPc_tgt (s : State) (p : SeqPc) : (s.setPc p).tgt = s.tgt := rfl
@[simp] theorem State.setPc_shifted (s : State) (p : SeqPc) : (s.setPc p).shifted = s.shifted := rfl
@[simp] theorem State.setPc_tgtFault (s : State) (p : SeqPc) : (s.setPc p).tgtFault = s.tgtFault := rfl
@[simp] theorem State.setPc_requests (s : State) (p : SeqPc) : (s.setPc p).requests = s.requests := rfl
@[simp] theorem State.setPc_resetIn (s : State) (p : SeqPc) : (s.setPc p).resetIn = s.resetIn := rfl
@[simp] theorem State.setPc_wireRx (s : State) (p : SeqPc) : (s.setPc p).wireRx = s.wireRx := rfl
@[simp] theorem State.setPc_pc (s : State) (p : SeqPc) : (s.setPc p).seq.pc = p := rfl
@[simp] theorem State.setPc_seq_idCache (s : State) (p : SeqPc) : (s.setPc p).seq.idCache = s.seq.idCache := rfl
@[simp] theorem State.setPc_seq_pwSel (s : State) (p : SeqPc) : (s.setPc p).seq.pwSel = s.seq.pwSel := rfl
@[simp] theorem State.setPc_seq_bwSel (s : State) (p : SeqPc) : (s.setPc p).seq.bwSel = s.seq.bwSel := rfl
@[simp] theorem State.setPc_seq_clkHz (s : State) (p : SeqPc) : (s.setPc p).seq.clkHz = s.seq.clkHz := rfl
@[simp] theorem State.setPc_seq_cs (s : State) (p : SeqPc) : (s.setPc p).seq.cs = s.seq.cs := rfl
@[simp] theorem State.setPc_seq_trace (s : State) (p : SeqPc) : (s.setPc p).seq.trace = s.seq.trace := rfl
@[simp] theorem State.setPc_seq_resp (s : State) (p : SeqPc) : (s.setPc p).seq.resp = s.seq.resp := rfl
@[simp] theorem State.setPc_seq_hostBuf (s : State) (p : SeqPc) : (s.setPc p).seq.hostBuf = s.seq.hostBuf := rfl

/-- A call does not look at the position. -/
theorem State.perform_setPc (s : State) (p : SeqPc) (c : Call) :
    (s.setPc p).perform c = ((s.perform c).1.setPc p, (s.perform c).2) := by
  cases c with
  | xchg tx sink => cases sink <;> rfl
  | _ => rfl

/-- What follows a piece does not look at the position or the response. -/
theorem State.endStage_begun (s : State) (g h : Stage) (cs : List Call) (kept : List Byte) :
    (s.begin h cs).endStage g kept = s.endStage g kept := by
  cases g with
  | sizeCheck c => simp only [State.endStage]; split <;> cases c <;> rfl
  | sizePoll c => simp only [State.endStage]; split <;> rfl
  | sizeRecheck c =>
    simp only [State.endStage]
    cases c
    · rfl
    · cases hb : binary (statusOf kept) <;> rfl
  | initIdent =>
    simp only [State.endStage, State.begin_cfg, State.cacheId_cfg]
    split
    · rfl
    · have e : ∀ b : Bool, (if b = true
          then ((s.begin h cs).cacheId (identOf kept)).softError.initStatus
          else ((s.begin h cs).cacheId (identOf kept)).softError.respond 0) =
          if b = true then (s.cacheId (identOf kept)).softError.initStatus
          else (s.cacheId (identOf kept)).softError.respond 0 := fun b => by cases b <;> rfl
      exact e s.cfg.initCfgOnIdMismatch
  | initStatus => simp only [State.endStage]; split <;> rfl
  | _ => rfl

theorem State.endStage_setPc (s : State) (g : Stage) (p : SeqPc) (kept : List Byte) :
    (s.setPc p).endStage g kept = s.endStage g kept := by
  cases g with
  | sizeCheck c => simp only [State.endStage]; split <;> cases c <;> rfl
  | sizePoll c => simp only [State.endStage]; split <;> rfl
  | sizeRecheck c =>
    simp only [State.endStage]
    cases c
    · rfl
    · cases hb : binary (statusOf kept) <;> rfl
  | initIdent =>
    simp only [State.endStage, State.setPc_cfg, State.cacheId_cfg]
    split
    · rfl
    · have e : ∀ b : Bool, (if b = true
          then ((s.setPc p).cacheId (identOf kept)).softError.initStatus
          else ((s.setPc p).cacheId (identOf kept)).softError.respond 0) =
          if b = true then (s.cacheId (identOf kept)).softError.initStatus
          else (s.cacheId (identOf kept)).softError.respond 0 := fun b => by cases b <;> rfl
      exact e s.cfg.initCfgOnIdMismatch
  | initStatus => simp only [State.endStage]; split <;> rfl
  | _ => rfl

/-- The reset strikes before a call. -/
theorem State.callStep_reset {s : State} (h : s.resetIn = some 0) : s.callStep = s.assertReset := by
  simp [State.callStep, h]

/-- One call in the middle of a piece. -/
theorem State.callStep_more {s : State} (h : s.resetIn ≠ some 0) {g : Stage} {c : Call} {rest : List Call}
    {kept : List Byte} (hp : s.seq.pc = .running g (c :: rest) kept) (hr : rest ≠ []) :
    s.callStep = ((s.spend 1).perform c).1.setPc
      (.running g rest (kept ++ ((s.spend 1).perform c).2)) := by
  unfold State.callStep
  rw [if_neg h, hp]
  cases rest with
  | nil => exact absurd rfl hr
  | cons c' cs => rfl

/-- The last call of a piece, and what follows it. -/
theorem State.callStep_last {s : State} (h : s.resetIn ≠ some 0) {g : Stage} {c : Call}
    {kept : List Byte} (hp : s.seq.pc = .running g [c] kept) :
    s.callStep = ((s.spend 1).perform c).1.endStage g (kept ++ ((s.spend 1).perform c).2) := by
  unfold State.callStep
  rw [if_neg h, hp, ← State.endStage_setPc _ g (.running g [] (kept ++ ((s.spend 1).perform c).2))]
  rfl

/-- Everything an advance can do. -/
theorem State.callStep_cases (s : State) :
    (s.resetIn = some 0 ∧ s.callStep = s.assertReset) ∨
    (s.resetIn ≠ some 0 ∧ (∀ g c rest kept, s.seq.pc ≠ .running g (c :: rest) kept) ∧ s.callStep = s) ∨
    (∃ g c rest kept, s.resetIn ≠ some 0 ∧ s.seq.pc = .running g (c :: rest) kept ∧ rest ≠ [] ∧
      s.callStep = ((s.spend 1).perform c).1.setPc
        (.running g rest (kept ++ ((s.spend 1).perform c).2))) ∨
    ∃ g c kept, s.resetIn ≠ some 0 ∧ s.seq.pc = .running g [c] kept ∧
      s.callStep = ((s.spend 1).perform c).1.endStage g (kept ++ ((s.spend 1).perform c).2) := by
  by_cases h : s.resetIn = some 0
  · exact .inl ⟨h, s.callStep_reset h⟩
  · refine .inr ?_
    cases hp : s.seq.pc with
    | idle => exact .inl ⟨h, by simp, by simp [State.callStep, h, hp]⟩
    | initStart => exact .inl ⟨h, by simp, by simp [State.callStep, h, hp]⟩
    | running g cs kept =>
      cases cs with
      | nil => exact .inl ⟨h, by simp, by simp [State.callStep, h, hp]⟩
      | cons c rest =>
        cases rest with
        | nil => exact .inr (.inr ⟨g, c, kept, h, rfl, s.callStep_last h hp⟩)
        | cons c' cs => exact .inr (.inl ⟨g, c, c' :: cs, kept, h, rfl, by simp, s.callStep_more h hp (by simp)⟩)

/-! ### Many advances -/

theorem State.calls_succ (n : Nat) (s : State) : s.calls (n + 1) = s.callStep.calls n := rfl

theorem State.calls_eq (n : Nat) (s : State) : s.calls n = State.callStep^[n] s := by
  induction n generalizing s with
  | zero => rfl
  | succ n ih => rw [State.calls_succ, ih, Function.iterate_succ_apply]

/-- What every advance keeps, any number of them keep. -/
theorem State.calls_keeps {P : State → Prop} (h : ∀ s : State, P s → P s.callStep) (n : Nat) {s : State}
    (hs : P s) : P (s.calls n) := by
  induction n generalizing s with
  | zero => exact hs
  | succ n ih => exact ih (h s hs)

theorem State.carryOn_succ (n : Nat) (s : State) :
    s.carryOn (n + 1) = if (s.calls s.seq.pc.left).seq.pc.rests then s.calls s.seq.pc.left
      else (s.calls s.seq.pc.left).carryOn n := rfl

theorem State.carryOn_keeps {P : State → Prop} (h : ∀ s : State, P s → P s.callStep) (n : Nat) {s : State}
    (hs : P s) : P (s.carryOn n) := by
  induction n generalizing s with
  | zero => exact s.calls_keeps h _ hs
  | succ n ih =>
    rw [State.carryOn_succ]
    split
    · exact s.calls_keeps h _ hs
    · exact ih (s.calls_keeps h _ hs)

theorem State.resume_keeps {P : State → Prop} (h : ∀ s : State, P s → P s.callStep) {s : State}
    (hs : P s) : P s.resume := s.carryOn_keeps h 3 hs

/-! ### A list of calls no reset strikes -/

/-- The effect of calls one after the other, and the bytes they keep. -/
def State.performAll : List Call → State → State × List Byte
  | [], s => (s, [])
  | c :: cs, s =>
    ((State.performAll cs (s.perform c).1).1, (s.perform c).2 ++ (State.performAll cs (s.perform c).1).2)

theorem State.performAll_cons (c : Call) (cs : List Call) (s : State) :
    s.performAll (c :: cs) = (((s.perform c).1.performAll cs).1,
      (s.perform c).2 ++ ((s.perform c).1.performAll cs).2) := rfl

@[simp] theorem State.performAll_nil (s : State) : s.performAll [] = (s, []) := rfl

theorem State.performAll_append (cs ds : List Call) (s : State) :
    s.performAll (cs ++ ds) = (((s.performAll cs).1.performAll ds).1,
      (s.performAll cs).2 ++ ((s.performAll cs).1.performAll ds).2) := by
  induction cs generalizing s with
  | nil => simp
  | cons c cs ih => simp [State.performAll_cons, ih]

/-- What every call keeps, a list of them keeps. -/
theorem State.performAll_keeps {P : State → Prop} (h : ∀ (s : State) (c : Call), P s → P (s.perform c).1)
    (cs : List Call) {s : State} (hs : P s) : P (s.performAll cs).1 := by
  induction cs generalizing s with
  | nil => exact hs
  | cons c cs ih => exact ih (h s c hs)

/-- What a list of calls leaves alone. -/
theorem State.performAll_frame (cs : List Call) (s : State) :
    (s.performAll cs).1.cfg = s.cfg ∧ (s.performAll cs).1.requests = s.requests ∧
      (s.performAll cs).1.resetIn = s.resetIn ∧ (s.performAll cs).1.wireRx = s.wireRx ∧
      (s.performAll cs).1.seq.idCache = s.seq.idCache ∧ (s.performAll cs).1.seq.pwSel = s.seq.pwSel ∧
      (s.performAll cs).1.seq.bwSel = s.seq.bwSel ∧ (s.performAll cs).1.seq.pc = s.seq.pc ∧
      (s.performAll cs).1.seq.resp = s.seq.resp :=
  State.performAll_keeps (P := fun u => u.cfg = s.cfg ∧ u.requests = s.requests ∧
    u.resetIn = s.resetIn ∧ u.wireRx = s.wireRx ∧ u.seq.idCache = s.seq.idCache ∧
    u.seq.pwSel = s.seq.pwSel ∧ u.seq.bwSel = s.seq.bwSel ∧ u.seq.pc = s.seq.pc ∧
    u.seq.resp = s.seq.resp) (fun u c h => by simpa using h) cs (by simp)

@[simp] theorem State.performAll_cfg (cs : List Call) (s : State) : (s.performAll cs).1.cfg = s.cfg :=
  (s.performAll_frame cs).1
@[simp] theorem State.performAll_resetIn (cs : List Call) (s : State) :
    (s.performAll cs).1.resetIn = s.resetIn := (s.performAll_frame cs).2.2.1
@[simp] theorem State.performAll_pwSel (cs : List Call) (s : State) :
    (s.performAll cs).1.seq.pwSel = s.seq.pwSel := (s.performAll_frame cs).2.2.2.2.2.1
@[simp] theorem State.performAll_bwSel (cs : List Call) (s : State) :
    (s.performAll cs).1.seq.bwSel = s.seq.bwSel := (s.performAll_frame cs).2.2.2.2.2.2.1
@[simp] theorem State.performAll_idCache (cs : List Call) (s : State) :
    (s.performAll cs).1.seq.idCache = s.seq.idCache := (s.performAll_frame cs).2.2.2.2.1

/-- What a list of calls drives. -/
theorem State.performAll_driven (cs : List Call) (s : State) :
    (s.performAll cs).1.seq.trace.map BusEvent.driven =
      s.seq.trace.map BusEvent.driven ++ cs.map Call.driven := by
  induction cs generalizing s with
  | nil => simp
  | cons c cs ih => simp [State.performAll_cons, ih, State.perform_driven]

theorem State.performAll_cs (cs : List Call) (s : State) :
    (s.performAll cs).1.seq.cs = cs.foldl Call.csAfter s.seq.cs := by
  induction cs generalizing s with
  | nil => rfl
  | cons c cs ih => simp [State.performAll_cons, ih]

theorem State.performAll_setPc (cs : List Call) (s : State) (p : SeqPc) :
    (s.setPc p).performAll cs = ((s.performAll cs).1.setPc p, (s.performAll cs).2) := by
  induction cs generalizing s with
  | nil => rfl
  | cons c cs ih => simp [State.performAll_cons, State.perform_setPc, ih]

/-- A call does not look at the piece that has been begun. -/
theorem State.perform_begun (s : State) (g : Stage) (ds : List Call) (c : Call) :
    (s.begin g ds).perform c = ((s.perform c).1.begin g ds, (s.perform c).2) := by
  cases c with
  | xchg tx sink => cases sink <;> rfl
  | _ => rfl

theorem State.performAll_begun (cs : List Call) (s : State) (g : Stage) (ds : List Call) :
    (s.begin g ds).performAll cs = ((s.performAll cs).1.begin g ds, (s.performAll cs).2) := by
  induction cs generalizing s with
  | nil => rfl
  | cons c cs ih => simp [State.performAll_cons, State.perform_begun, ih]

theorem State.spend_none {s : State} (h : s.resetIn = none) (n : Nat) : s.spend n = s := by
  cases s; simp_all [State.spend]

/-- A piece no reset strikes: its calls, and what follows. -/
theorem State.calls_piece {g : Stage} (cs : List Call) (hne : cs ≠ []) {s : State} (h : s.resetIn = none)
    {kept : List Byte} (hp : s.seq.pc = .running g cs kept) :
    s.calls cs.length = (s.performAll cs).1.endStage g (kept ++ (s.performAll cs).2) := by
  induction cs generalizing s kept with
  | nil => exact absurd rfl hne
  | cons c cs ih =>
    have h0 : s.resetIn ≠ some 0 := by simp [h]
    rw [List.length_cons, State.calls_succ]
    by_cases hc : cs = []
    · subst hc
      rw [s.callStep_last h0 hp, State.spend_none h]
      simp [State.performAll_cons, State.calls]
    · rw [s.callStep_more h0 hp hc, State.spend_none h,
        ih hc (s := (s.perform c).1.setPc _) (by simpa using h) rfl, State.performAll_setPc,
        State.endStage_setPc]
      simp [State.performAll_cons]

/-- Up to `n + 1` pieces no reset strikes, from the start of one. -/
theorem State.carryOn_piece {g : Stage} {cs : List Call} (hne : cs ≠ []) {s : State} (h : s.resetIn = none)
    (n : Nat) :
    (s.begin g cs).carryOn (n + 1) =
      if ((s.performAll cs).1.endStage g (s.performAll cs).2).seq.pc.rests
      then (s.performAll cs).1.endStage g (s.performAll cs).2
      else ((s.performAll cs).1.endStage g (s.performAll cs).2).carryOn n := by
  have e : (s.begin g cs).calls cs.length = (s.performAll cs).1.endStage g (s.performAll cs).2 := by
    rw [State.calls_piece cs hne (s := s.begin g cs) h rfl, State.performAll_begun,
      State.endStage_begun, List.nil_append]
  rw [State.carryOn_succ, show (s.begin g cs).seq.pc.left = cs.length from rfl, e]

/-- An operation of one piece. -/
theorem State.serve_piece {g : Stage} {cs : List Call} (hne : cs ≠ []) {s : State} (h : s.resetIn = none)
    (hr : ((s.performAll cs).1.endStage g (s.performAll cs).2).seq.pc.rests = true) :
    s.serve g cs = ((s.performAll cs).1.endStage g (s.performAll cs).2).finish := by
  rw [State.serve, State.resume, State.carryOn_piece hne h, if_pos hr]

/-! ### The end of a step -/

theorem State.finish_of_ok {s : State} (h : s.tgtFault = none) : s.finish = .next s := by
  simp [State.finish, h]

/-- Everything the end of a step can be. -/
theorem State.finish_cases (s : State) :
    (s.finish = .next s ∧ (s.tgtFault = none ∨ ∃ g cs k, s.seq.pc = .running g cs k)) ∨
    ∃ f, s.tgtFault = some f ∧ (∀ g cs k, s.seq.pc ≠ .running g cs k) ∧
      s.finish = .fault (f.toFault s.seq) := by
  unfold State.finish
  cases hf : s.tgtFault with
  | none => exact .inl ⟨rfl, .inl rfl⟩
  | some f =>
    cases hp : s.seq.pc with
    | running g cs k => exact .inl ⟨rfl, .inr ⟨_, _, _, rfl⟩⟩
    | idle => exact .inr ⟨f, rfl, by simp, rfl⟩
    | initStart => exact .inr ⟨f, rfl, by simp, rfl⟩

/-- A next state is the state reached. -/
theorem State.finish_next {s t : State} (h : s.finish = .next t) :
    t = s ∧ (s.tgtFault = none ∨ ∃ g cs k, s.seq.pc = .running g cs k) := by
  rcases s.finish_cases with ⟨e, h'⟩ | ⟨f, -, -, e⟩
  · rw [e] at h; cases h; exact ⟨rfl, h'⟩
  · rw [e] at h; cases h

theorem State.finish_idle {s : State} {f : TgtFault} (hf : s.tgtFault = some f) (hp : s.seq.pc = .idle) :
    s.finish = .fault (f.toFault s.seq) := by simp [State.finish, hf, hp]

theorem TgtFault.seen_toFault (f : TgtFault) (q : Seq) : (f.toFault q).seen = q := by
  cases f <;> rfl

/-- SEQ's side of the outcome is defined whether or not the target faults (60_exceptions.md R207). -/
theorem State.seqOf_finish (s : State) : seqOf s.finish = some s.seq := by
  rcases s.finish_cases with ⟨e, -⟩ | ⟨f, -, -, e⟩ <;> rw [e]
  · rfl
  · simp [seqOf, TgtFault.seen_toFault]

/-! ### Transactions -/

/-- Calls that are exchanges, and the bytes they send. -/
def exchangesOf (bytes : List Byte) (mid : List Call) : Prop :=
  (∀ c ∈ mid, ∃ tx sink, c = .xchg tx sink) ∧ mid.filterMap Call.byte? = bytes

theorem exchangesOf_discards (bytes : List Byte) : exchangesOf bytes (discards bytes) := by
  refine ⟨fun c hc => ?_, ?_⟩
  · simp only [discards, List.mem_map] at hc
    obtain ⟨b, -, rfl⟩ := hc
    exact ⟨_, _, rfl⟩
  · induction bytes with
    | nil => rfl
    | cons b bs ih => simpa [discards, Call.byte?] using ih

theorem exchangesOf_keeps (d : Byte) (k : Nat) :
    exchangesOf (List.replicate k d) (List.replicate k (.xchg d .keep)) := by
  refine ⟨fun c hc => ⟨_, _, List.eq_of_mem_replicate hc⟩, ?_⟩
  induction k with
  | zero => rfl
  | succ k ih => simpa [List.replicate_succ, Call.byte?] using ih

theorem exchangesOf_hostOuts (d : Byte) (is : List Nat) :
    exchangesOf (List.replicate is.length d) (is.map fun i => .xchg d (.hostOut i)) := by
  refine ⟨fun c hc => ?_, ?_⟩
  · simp only [List.mem_map] at hc
    obtain ⟨i, -, rfl⟩ := hc
    exact ⟨_, _, rfl⟩
  · induction is with
    | nil => rfl
    | cons i is ih => simpa [List.replicate_succ, Call.byte?] using ih

theorem exchangesOf_append {b₁ b₂ : List Byte} {m₁ m₂ : List Call} (h₁ : exchangesOf b₁ m₁)
    (h₂ : exchangesOf b₂ m₂) : exchangesOf (b₁ ++ b₂) (m₁ ++ m₂) := by
  refine ⟨fun c hc => ?_, by simp [h₁.2, h₂.2]⟩
  rcases List.mem_append.1 hc with hc | hc
  · exact h₁.1 c hc
  · exact h₂.1 c hc

theorem exchangesOf_cons {b : Byte} {bs : List Byte} {sink : Sink} {m : List Call} (h : exchangesOf bs m) :
    exchangesOf (b :: bs) (.xchg b sink :: m) := by
  refine ⟨fun c hc => ?_, by simp [Call.byte?, h.2]⟩
  rcases List.mem_cons.1 hc with rfl | hc
  · exact ⟨_, _, rfl⟩
  · exact h.1 c hc

/-- A predicate of the target that the exchanges of a transaction keep, and draws. -/
structure KeptBy (cfg : Config) (bytes : List Byte) (P : Tgt → Prop) : Prop where
  free : ∀ (t : Tgt) (d : Draws), P t → P { t with free := d }
  exchange : ∀ (pre post : List Byte) (tx : Byte) (t : Tgt), bytes = pre ++ tx :: post → P t →
    P (t.exchange cfg pre tx).1

/-- The exchanges of a transaction, after the first `pre` of them. -/
theorem State.performAll_exchanges {P : Tgt → Prop} {pre post : List Byte} {mid : List Call} {s : State}
    (hk : KeptBy s.cfg (pre ++ post) P) (hm : exchangesOf post mid) (hs : s.shifted = pre)
    (hP : P s.tgt) :
    P (s.performAll mid).1.tgt ∧ (s.performAll mid).1.shifted = pre ++ post ∧
      (s.performAll mid).1.tgtFault = s.tgtFault := by
  induction mid generalizing s pre post with
  | nil => obtain ⟨-, rfl⟩ := hm; simpa [hs] using hP
  | cons c mid ih =>
    obtain ⟨tx, sink, rfl⟩ := hm.1 c (by simp)
    obtain ⟨h1, h2⟩ := hm
    simp only [List.filterMap_cons, Call.byte?] at h2
    subst h2
    have hm' : exchangesOf (mid.filterMap Call.byte?) mid := ⟨fun c hc => h1 c (by simp [hc]), rfl⟩
    have hP' : P (s.xchg tx sink).1.tgt := by
      obtain ⟨d, e⟩ := s.xchg_tgt tx sink
      rw [e]
      refine hk.free _ _ ?_
      unfold State.answer
      split
      · rw [hs]; exact hk.exchange pre _ tx _ rfl hP
      · exact hP
    have := ih (s := (s.xchg tx sink).1) (pre := pre ++ [tx])
      (by simpa [show (s.xchg tx sink).1.cfg = s.cfg from s.perform_cfg (.xchg tx sink)] using hk)
      hm' (by simp [hs]) hP'
    simpa [State.performAll_cons, State.perform] using this

/-- A whole transaction of SEQ: what holds of the target after an opportunity for TGT-COMPLETE and is
kept by the exchanges holds of some target that the `CS1` then acts on. -/
theorem State.performAll_xact {P : Tgt → Prop} {bytes : List Byte} {mid : List Call} {s : State}
    (hm : exchangesOf bytes mid) (hk : KeptBy s.cfg bytes P) (h0 : P s.csAssert.tgt) :
    ∃ t : Tgt, P t ∧
      (s.performAll (xactCalls mid)).1.tgt = (if s.reaches then (t.latch s.cfg bytes).1 else t) ∧
      (s.performAll (xactCalls mid)).1.tgtFault =
        (s.tgtFault <|> if s.reaches then (t.latch s.cfg bytes).2 else none) := by
  obtain ⟨h1, h2, h3⟩ := State.performAll_exchanges (s := s.csAssert) (pre := []) (post := bytes)
    (by simpa using hk) hm rfl h0
  have hcs : (s.csAssert.performAll mid).1.seq.cs = false := by
    rw [State.performAll_cs]
    have : ∀ m : List Call, (∀ c ∈ m, ∃ tx sink, c = .xchg tx sink) →
        m.foldl Call.csAfter false = false := by
      intro m hm
      induction m with
      | nil => rfl
      | cons c m ih =>
        obtain ⟨tx, sink, rfl⟩ := hm c (by simp)
        exact ih fun c hc => hm c (by simp [hc])
    exact this mid hm.1
  have hf : (s.csAssert.performAll mid).1.reaches = s.reaches := by
    unfold State.reaches
    rw [h3, (s.csAssert.performAll_frame mid).1]
    rfl
  have hc : (s.csAssert.performAll mid).1.cfg = s.cfg := (s.csAssert.performAll_frame mid).1
  refine ⟨(s.csAssert.performAll mid).1.tgt, h1, ?_, ?_⟩
  · simp only [xactCalls, State.performAll_cons, State.performAll_append, State.perform,
      State.performAll_nil, State.csDeassert_tgt, State.edge, hcs, hf, hc, h2]
    cases s.reaches <;> simp
  · simp only [xactCalls, State.performAll_cons, State.performAll_append, State.perform,
      State.performAll_nil, State.csDeassert_tgtFault, State.edge, hcs, hf, hc, h2, h3]
    cases s.reaches <;> simp

/-- SEQ's side of bytes sent and what comes back discarded. -/
theorem State.performAll_discards_seq (bytes : List Byte) (s : State) :
    (s.performAll (discards bytes)).1.seq =
        { s.seq with trace := s.seq.trace ++ bytes.map (fun b => .x b none) } ∧
      (s.performAll (discards bytes)).2 = [] := by
  induction bytes generalizing s with
  | nil => simp [discards]
  | cons b bs ih =>
    have := ih (s.xchg b .discard).1
    simp only [discards, List.map_cons, State.performAll_cons, State.perform] at this ⊢
    rw [this.1, this.2, State.xchg_discard]
    simp

/-- SEQ's side of bytes kept. -/
theorem State.performAll_keeps_seq (d : Byte) (k : Nat) (s : State) :
    (s.performAll (List.replicate k (.xchg d .keep))).2.length = k ∧
      (s.performAll (List.replicate k (.xchg d .keep))).1.seq =
        { s.seq with trace := s.seq.trace ++
          (s.performAll (List.replicate k (.xchg d .keep))).2.map (fun b => .x d (some b)) } := by
  induction k generalizing s with
  | zero => simp
  | succ k ih =>
    have := ih (s.xchg d .keep).1
    simp only [List.replicate_succ, State.performAll_cons, State.perform]
    rw [this.2]
    have hl : (s.xchg d .keep).2.length = 1 := rfl
    refine ⟨by rw [List.length_append, hl, this.1, Nat.add_comm], ?_⟩
    simp [State.xchg_keep]

/-- The host's buffer with bytes stored one after the other. -/
theorem hostOut_next (rx buf : List Byte) (b : Byte) :
    hostOut rx.length b (rx ++ buf.drop rx.length) = (rx ++ [b]) ++ buf.drop (rx.length + 1) := by
  simp [hostOut, List.drop_append]

/-- SEQ's side of bytes stored in the host's buffer, after `rx` have been. -/
theorem State.performAll_hostOuts_seq (d : Byte) (n : Nat) (buf : List Byte) (s : State) (rx : List Byte)
    (h : s.seq.hostBuf = rx ++ buf.drop rx.length) :
    ∃ rx', rx'.length = n ∧
      (s.performAll ((List.range' rx.length n).map fun i => .xchg d (.hostOut i))) =
        ((s.performAll ((List.range' rx.length n).map fun i => .xchg d (.hostOut i))).1, []) ∧
      (s.performAll ((List.range' rx.length n).map fun i => .xchg d (.hostOut i))).1.seq =
        { s.seq with
          trace := s.seq.trace ++ rx'.map (fun b => .x d (some b))
          hostBuf := (rx ++ rx') ++ buf.drop (rx.length + n) } := by
  induction n generalizing s rx with
  | zero => exact ⟨[], rfl, rfl, by simp [← h]⟩
  | succ n ih =>
    let b := ((s.answer d).1.free.receive (s.answer d).2).1
    have hb : (s.xchg d (.hostOut rx.length)).1.seq.hostBuf = (rx ++ [b]) ++ buf.drop (rx ++ [b]).length := by
      rw [State.xchg_hostOut]
      simp only [h, hostOut_next, List.length_append, List.length_cons, List.length_nil]
      rfl
    obtain ⟨rx', hl, h2, h3⟩ := ih (s.xchg d (.hostOut rx.length)).1 (rx ++ [b]) hb
    simp only [List.length_append, List.length_cons, List.length_nil, Nat.zero_add] at h2 h3
    refine ⟨b :: rx', by simp [hl], ?_, ?_⟩
    · simp only [List.range'_succ, List.map_cons, State.performAll_cons, State.perform]
      rw [h2]; rfl
    · simp only [List.range'_succ, List.map_cons, State.performAll_cons, State.perform]
      rw [h3]
      simp only [State.xchg_hostOut, List.append_assoc, List.cons_append,
        List.nil_append, Seq.mk.injEq, true_and]
      refine ⟨by rfl, ?_⟩
      rw [show rx.length + (n + 1) = rx.length + 1 + n by omega]

end Sys2Proof.Machine
end

