-- ==== Sys2Proof/Laws/Invariant.lean ====
section
/-! SUPPORT. The invariants of Safety.lean, through the primitive calls, what follows a piece, the advances of SEQ,
and the end of a step. -/

namespace Sys2Proof.Machine

/-! ### Calls that pair -/

/-- A list of calls that pairs still does after its first call. -/
theorem callsPair_tail {cs : Bool} {c : Call} {rest : List Call} (h : callsPair cs (c :: rest) = true) :
    callsPair (c.csAfter cs) rest = true := by
  cases c <;> cases cs <;> simp_all [callsPair, Call.csAfter]

/-- The exchanges of a transaction and its `CS1`. -/
theorem callsPair_exchanges {mid : List Call} (h : ∀ c ∈ mid, ∃ tx sink, c = .xchg tx sink) :
    callsPair false (mid ++ [.csDeassert]) = true := by
  induction mid with
  | nil => rfl
  | cons c mid ih =>
    obtain ⟨tx, sink, rfl⟩ := h c (by simp)
    exact ih fun c hc => h c (by simp [hc])

theorem callsPair_xact {bytes : List Byte} {mid : List Call} (h : exchangesOf bytes mid) :
    callsPair true (xactCalls mid) = true := callsPair_exchanges h.1

theorem exchangesOf_query (cfg : Config) (op : Byte) (k : Nat) :
    exchangesOf (op :: List.replicate k cfg.dummy)
      (.xchg op .discard :: List.replicate k (.xchg cfg.dummy .keep)) :=
  exchangesOf_cons (exchangesOf_keeps _ _)

theorem exchangesOf_read (cfg : Config) (a : Addr) (n : Nat) :
    exchangesOf (readHeader cfg a ++ List.replicate n cfg.dummy)
      (discards (readHeader cfg a) ++ (List.range n).map fun i => .xchg cfg.dummy (.hostOut i)) := by
  have := exchangesOf_append (exchangesOf_discards (readHeader cfg a))
    (exchangesOf_hostOuts cfg.dummy (List.range n))
  simpa using this

@[simp] theorem callsPair_send (bytes : List Byte) : callsPair true (sendCalls bytes) = true :=
  callsPair_xact (exchangesOf_discards bytes)

@[simp] theorem callsPair_query (cfg : Config) (op : Byte) (k : Nat) :
    callsPair true (queryCalls cfg op k) = true := callsPair_xact (exchangesOf_query cfg op k)

@[simp] theorem callsPair_status (cfg : Config) : callsPair true (statusCalls cfg) = true :=
  callsPair_query cfg _ 2

@[simp] theorem callsPair_ident (cfg : Config) : callsPair true (identCalls cfg) = true :=
  callsPair_query cfg _ 3

@[simp] theorem callsPair_read (cfg : Config) (a : Addr) (n : Nat) :
    callsPair true (readCalls cfg a n) = true := callsPair_xact (exchangesOf_read cfg a n)

@[simp] theorem callsPair_wake (cfg : Config) : callsPair true (wakeCalls cfg) = true := rfl

/-- INIT's calls pair whatever the level of chip-select. -/
@[simp] theorem callsPair_init (cfg : Config) (cs : Bool) : callsPair cs (initCalls cfg) = true := by
  cases cs <;> exact callsPair_ident cfg

@[simp] theorem xactCalls_ne_nil (mid : List Call) : xactCalls mid ≠ [] := by simp [xactCalls]
@[simp] theorem sendCalls_ne_nil (bytes : List Byte) : sendCalls bytes ≠ [] := xactCalls_ne_nil _
@[simp] theorem statusCalls_ne_nil (cfg : Config) : statusCalls cfg ≠ [] := xactCalls_ne_nil _
@[simp] theorem identCalls_ne_nil (cfg : Config) : identCalls cfg ≠ [] := xactCalls_ne_nil _
@[simp] theorem readCalls_ne_nil (cfg : Config) (a : Addr) (n : Nat) : readCalls cfg a n ≠ [] :=
  xactCalls_ne_nil _
@[simp] theorem wakeCalls_ne_nil (cfg : Config) : wakeCalls cfg ≠ [] := by simp [wakeCalls]
@[simp] theorem initCalls_ne_nil (cfg : Config) : initCalls cfg ≠ [] := by simp [initCalls]

/-! ### The well-formed target through a call -/

theorem State.answer_cases (s : State) (tx : Byte) :
    s.answer tx = s.tgt.exchange s.cfg s.shifted tx ∨ s.answer tx = (s.tgt, none) := by
  unfold State.answer; split
  · exact .inl rfl
  · exact .inr rfl

theorem State.edge_cases (s : State) :
    s.edge = s.tgt.latch s.cfg s.shifted ∨ s.edge = (s.tgt, none) := by
  unfold State.edge; split
  · exact .inl rfl
  · exact .inr rfl

/-- A predicate of the target that every primitive call keeps, if draws, TGT-COMPLETE, exchanges and the
`CS1` do. -/
theorem State.perform_tgt {P : Tgt → Prop} (s : State) (c : Call) (h : P s.tgt)
    (ht : P (s.tgt.tick s.cfg))
    (hx : ∀ tx, P (s.tgt.exchange s.cfg s.shifted tx).1)
    (hf : ∀ (t : Tgt) (d : Draws), P t → P { t with free := d })
    (hl : P (s.tgt.latch s.cfg s.shifted).1) : P (s.perform c).1.tgt := by
  cases c with
  | csAssert =>
    show P (if s.reaches then s.tgt.tick s.cfg else s.tgt)
    split
    · exact ht
    · exact h
  | csDeassert =>
    show P s.csDeassert.tgt
    rw [State.csDeassert_tgt]
    rcases s.edge_cases with e | e <;> rw [e]
    · exact hl
    · exact h
  | xchg tx sink =>
    obtain ⟨d, e⟩ := s.xchg_tgt tx sink
    show P (s.xchg tx sink).1.tgt
    rw [e]
    refine hf _ _ ?_
    rcases s.answer_cases tx with e | e <;> rw [e]
    · exact hx tx
    · exact h
  | delay ns => exact h
  | setClock hz => exact h

theorem State.perform_wf (s : State) (c : Call) (h : s.tgt.Wf s.cfg) :
    (s.perform c).1.tgt.Wf s.cfg :=
  s.perform_tgt c h h.tick (fun tx => h.exchange _ tx)
    (fun _ _ h => h.congr rfl rfl rfl rfl rfl) (h.latch _)

theorem State.settle_wf (s : State) (h : s.tgt.Wf s.cfg) : s.settle.tgt.Wf s.cfg := by
  show (if s.reaches then s.tgt.settle else s.tgt).Wf s.cfg
  split
  · exact h.settle
  · exact h

/-- The identifier has three bytes. -/
theorem identOf_high (kept : List Byte) : (identOf kept).extractLsb' 24 8 = 0 := by
  ext i hi
  unfold identOf assembleId
  simp only [BitVec.getElem_extractLsb', BitVec.getLsbD_or, BitVec.getLsbD_shiftLeft,
    BitVec.getLsbD_setWidth]
  have h1 : ∀ (b : Byte) (k : Nat), 8 ≤ k → b.getLsbD k = false := fun b k h =>
    BitVec.getLsbD_of_ge b k h
  rw [h1 _ (24 + i - 16) (by omega), h1 _ (24 + i - 8) (by omega), h1 _ (24 + i) (by omega)]
  simp

/-! ### The invariant -/

/-- The parts of the invariant that do not speak of the position, at the level `cs` of chip-select. -/
structure State.InvAt (s : State) : Prop where
  wf : s.tgt.Wf s.cfg
  idHigh : s.seq.idCache.extractLsb' 24 8 = 0
  closed : s.seq.cs = true → s.shifted = []

theorem State.Inv.wf {s : State} (h : s.Inv) : s.tgt.Wf s.cfg :=
  ⟨h.pendingBusy, h.pendingPage, h.mainWf, h.buf1Wf, h.buf2Wf, h.mainBelow, h.buf1Below, h.buf2Below⟩

theorem State.Inv.at {s : State} (h : s.Inv) : s.InvAt := ⟨h.wf, h.idHigh, h.closed⟩

theorem State.InvAt.inv {s : State} (h : s.InvAt) (hc : s.seq.pc = .idle → s.seq.cs = true)
    (hi : ∀ g rest kept, s.seq.pc = .running g rest kept →
      rest ≠ [] ∧ callsPair s.seq.cs rest = true ∧ s.seq.resp = none)
    (hr : ∀ r, s.seq.resp = some r → r.ok = true) : s.Inv :=
  ⟨hc, hi, h.closed, h.wf.pendingBusy, h.wf.pendingPage, h.wf.mainWf, h.wf.buf1Wf, h.wf.buf2Wf,
    h.wf.mainBelow, h.wf.buf1Below, h.wf.buf2Below, h.idHigh, hr⟩

/-- A call that the pairing allows. -/
theorem State.InvAt.perform {s : State} (h : s.InvAt) {c : Call} {rest : List Call}
    (hp : callsPair s.seq.cs (c :: rest) = true) : (s.perform c).1.InvAt := by
  refine ⟨by simpa using s.perform_wf c h.wf, by simpa using h.idHigh, fun hcs => ?_⟩
  rw [State.perform_seq_cs] at hcs
  cases c with
  | csAssert => cases hcs
  | csDeassert => rfl
  | xchg tx sink =>
    simp only [Call.csAfter] at hcs
    simp [callsPair, hcs] at hp
  | delay ns => exact h.closed hcs
  | setClock hz => exact h.closed hcs

theorem State.InvAt.setPc {s : State} (h : s.InvAt) (p : SeqPc) : (s.setPc p).InvAt :=
  ⟨h.wf, h.idHigh, h.closed⟩

/-- What follows a piece, chip-select high. -/
theorem State.InvAt.endStage {s : State} (h : s.InvAt) (hcs : s.seq.cs = true) (g : Stage)
    (kept : List Byte) : (s.endStage g kept).Inv := by
  have hid : ∀ id : Ident, (id = s.seq.idCache ∨ id = 0 ∨ id = identOf kept) →
      id.extractLsb' 24 8 = 0 := by
    rintro id (rfl | rfl | rfl)
    · exact h.idHigh
    · rfl
    · exact identOf_high kept
  rcases s.endStage_cases g kept with ⟨id, v, e, hi⟩ | ⟨id, g', cs, e, hi, hc⟩ <;> rw [e]
  · refine State.InvAt.inv ⟨?_, hid id hi, fun _ => ?_⟩ (fun _ => ?_) (by simp) (by simp)
    · by_cases hg : g = .exitUdpd
      · subst hg; exact s.settle_wf h.wf
      · rw [if_neg hg]; exact h.wf
    · split <;> exact h.closed hcs
    · split <;> exact hcs
  · refine State.InvAt.inv ⟨h.wf, hid id hi, fun _ => h.closed hcs⟩ (by simp) ?_ (by simp)
    intro g rest k hpc
    cases hpc
    refine ⟨?_, ?_, rfl⟩
    · rcases hc.1 with rfl | ⟨rfl, -⟩ <;> simp
    · show callsPair s.seq.cs cs = true
      rw [hcs]
      rcases hc.1 with rfl | ⟨rfl, -⟩ <;> simp

theorem State.InvAt.begin {s : State} (h : s.InvAt) {g : Stage} {cs : List Call} (hne : cs ≠ [])
    (hp : callsPair s.seq.cs cs = true) : (s.begin g cs).Inv := by
  refine State.InvAt.inv ⟨h.wf, h.idHigh, h.closed⟩ (by simp) ?_ (by simp)
  intro g rest k hpc
  cases hpc
  exact ⟨hne, hp, rfl⟩

theorem State.InvAt.spend {s : State} (h : s.InvAt) (n : Nat) : (s.spend n).InvAt :=
  ⟨h.wf, h.idHigh, h.closed⟩

theorem State.InvAt.resetRegs {s : State} (h : s.InvAt) : s.resetRegs.InvAt :=
  ⟨h.wf, by simp, h.closed⟩

theorem State.InvAt.assertReset {s : State} (h : s.InvAt) : s.assertReset.Inv :=
  State.InvAt.inv ⟨h.wf, by simp, h.closed⟩ (by simp) (by simp) (by simp)

/-- One advance of SEQ keeps the invariant, from every position. -/
theorem State.Inv.callStep {s : State} (h : s.Inv) : s.callStep.Inv := by
  rcases s.callStep_cases with ⟨-, e⟩ | ⟨-, -, e⟩ | ⟨g, c, rest, kept, -, hp, hr, e⟩ | ⟨g, c, kept, -, hp, e⟩ <;>
    rw [e]
  · exact h.at.assertReset
  · exact h
  · obtain ⟨-, h2, h3⟩ := h.inside _ _ _ hp
    refine ((h.at.spend 1).perform (by simpa using h2) |>.setPc _).inv (by simp) ?_ (by simp [h3])
    intro g' rest' k' hpc
    cases hpc
    exact ⟨hr, by simpa using callsPair_tail h2, by simp [h3]⟩
  · obtain ⟨-, h2, -⟩ := h.inside _ _ _ hp
    refine ((h.at.spend 1).perform (by simpa using h2)).endStage ?_ g _
    simpa [callsPair] using callsPair_tail h2

theorem State.Inv.resume {s : State} (h : s.Inv) : s.resume.Inv :=
  State.resume_keeps (fun _ h => h.callStep) h

end Sys2Proof.Machine
end

