-- ==== Sys2Proof/Laws/Exec.lean ====
section
/-! SUPPORT. The laws of `exec` and `step`: every host operation is a `serve` of a first piece, every wire command
a `wireStep` of its bytes, what each kind of step can do, and that a step keeps the invariants. -/

namespace Sys2Proof.Machine

/-! ### Operations as pieces, wire commands as transactions -/

/-- The state a host operation starts from, its first piece, and that piece's calls. -/
def opening (i : Instr) (s : State) : Option (State × Stage × List Call) :=
  match i with
  | .init => some (s.resetRegs, .initIdent, initCalls s.cfg)
  | .getStatus => some (s, .getStatus, statusCalls s.cfg)
  | .getId => some (s, .getId, identCalls s.cfg)
  | .readPage a n => some (s, .readPage, readCalls s.cfg a n)
  | .writePage a d =>
    some (s.turnPwSel, .writePage, sendCalls (addrHeader (progOpcode s.cfg s.seq.pwSel) a ++ d))
  | .writeBuffer o d =>
    some (s, .writeBuffer, sendCalls (addrHeader (bufwOpcode s.cfg s.seq.bwSel) (offsetAddr o) ++ d))
  | .bufferToMemory a =>
    some (s.turnBwSel, .bufferToMemory, sendCalls (addrHeader (b2mOpcode s.cfg s.seq.bwSel) a))
  | .erasePage a => some (s, .erasePage, sendCalls (addrHeader s.cfg.opcPageErase a))
  | .isReady => some (s, .isReady, statusCalls s.cfg)
  | .isErrorFlagged => some (s, .isErrorFlagged, statusCalls s.cfg)
  | .setBinaryPageSize => some (s, .sizeCheck .host, statusCalls s.cfg)
  | .enterUdpd => some (s, .enterUdpd, sendCalls [s.cfg.opcUdpd])
  | .exitUdpd => some (s, .exitUdpd, wakeCalls s.cfg)
  | .reserved13 => none
  | .reserved14 => none
  | .reserved15 => none
  | .wStatus => none
  | .wId => none
  | .wPsz => none
  | .wRead _ _ => none
  | .wProg1 _ _ => none
  | .wProg2 _ _ => none
  | .wBufw1 _ _ => none
  | .wBufw2 _ _ => none
  | .wB2m1 _ => none
  | .wB2m2 _ => none
  | .wErase _ => none
  | .wUdpd => none
  | .wWake => none

/-- The bytes of a wire command (30_encoding.md R74 to R80). -/
def wireBytes (i : Instr) (cfg : Config) : Option (List Byte) :=
  match i with
  | .init => none
  | .getStatus => none
  | .getId => none
  | .readPage _ _ => none
  | .writePage _ _ => none
  | .writeBuffer _ _ => none
  | .bufferToMemory _ => none
  | .erasePage _ => none
  | .isReady => none
  | .isErrorFlagged => none
  | .setBinaryPageSize => none
  | .enterUdpd => none
  | .exitUdpd => none
  | .reserved13 => none
  | .reserved14 => none
  | .reserved15 => none
  | .wStatus => some (queryBytes cfg cfg.opcStatusRead 2)
  | .wId => some (queryBytes cfg cfg.opcIdRead 3)
  | .wPsz => some (pageSizeBytes cfg)
  | .wRead a n => some (readHeader cfg a ++ List.replicate n cfg.dummy)
  | .wProg1 a d => some (addrHeader cfg.opcProgB1 a ++ d)
  | .wProg2 a d => some (addrHeader cfg.opcProgB2 a ++ d)
  | .wBufw1 a d => some (addrHeader cfg.opcBufwB1 a ++ d)
  | .wBufw2 a d => some (addrHeader cfg.opcBufwB2 a ++ d)
  | .wB2m1 a => some (addrHeader cfg.opcB2mB1 a)
  | .wB2m2 a => some (addrHeader cfg.opcB2mB2 a)
  | .wErase a => some (addrHeader cfg.opcPageErase a)
  | .wUdpd => some [cfg.opcUdpd]
  | .wWake => some []

/-- A host operation serves its first piece. -/
theorem exec_opening {i : Instr} {s u : State} {g : Stage} {cs : List Call}
    (h : opening i s = some (u, g, cs)) : exec i s = u.serve g cs := by
  cases i <;> cases h <;> rfl

/-- A wire command is one transaction of another master. -/
theorem exec_wire {i : Instr} {s : State} {bytes : List Byte} (h : wireBytes i s.cfg = some bytes) :
    exec i s = wireStep s bytes := by
  cases i <;> cases h <;> rfl

/-- The three kinds of instructions. -/
theorem instr_kinds (i : Instr) (s : State) :
    (i.isOperation = true ∧ ∃ u g cs, opening i s = some (u, g, cs)) ∨
    (i.isWire = true ∧ ∃ bytes, wireBytes i s.cfg = some bytes) ∨
    (i = .reserved13 ∨ i = .reserved14 ∨ i = .reserved15) := by
  cases i <;> simp [Instr.isOperation, opening, Instr.isWire, wireBytes]

theorem opening_of_operation {i : Instr} (h : i.isOperation = true) (s : State) :
    ∃ u g cs, opening i s = some (u, g, cs) := by
  rcases instr_kinds i s with ⟨-, h⟩ | ⟨hw, -⟩ | rfl | rfl | rfl
  · exact h
  · cases i <;> cases h <;> cases hw
  all_goals cases h

/-- What a host operation does before its first call: nothing, but for INIT's registers and a rotation
flag. -/
theorem opening_frame {i : Instr} {s u : State} {g : Stage} {cs : List Call}
    (h : opening i s = some (u, g, cs)) :
    u.cfg = s.cfg ∧ u.tgt = s.tgt ∧ u.shifted = s.shifted ∧ u.tgtFault = s.tgtFault ∧
      u.requests = s.requests ∧ u.resetIn = s.resetIn ∧ u.wireRx = s.wireRx ∧
      u.seq.cs = s.seq.cs ∧ u.seq.clkHz = s.seq.clkHz ∧ u.seq.hostBuf = s.seq.hostBuf ∧
      u.seq.trace = (if i = .init then [] else s.seq.trace) ∧
      u.seq.idCache = (if i = .init then 0 else s.seq.idCache) ∧
      u.seq.pwSel = (if i = .init then false else if i.isWritePage then !s.seq.pwSel else s.seq.pwSel) ∧
      u.seq.bwSel =
        (if i = .init then false else if i.isBufferToMemory then !s.seq.bwSel else s.seq.bwSel) := by
  cases i <;> cases h <;> simp [Instr.isWritePage, Instr.isBufferToMemory]

/-- The first piece's calls: some, and they pair, if chip-select is high before any but INIT's. -/
theorem opening_calls {i : Instr} {s u : State} {g : Stage} {cs : List Call}
    (h : opening i s = some (u, g, cs)) :
    cs ≠ [] ∧ ∀ b, (i ≠ .init → b = true) → callsPair b cs = true := by
  cases i <;> cases h <;> refine ⟨by simp, fun b hb => ?_⟩ <;>
    first
    | exact callsPair_init _ _
    | (cases hb (by simp); simp)

/-- What a raw transaction that is answered leaves. -/
theorem wireStep_next {s t : State} {bytes : List Byte} (h : wireStep s bytes = .next t) :
    (s.cfg.chipPresent = false ∧ t = { s with wireRx := bytes.map fun _ => none }) ∨
    ∃ i, s.cfg.chipPresent = true ∧
      (Tgt.exchanges s.cfg [] bytes (s.tgt.tick s.cfg)).1.verdict s.cfg bytes = .ok i ∧
      t = { s with
        tgt := if bytes = [] then
            ((Tgt.exchanges s.cfg [] bytes (s.tgt.tick s.cfg)).1.commit s.cfg i).settle
          else (Tgt.exchanges s.cfg [] bytes (s.tgt.tick s.cfg)).1.commit s.cfg i
        wireRx := (Tgt.exchanges s.cfg [] bytes (s.tgt.tick s.cfg)).2 } := by
  unfold wireStep at h
  cases hc : s.cfg.chipPresent with
  | false => rw [hc] at h; cases h; exact .inl ⟨rfl, rfl⟩
  | true =>
    rw [hc] at h
    simp only [if_true] at h
    rcases (Tgt.exchanges s.cfg [] bytes (s.tgt.tick s.cfg)).1.latch_cases s.cfg bytes with
      ⟨i, hv, e⟩ | ⟨f, -, e⟩
    · rw [e] at h; cases h; exact .inr ⟨i, rfl, hv, rfl⟩
    · rw [e] at h; cases h

/-- A raw transaction the target takes. -/
theorem wireStep_ok {s : State} {bytes : List Byte} {t : Tgt} {rx : List (Option Byte)} {i : Instr}
    (hc : s.cfg.chipPresent = true)
    (hx : Tgt.exchanges s.cfg [] bytes (s.tgt.tick s.cfg) = (t, rx))
    (hv : t.verdict s.cfg bytes = .ok i) :
    wireStep s bytes = .next { s with
      tgt := if bytes = [] then (t.commit s.cfg i).settle else t.commit s.cfg i
      wireRx := rx } := by
  unfold wireStep
  rw [hc, hx, if_pos rfl]
  simp only
  rw [Tgt.latch_ok hv]

/-- A raw transaction the target faults on. -/
theorem wireStep_fault {s : State} {bytes : List Byte} {f : TgtFault} (hc : s.cfg.chipPresent = true)
    (hv : (Tgt.exchanges s.cfg [] bytes (s.tgt.tick s.cfg)).1.verdict s.cfg bytes = .error f) :
    wireStep s bytes = .fault (f.toFault s.seq) := by
  unfold wireStep
  rw [hc, if_pos rfl]
  simp only
  rw [Tgt.latch_error hv]

theorem wireStep_wf {s t : State} {bytes : List Byte} (hw : s.tgt.Wf s.cfg)
    (h : wireStep s bytes = .next t) : t.tgt.Wf s.cfg := by
  rcases wireStep_next h with ⟨-, rfl⟩ | ⟨i, -, hv, rfl⟩
  · exact hw
  · have := (hw.tick.exchanges [] bytes).commit hv
    dsimp only
    split
    · exact this.settle
    · exact this

/-! ### What a step is -/

/-- Every way a step can answer a next state. -/
theorem step_cases {s t : State} (h : step s = .next t) :
    (s.resetIn = some 0 ∧ s.assertReset.finish = .next t) ∨
    (s.resetIn ≠ some 0 ∧ s.seq.pc = .initStart ∧ exec .init s = .next t) ∨
    (∃ g cs kept, s.resetIn ≠ some 0 ∧ s.seq.pc = .running g cs kept ∧ s.resume.finish = .next t) ∨
    (s.resetIn ≠ some 0 ∧ s.seq.pc = .idle ∧ s.requests = [] ∧
      t = { s.spend 1 with tgt := s.tgt.tick s.cfg }) ∨
    (∃ p rest i, s.resetIn ≠ some 0 ∧ s.seq.pc = .idle ∧ s.requests = p :: rest ∧
      decode s.cfg p = .ok i ∧ exec i (s.takePacket p rest) = .next t) ∨
    (∃ bytes rest why, s.resetIn ≠ some 0 ∧ s.seq.pc = .idle ∧ s.requests = .wire bytes :: rest ∧
      decodeWire s.cfg bytes = .error why ∧
      wireStep (s.takePacket (.wire bytes) rest) bytes = .next t) := by
  unfold step State.nextAction at h
  by_cases h0 : s.resetIn = some 0
  · simp only [h0, if_true] at h
    exact .inl ⟨h0, h⟩
  · simp only [h0, if_false] at h
    refine .inr ?_
    cases hp : s.seq.pc with
    | initStart => simp only [hp] at h; exact .inl ⟨h0, rfl, h⟩
    | running g cs kept => simp only [hp] at h; exact .inr (.inl ⟨g, cs, kept, h0, rfl, h⟩)
    | idle =>
      simp only [hp] at h
      cases hq : s.requests with
      | nil =>
        simp only [hq] at h
        cases h; exact .inr (.inr (.inl ⟨h0, rfl, rfl, rfl⟩))
      | cons p rest =>
        simp only [hq] at h
        cases hd : decode s.cfg p with
        | ok i =>
          simp only [hd] at h
          exact .inr (.inr (.inr (.inl ⟨p, rest, i, h0, rfl, rfl, hd, h⟩)))
        | error why =>
          simp only [hd] at h
          cases p with
          | host w d => cases h
          | wire bytes => exact .inr (.inr (.inr (.inr ⟨bytes, rest, why, h0, rfl, rfl, hd, h⟩)))

theorem step_of_reset {s : State} (h : s.resetIn = some 0) : step s = s.assertReset.finish := by
  simp [step, State.nextAction, h]

theorem step_of_running {s : State} (h : s.resetIn ≠ some 0) {g : Stage} {cs : List Call}
    {kept : List Byte} (hp : s.seq.pc = .running g cs kept) : step s = s.resume.finish := by
  simp [step, State.nextAction, h, hp]

theorem step_of_waiting {s : State} (h : s.resetIn ≠ some 0) (hp : s.seq.pc = .idle)
    (hq : s.requests = []) : step s = .next { s.spend 1 with tgt := s.tgt.tick s.cfg } := by
  simp [step, State.nextAction, h, hp, hq, waitStep]

/-- A raw transaction that is no command is one all the same. -/
theorem step_of_unknown {s : State} (h : s.resetIn ≠ some 0) (hp : s.seq.pc = .idle) {bytes : List Byte}
    {rest : List Packet} (hq : s.requests = .wire bytes :: rest) {why : DecodeError}
    (hd : decodeWire s.cfg bytes = .error why) :
    step s = wireStep (s.takePacket (.wire bytes) rest) bytes := by
  simp [step, State.nextAction, h, hp, hq, decode, hd, rejectPacket]

/-- A run of one step more, of any machine. -/
theorem run_succ (M : Host.Core) (k : Nat) {s t : M.State} (h : M.step s = .next t) :
    M.run (k + 1) s = M.run k t := by
  simp only [Host.Core.run, h]

/-- A run of one step more. -/
theorem core_run_succ (k : Nat) {s t : State} (h : step s = .next t) :
    Host.Core.run Sys2Proof.core (k + 1) s = Host.Core.run Sys2Proof.core k t :=
  run_succ Sys2Proof.core k h

/-- A predicate that every advance of SEQ keeps, through a whole operation. -/
theorem serve_keeps {P : State → Prop} (hk : ∀ s : State, P s → P s.callStep) {s t : State} {g : Stage}
    {cs : List Call} (h : P (s.begin g cs)) (e : s.serve g cs = .next t) : P t := by
  obtain ⟨rfl, -⟩ := State.finish_next e
  exact State.resume_keeps hk h

theorem resume_next {P : State → Prop} (hk : ∀ s : State, P s → P s.callStep) {s t : State} (h : P s)
    (e : s.resume.finish = .next t) : P t := by
  obtain ⟨rfl, -⟩ := State.finish_next e
  exact State.resume_keeps hk h

/-! ### Where an operation ends -/

/-- How many pieces SEQ has before it rests, the piece it is in included. -/
def Stage.pieces : Stage → Nat
  | .getStatus => 1
  | .getId => 1
  | .readPage => 1
  | .writePage => 1
  | .writeBuffer => 1
  | .bufferToMemory => 1
  | .erasePage => 1
  | .isReady => 1
  | .isErrorFlagged => 1
  | .enterUdpd => 1
  | .exitUdpd => 1
  | .sizeCheck _ => 2
  | .sizeSwitch _ => 1
  | .sizePoll _ => 2
  | .sizeRecheck _ => 1
  | .initIdent => 4
  | .initStatus => 3

/-- After a piece SEQ rests or has fewer pieces to go. -/
theorem State.endStage_pieces (s : State) (g : Stage) (kept : List Byte) :
    (s.endStage g kept).seq.pc.rests = true ∨
    ∃ g' cs, (s.endStage g kept).seq.pc = .running g' cs [] ∧ cs ≠ [] ∧ g'.pieces < g.pieces := by
  cases g with
  | sizeCheck c =>
    simp only [State.endStage]; split
    · cases c <;> exact .inl rfl
    · exact .inr ⟨_, _, rfl, by simp, Nat.lt_succ_self 1⟩
  | sizePoll c =>
    simp only [State.endStage]; split
    · exact .inr ⟨_, _, rfl, by simp, by simp [Stage.pieces]⟩
    · exact .inl rfl
  | sizeRecheck c => simp only [State.endStage]; cases c <;> exact .inl rfl
  | initIdent =>
    simp only [State.endStage]; split
    · exact .inr ⟨_, _, rfl, by simp, by decide⟩
    · split
      · exact .inr ⟨_, _, rfl, by simp, by decide⟩
      · exact .inl rfl
  | initStatus =>
    simp only [State.endStage]; split
    · exact .inl rfl
    · exact .inr ⟨_, _, rfl, by simp, by decide⟩
  | _ => exact .inl rfl

theorem State.calls_still {s : State} (h : s.callStep = s) (n : Nat) : s.calls n = s := by
  induction n with
  | zero => rfl
  | succ n ih => rw [State.calls_succ, h, ih]

theorem State.callStep_assertReset (s : State) : s.assertReset.callStep = s.assertReset := by
  simp [State.callStep]

/-- The calls left of a piece take SEQ to the end of it, or to a reset. -/
theorem State.calls_left {g : Stage} (cs : List Call) (hne : cs ≠ []) {s : State} {kept : List Byte}
    (hp : s.seq.pc = .running g cs kept) :
    (s.calls cs.length).seq.pc = .initStart ∨
      ∃ (u : State) (k : List Byte), s.calls cs.length = u.endStage g k := by
  induction cs generalizing s kept with
  | nil => exact absurd rfl hne
  | cons c cs ih =>
    rw [List.length_cons, State.calls_succ]
    by_cases h0 : s.resetIn = some 0
    · rw [s.callStep_reset h0, State.calls_still s.callStep_assertReset]
      exact .inl rfl
    · by_cases hc : cs = []
      · subst hc
        rw [s.callStep_last h0 hp]
        exact .inr ⟨_, _, rfl⟩
      · rw [s.callStep_more h0 hp hc]
        exact ih hc rfl

theorem State.carryOn_rests {g : Stage} {cs : List Call} (hne : cs ≠ []) {s : State} {kept : List Byte}
    (hp : s.seq.pc = .running g cs kept) (n : Nat) (hn : g.pieces ≤ n + 1) :
    ∃ k, cs.length ≤ k ∧ s.carryOn n = s.calls k ∧ (s.calls k).seq.pc.rests = true := by
  induction n generalizing s g cs kept with
  | zero =>
    refine ⟨cs.length, Nat.le_refl _, by rw [State.carryOn, hp]; rfl, ?_⟩
    rcases s.calls_left cs hne hp with e | ⟨u, k, e⟩
    · rw [e]; rfl
    · rw [e]
      rcases u.endStage_pieces g k with h | ⟨g', cs', -, -, h⟩
      · exact h
      · have : 0 < g'.pieces := by cases g' <;> simp [Stage.pieces]
        omega
  | succ n ih =>
    have hl : s.seq.pc.left = cs.length := by rw [hp]; rfl
    rw [State.carryOn_succ, hl]
    by_cases hr : (s.calls cs.length).seq.pc.rests = true
    · rw [if_pos hr]; exact ⟨cs.length, Nat.le_refl _, rfl, hr⟩
    · rw [if_neg hr]
      rcases s.calls_left cs hne hp with e | ⟨u, k, e⟩
      · rw [e] at hr; exact absurd rfl hr
      · rcases u.endStage_pieces g k with h | ⟨g', cs', hp', hc', h⟩
        · rw [e] at hr; exact absurd h hr
        · obtain ⟨m, hm, e1, e2⟩ := ih (s := s.calls cs.length) hc' (by rw [e]; exact hp') (by omega)
          refine ⟨cs.length + m, by omega, ?_, ?_⟩
          · rw [e1, State.calls_eq, State.calls_eq, State.calls_eq, Nat.add_comm,
              Function.iterate_add_apply]
          · rw [State.calls_eq, Nat.add_comm, Function.iterate_add_apply, ← State.calls_eq,
              ← State.calls_eq]
            exact e2

/-- An operation is a number of advances of SEQ, at least the calls left, to where it rests. -/
theorem State.resume_rests {g : Stage} {cs : List Call} (hne : cs ≠ []) {s : State} {kept : List Byte}
    (hp : s.seq.pc = .running g cs kept) :
    ∃ k, cs.length ≤ k ∧ s.resume = s.calls k ∧ (s.calls k).seq.pc.rests = true :=
  State.carryOn_rests hne hp 3 (by cases g <;> simp [Stage.pieces])

/-! ### The invariants, through an instruction and a step -/

theorem exec_inv {i : Instr} {s t : State} (h : s.Inv) (hcs : i ≠ .init → s.seq.cs = true)
    (e : exec i s = .next t) : t.Inv := by
  rcases instr_kinds i s with ⟨-, u, g, cs, ho⟩ | ⟨-, bytes, hb⟩ | rfl | rfl | rfl
  · rw [exec_opening ho] at e
    obtain ⟨f1, f2, f3, -, -, -, -, f8, -, -, -, f12, -⟩ := opening_frame ho
    obtain ⟨hne, hp⟩ := opening_calls ho
    have hu : u.InvAt := by
      refine ⟨by rw [f1, f2]; exact h.wf, ?_, by rw [f8, f3]; exact h.closed⟩
      rw [f12]; split
      · rfl
      · exact h.idHigh
    exact serve_keeps (fun _ h => h.callStep) (hu.begin hne (hp _ (by rw [f8]; exact hcs))) e
  · rw [exec_wire hb] at e
    have hw := wireStep_wf h.wf e
    rcases wireStep_next e with ⟨-, rfl⟩ | ⟨j, -, -, rfl⟩
    · exact State.InvAt.inv ⟨hw, h.idHigh, h.closed⟩ h.csHigh h.inside h.respOk
    · exact State.InvAt.inv ⟨hw, h.idHigh, h.closed⟩ h.csHigh h.inside h.respOk
  all_goals cases e

theorem State.Inv.takePacket {s : State} (h : s.Inv) (hp : s.seq.pc = .idle) (p : Packet)
    (rest : List Packet) : (s.takePacket p rest).Inv := by
  refine State.InvAt.inv ⟨by simpa using h.wf, by simpa using h.idHigh, by simpa using h.closed⟩
    (by simpa using h.csHigh) ?_ ?_
  · intro g cs kept e
    rw [State.takePacket_seq_pc, hp] at e; cases e
  · intro r e
    cases p with
    | host w d => cases e
    | wire bytes => exact h.respOk r e

/-- A fault is pending after an operation only if SEQ is inside one. -/
theorem State.faultInside_finish {s t : State} (e : s.finish = .next t) : t.FaultInside := by
  obtain ⟨rfl, h⟩ := State.finish_next e
  rcases h with h | h
  · intro hs; rw [h] at hs; cases hs
  · exact fun _ => h

theorem wireStep_faultInside {s t : State} {bytes : List Byte} (h : s.FaultInside)
    (e : wireStep s bytes = .next t) : t.FaultInside := by
  rcases wireStep_next e with ⟨-, rfl⟩ | ⟨j, -, -, rfl⟩
  · exact h
  · exact h

theorem exec_faultInside {i : Instr} {s t : State} (h : s.FaultInside) (e : exec i s = .next t) :
    t.FaultInside := by
  rcases instr_kinds i s with ⟨-, u, g, cs, ho⟩ | ⟨-, bytes, hb⟩ | rfl | rfl | rfl
  · rw [exec_opening ho] at e; exact State.faultInside_finish e
  · rw [exec_wire hb] at e; exact wireStep_faultInside h e
  all_goals cases e

theorem State.FaultInside.takePacket {s : State} (h : s.FaultInside) (p : Packet)
    (rest : List Packet) : (s.takePacket p rest).FaultInside := by
  simpa [State.FaultInside] using h

/-! ### The bus trace -/

theorem wholeTransactions_append {es fs : List BusEvent} (h : wholeTransactions es)
    (h' : wholeTransactions fs) : wholeTransactions (es ++ fs) := by
  simp only [wholeTransactions, List.foldl_append] at h h' ⊢
  rw [h, h']

theorem wholeTransactions_xact {bytes : List Byte} {mid : List Call} (h : exchangesOf bytes mid) :
    wholeTransactions ((xactCalls mid).map Call.driven) := by
  obtain ⟨h, -⟩ := h
  have : ∀ m : List Call, (∀ c ∈ m, ∃ tx sink, c = .xchg tx sink) →
      (m.map Call.driven).foldl Scan.next .inside = .inside := by
    intro m hm
    induction m with
    | nil => rfl
    | cons c m ih =>
      obtain ⟨tx, sink, rfl⟩ := hm c (by simp)
      exact ih fun c hc => hm c (by simp [hc])
  simp only [wholeTransactions, xactCalls, List.map_cons, List.map_append, List.foldl_cons,
    List.foldl_append, List.map_nil, List.foldl_nil]
  rw [show Scan.next .outside Call.csAssert.driven = .inside from rfl, this mid h]
  rfl

@[simp] theorem wholeTransactions_send (bytes : List Byte) :
    wholeTransactions ((sendCalls bytes).map Call.driven) :=
  wholeTransactions_xact (exchangesOf_discards bytes)
@[simp] theorem wholeTransactions_status (cfg : Config) :
    wholeTransactions ((statusCalls cfg).map Call.driven) :=
  wholeTransactions_xact (exchangesOf_query cfg _ 2)
@[simp] theorem wholeTransactions_ident (cfg : Config) :
    wholeTransactions ((identCalls cfg).map Call.driven) :=
  wholeTransactions_xact (exchangesOf_query cfg _ 3)
@[simp] theorem wholeTransactions_read (cfg : Config) (a : Addr) (n : Nat) :
    wholeTransactions ((readCalls cfg a n).map Call.driven) :=
  wholeTransactions_xact (exchangesOf_read cfg a n)
@[simp] theorem wholeTransactions_wake (cfg : Config) :
    wholeTransactions ((wakeCalls cfg).map Call.driven) := rfl

theorem opening_whole {i : Instr} {s u : State} {g : Stage} {cs : List Call}
    (h : opening i s = some (u, g, cs)) (hi : i ≠ .init) :
    wholeTransactions (cs.map Call.driven) := by
  cases i <;> cases h <;> first | simp | exact absurd rfl hi

theorem State.TraceWhole.callStep {s : State} (h : s.TraceWhole) : s.callStep.TraceWhole := by
  rcases s.callStep_cases with ⟨-, e⟩ | ⟨-, -, e⟩ | ⟨g, c, rest, kept, -, hp, hr, e⟩ | ⟨g, c, kept, -, hp, e⟩ <;>
    rw [e]
  · simp [State.TraceWhole]
  · exact h
  · simp only [State.TraceWhole, hp, State.setPc_pc, State.setPc_seq_trace, State.perform_driven,
      reduceCtorEq, if_false] at h ⊢
    simpa [SeqPc.toDrive] using h
  · simp only [State.TraceWhole, hp, reduceCtorEq, if_false] at h
    obtain ⟨hz, es, h1, h2⟩ := h
    have hd : (((s.spend 1).perform c).1.endStage g (kept ++ ((s.spend 1).perform c).2)).seq.trace.map
        BusEvent.driven = .cs1 :: .clk hz :: es := by
      rw [State.endStage_seq_trace, State.perform_driven]
      simpa [SeqPc.toDrive] using h1
    rcases ((s.spend 1).perform c).1.endStage_cases g (kept ++ ((s.spend 1).perform c).2) with
      ⟨id, v, e, -⟩ | ⟨id, g', cs, e, -, hc⟩
    · have hp' : (((s.spend 1).perform c).1.endStage g (kept ++ ((s.spend 1).perform c).2)).seq.pc = .idle := by
        rw [e]; rfl
      simp only [State.TraceWhole, hp', reduceCtorEq, if_false, hd]
      exact ⟨hz, es, by simp [SeqPc.toDrive], h2⟩
    · have hp' : (((s.spend 1).perform c).1.endStage g (kept ++ ((s.spend 1).perform c).2)).seq.pc =
          .running g' cs [] := by rw [e]; rfl
      simp only [State.TraceWhole, hp', reduceCtorEq, if_false, hd]
      refine ⟨hz, es ++ cs.map Call.driven, by simp [SeqPc.toDrive], wholeTransactions_append h2 ?_⟩
      rcases hc.1 with rfl | ⟨rfl, -⟩ <;> simp

theorem exec_traceWhole {i : Instr} {s t : State} (h : i ≠ .init → s.TraceWhole ∧ s.seq.pc = .idle)
    (e : exec i s = .next t) : t.TraceWhole := by
  rcases instr_kinds i s with ⟨-, u, g, cs, ho⟩ | ⟨hw, bytes, hb⟩ | rfl | rfl | rfl
  · rw [exec_opening ho] at e
    refine serve_keeps (fun _ h => h.callStep) ?_ e
    by_cases hi : i = .init
    · subst hi; cases ho
      exact ⟨_, _, rfl, wholeTransactions_ident s.cfg⟩
    · obtain ⟨h1, h2⟩ := h hi
      obtain ⟨-, -, -, -, -, -, -, -, -, -, f11, -⟩ := opening_frame ho
      rw [if_neg hi] at f11
      simp only [State.TraceWhole, h2, reduceCtorEq, if_false] at h1
      obtain ⟨hz, es, h3, h4⟩ := h1
      refine ⟨hz, es ++ cs.map Call.driven, ?_, wholeTransactions_append h4 (opening_whole ho hi)⟩
      have h3' : s.seq.trace.map BusEvent.driven = .cs1 :: .clk hz :: es := by
        simpa [SeqPc.toDrive] using h3
      simp [f11, h3', SeqPc.toDrive]
  · rw [exec_wire hb] at e
    have hi : i ≠ .init := by rintro rfl; cases hw
    rcases wireStep_next e with ⟨-, rfl⟩ | ⟨j, -, -, rfl⟩
    · exact (h hi).1
    · exact (h hi).1
  all_goals cases e

theorem State.TraceWhole.takePacket {s : State} (h : s.TraceWhole) (p : Packet) (rest : List Packet) :
    (s.takePacket p rest).TraceWhole := by
  simpa [State.TraceWhole] using h

/-! ### Transactions the target follows -/

theorem State.reaches_iff {s : State} :
    s.reaches = true ↔ s.cfg.chipPresent = true ∧ s.tgtFault = none := by
  simp [State.reaches]

theorem State.Undisturbed.reaches {s : State} (h : s.Undisturbed) : s.reaches = true :=
  State.reaches_iff.2 ⟨h.chip, h.noFault⟩

theorem State.answer_reached {s : State} (h : s.reaches = true) (tx : Byte) :
    s.answer tx = s.tgt.exchange s.cfg s.shifted tx := if_pos h

/-- Bytes sent, what comes back discarded. -/
theorem State.performAll_discards {s : State} (h : s.reaches = true) (bytes : List Byte) :
    s.performAll (discards bytes) = ({ s with
      tgt := (Tgt.exchanges s.cfg s.shifted bytes s.tgt).1
      shifted := s.shifted ++ bytes
      seq := { s.seq with trace := s.seq.trace ++ bytes.map (fun b => .x b none) } }, []) := by
  induction bytes generalizing s with
  | nil => simp [discards]
  | cons b bs ih =>
    have hr : (s.xchg b .discard).1.reaches = true := by simpa using h
    have := ih hr
    simp only [discards, List.map_cons, State.performAll_cons, State.perform] at this ⊢
    rw [this, State.xchg_discard, State.answer_reached h]
    simp [Tgt.exchanges_cons]

/-- Bytes kept, where the target answers at every position. -/
theorem State.performAll_keeps_answered {s : State} (h : s.reaches = true) (d : Byte) (k : Nat) {t : Tgt}
    {rx : List Byte} (hx : Tgt.exchanges s.cfg s.shifted (List.replicate k d) s.tgt = (t, rx.map some)) :
    s.performAll (List.replicate k (.xchg d .keep)) = ({ s with
      tgt := t
      shifted := s.shifted ++ List.replicate k d
      seq := { s.seq with trace := s.seq.trace ++ rx.map (fun b => .x d (some b)) } }, rx) := by
  induction k generalizing s rx with
  | zero =>
    simp only [List.replicate_zero, Tgt.exchanges_nil, Prod.mk.injEq] at hx
    obtain ⟨rfl, e⟩ := hx
    have : rx = [] := by simpa using e.symm
    subst this; simp
  | succ k ih =>
    have hr : (s.xchg d .keep).1.reaches = true := by simpa using h
    rw [List.replicate_succ, Tgt.exchanges_cons, Prod.mk.injEq] at hx
    obtain ⟨h1, h2⟩ := hx
    cases rx with
    | nil => cases h2
    | cons b bs =>
      simp only [List.map_cons, List.cons.injEq] at h2
      have e : s.xchg d .keep = ({ s with
          tgt := (s.tgt.exchange s.cfg s.shifted d).1
          shifted := s.shifted ++ [d]
          seq := { s.seq with trace := s.seq.trace ++ [.x d (some b)] } }, [b]) := by
        rw [State.xchg_keep, State.answer_reached h, h2.1]; rfl
      simp only [List.replicate_succ, State.performAll_cons, State.perform]
      have hi : Tgt.exchanges (s.xchg d .keep).1.cfg (s.xchg d .keep).1.shifted (List.replicate k d)
          (s.xchg d .keep).1.tgt = (t, bs.map some) := by
        rw [e]; exact Prod.ext h1 h2.2
      rw [ih hr hi, e]
      simp

/-- A transaction whose exchanges have been made: its `CS1`. -/
theorem State.csDeassert_reached {s : State} (h : s.reaches = true) (hc : s.seq.cs = false) :
    s.csDeassert = { s with
      tgt := (s.tgt.latch s.cfg s.shifted).1
      tgtFault := (s.tgt.latch s.cfg s.shifted).2
      shifted := []
      seq := { s.seq with trace := s.seq.trace ++ [.cs1], cs := true } } := by
  have he : s.edge = s.tgt.latch s.cfg s.shifted := by simp [State.edge, h, hc]
  rw [State.csDeassert_eq, he, (State.reaches_iff.1 h).2]
  rfl

theorem State.csAssert_reached {s : State} (h : s.reaches = true) :
    s.csAssert = { s with
      tgt := s.tgt.tick s.cfg
      shifted := []
      seq := { s.seq with trace := s.seq.trace ++ [.cs0], cs := false } } := by
  simp [State.csAssert, h, State.log]

/-- After its `CsAssert()` a transaction depends on the state that leaves alone. -/
theorem State.performAll_xactCalls (s : State) (mid : List Call) :
    s.performAll (xactCalls mid) = s.csAssert.performAll (mid ++ [.csDeassert]) := by
  simp [xactCalls, State.performAll_cons, State.perform]

/-- A whole transaction that keeps nothing. -/
theorem State.performAll_send {s : State} (h : s.reaches = true) {bytes : List Byte} {t : Tgt}
    {rx : List (Option Byte)} (hx : Tgt.exchanges s.cfg [] bytes (s.tgt.tick s.cfg) = (t, rx)) :
    s.performAll (sendCalls bytes) = ({ s with
      tgt := (t.latch s.cfg bytes).1
      tgtFault := (t.latch s.cfg bytes).2
      shifted := []
      seq := { s.seq with trace := s.seq.trace ++ sentEvents bytes, cs := true } }, []) := by
  have hr : s.csAssert.reaches = true := by simpa [State.reaches] using h
  have hd := State.performAll_discards hr bytes
  rw [State.csAssert_reached h] at hd
  simp only [hx] at hd
  simp only [sendCalls, xactCalls, State.performAll_cons, State.performAll_append, State.perform,
    State.performAll_nil]
  rw [State.csAssert_reached h, hd]
  simp only [List.append_nil, List.nil_append, Prod.mk.injEq, and_true]
  rw [State.csDeassert_reached (by simpa [State.reaches] using h) rfl]
  simp [sentEvents]

/-- A whole query, where the target answers at every position after the opcode. -/
theorem State.performAll_query {s : State} (h : s.reaches = true) {op : Byte} {k : Nat} {t : Tgt}
    {rx : List Byte}
    (hx : Tgt.exchanges s.cfg [] (queryBytes s.cfg op k) (s.tgt.tick s.cfg) = (t, none :: rx.map some)) :
    s.performAll (queryCalls s.cfg op k) = ({ s with
      tgt := (t.latch s.cfg (queryBytes s.cfg op k)).1
      tgtFault := (t.latch s.cfg (queryBytes s.cfg op k)).2
      shifted := []
      seq := { s.seq with trace := s.seq.trace ++ queryEvents op s.cfg.dummy rx, cs := true } }, rx) := by
  rw [queryBytes, Tgt.exchanges_cons, Prod.mk.injEq] at hx
  obtain ⟨h1, h2⟩ := hx
  simp only [List.cons.injEq] at h2
  simp only [queryCalls, xactCalls, List.cons_append, State.performAll_cons, State.performAll_append,
    State.perform, State.performAll_nil, List.nil_append, List.append_nil]
  rw [State.csAssert_reached h, State.xchg_discard, State.answer_reached (by simpa [State.reaches] using h)]
  have hk := State.performAll_keeps_answered
    (s := { s with
      tgt := (Tgt.exchange s.cfg [] op (s.tgt.tick s.cfg)).1
      shifted := [op]
      seq := { s.seq with trace := s.seq.trace ++ [.cs0] ++ [.x op none], cs := false } })
    (by simpa [State.reaches] using h) s.cfg.dummy k (t := t) (rx := rx)
    (Prod.ext (by simpa using h1) (by simpa using h2.2))
  simp only [List.nil_append] at hk ⊢
  rw [hk]
  simp only [Prod.mk.injEq, and_true]
  rw [State.csDeassert_reached (by simpa [State.reaches] using h) rfl]
  simp [queryEvents, queryBytes]

theorem decodeWire_statusQuery (cfg : Config) :
    decodeWire cfg (queryBytes cfg cfg.opcStatusRead 2) = .ok .wStatus := decodeWire_status cfg _ _

theorem decodeWire_idQuery {cfg : Config} (h : cfg.wf = true) :
    decodeWire cfg (queryBytes cfg cfg.opcIdRead 3) = .ok .wId := decodeWire_id h _ _ _

theorem Tgt.tick_answers {t : Tgt} (cfg : Config) (h : t.mode = .idle ∨ t.mode = .busy) :
    (t.tick cfg).mode = .idle ∨ (t.tick cfg).mode = .busy := by
  rcases t.tick_mode cfg with e | ⟨-, e⟩
  · rwa [e]
  · exact .inl e

/-- A status read the target answers: byte1, an opportunity for TGT-COMPLETE, byte2 (47_target.md R171). -/
theorem State.performAll_status {s : State} (h : s.reaches = true)
    (hm : s.tgt.mode = .idle ∨ s.tgt.mode = .busy) :
    let t := s.tgt.tick s.cfg
    let u := t.drawn.tick s.cfg
    s.performAll (statusCalls s.cfg) = ({ s with
      tgt := u.drawn
      shifted := []
      seq := { s.seq with trace := s.seq.trace ++ statusEvents s.cfg t.byte1 u.byte2, cs := true } },
      [t.byte1, u.byte2]) := by
  intro t u
  have ht := Tgt.tick_answers s.cfg hm
  have hu : u.mode = .idle ∨ u.mode = .busy := Tgt.tick_answers s.cfg (t := t.drawn) (by simpa using ht)
  have hx : Tgt.exchanges s.cfg [] (queryBytes s.cfg s.cfg.opcStatusRead 2) t =
      (u.drawn, none :: [t.byte1, u.byte2].map some) :=
    Tgt.exchanges_status s.cfg s.cfg.dummy s.cfg.dummy ht
  have hv : u.drawn.verdict s.cfg (queryBytes s.cfg s.cfg.opcStatusRead 2) = .ok .wStatus := by
    refine Tgt.verdict_ok (decodeWire_statusQuery _) ?_ rfl
    rw [gate_none]
    rcases hu with hu | hu
    · exact .inl (by simpa using hu)
    · exact .inr (.inl ⟨by simpa using hu, .inr rfl⟩)
  rw [statusCalls, State.performAll_query h hx, Tgt.latch_ok hv, ← (State.reaches_iff.1 h).2]
  rfl

/-- An identifier read of an idle target (R172). -/
theorem State.performAll_ident {s : State} (h : s.reaches = true) (hw : s.cfg.wf = true)
    (hm : s.tgt.mode = .idle) :
    let rx := [s.tgt.devId.extractLsb' 16 8, s.tgt.devId.extractLsb' 8 8, s.tgt.devId.extractLsb' 0 8]
    s.performAll (identCalls s.cfg) = ({ s with
      shifted := []
      seq := { s.seq with
        trace := s.seq.trace ++ queryEvents s.cfg.opcIdRead s.cfg.dummy rx, cs := true } }, rx) := by
  intro rx
  have hx : Tgt.exchanges s.cfg [] (queryBytes s.cfg s.cfg.opcIdRead 3) (s.tgt.tick s.cfg) =
      (s.tgt, none :: rx.map some) := by
    rw [Tgt.tick_of_idle _ _ hm]; exact Tgt.exchanges_ident hw _ _ _ hm
  have hv : s.tgt.verdict s.cfg (queryBytes s.cfg s.cfg.opcIdRead 3) = .ok .wId :=
    Tgt.verdict_idle (decodeWire_idQuery hw) hm rfl
  rw [identCalls, State.performAll_query h hx, Tgt.latch_ok hv, ← (State.reaches_iff.1 h).2]
  rfl

/-- The identifier the three bytes of `DEV_ID` make (41_status_id.md R111). -/
theorem identOf_devId (d : BitVec 24) :
    identOf [d.extractLsb' 16 8, d.extractLsb' 8 8, d.extractLsb' 0 8] = d.setWidth 32 := by
  apply BitVec.eq_of_getLsbD_eq
  intro i hi
  show (assembleId (d.extractLsb' 16 8) (d.extractLsb' 8 8) (d.extractLsb' 0 8)).getLsbD i = _
  simp only [assembleId, BitVec.getLsbD_or, BitVec.getLsbD_shiftLeft, BitVec.getLsbD_setWidth,
    BitVec.getLsbD_extractLsb']
  rcases Nat.lt_or_ge i 8 with h | h
  · simp [h, show i < 16 by omega, hi]
  · rcases Nat.lt_or_ge i 16 with h' | h'
    · simp [h', show ¬ i < 8 by omega, show i - 8 < 8 by omega, show 8 + (i - 8) = i by omega, hi,
        show i - 8 < 32 by omega]
    · rcases Nat.lt_or_ge i 24 with h'' | h''
      · simp [show ¬ i < 16 by omega, show ¬ i < 8 by omega, show i - 16 < 8 by omega,
          show ¬ i - 8 < 8 by omega, show 16 + (i - 16) = i by omega, hi, show i - 16 < 32 by omega]
      · simp [show ¬ i < 16 by omega, show ¬ i < 8 by omega, show ¬ i - 16 < 8 by omega,
          show ¬ i - 8 < 8 by omega, BitVec.getLsbD_of_ge d i h'']

/-- The cells a page read answers do not depend on the draws. -/
@[simp] theorem Tgt.pageCell_free (t : Tgt) (d : Draws) (a : Addr) :
    ({ t with free := d } : Tgt).pageCell a = t.pageCell a := rfl

/-- The data phase of a page read, from position `k`, its bytes stored in the host's buffer. -/
theorem State.performAll_readData {s : State} (h : s.reaches = true) (hw : s.cfg.wf = true) (a : Addr)
    (hm : s.tgt.mode = .idle) (hc : ∀ k, s.tgt.check s.cfg (.wRead a k) = none) (n : Nat)
    (pre buf : List Byte) (hs : s.shifted = readHeader s.cfg a ++ List.replicate pre.length s.cfg.dummy)
    (hb : s.seq.hostBuf = pre ++ buf.drop pre.length) :
    let got := Draws.fill ((List.range' pre.length n).map (s.tgt.pageCell a)) s.tgt.free
    s.performAll ((List.range' pre.length n).map fun i => .xchg s.cfg.dummy (.hostOut i)) = ({ s with
      tgt := { s.tgt with free := got.2 }
      shifted := s.shifted ++ List.replicate n s.cfg.dummy
      seq := { s.seq with
        trace := s.seq.trace ++ got.1.map (fun b => .x s.cfg.dummy (some b))
        hostBuf := (pre ++ got.1) ++ buf.drop (pre.length + n) } }, []) := by
  induction n generalizing s pre with
  | zero => simp [← hb]
  | succ n ih =>
    intro got
    let b := (s.tgt.free.receive (s.tgt.pageCell a pre.length)).1
    let f := (s.tgt.free.receive (s.tgt.pageCell a pre.length)).2
    have ha : s.answer s.cfg.dummy = (s.tgt, s.tgt.pageCell a pre.length) := by
      rw [State.answer_reached h, hs]; exact Tgt.exchange_read hw a _ _ hm (hc _)
    have e : s.xchg s.cfg.dummy (.hostOut pre.length) = ({ s with
        tgt := { s.tgt with free := f }
        shifted := s.shifted ++ [s.cfg.dummy]
        seq := { s.seq with
          trace := s.seq.trace ++ [.x s.cfg.dummy (some b)]
          hostBuf := (pre ++ [b]) ++ buf.drop (pre.length + 1) } }, []) := by
      rw [State.xchg_hostOut, ha, hb, hostOut_next]
    have hi := ih (s := { s with
        tgt := { s.tgt with free := f }
        shifted := s.shifted ++ [s.cfg.dummy]
        seq := { s.seq with
          trace := s.seq.trace ++ [.x s.cfg.dummy (some b)]
          hostBuf := (pre ++ [b]) ++ buf.drop (pre.length + 1) } })
      (by simpa [State.reaches] using h) hw hm (fun k => hc k) (pre ++ [b])
      (by rw [hs]; simp [List.replicate_succ'])
      (by simp)
    simp only [List.length_append, List.length_cons, List.length_nil, Nat.zero_add] at hi
    simp only [List.range'_succ, List.map_cons, State.performAll_cons, State.perform]
    rw [e]
    simp only [List.nil_append]
    rw [hi]
    have hg : got = (b :: (Draws.fill ((List.range' (pre.length + 1) n).map (s.tgt.pageCell a)) f).1,
        (Draws.fill ((List.range' (pre.length + 1) n).map (s.tgt.pageCell a)) f).2) := by
      show Draws.fill _ _ = _
      rw [List.range'_succ, List.map_cons, Draws.fill_cons]
    rw [hg]
    simp [List.replicate_succ, Nat.add_assoc, Nat.add_comm 1]

/-- A whole page read of an idle target that passes its checks (43_page_read.md R130, R131). -/
theorem State.performAll_read {s : State} (h : s.reaches = true) (hw : s.cfg.wf = true) (a : Addr)
    (hm : s.tgt.mode = .idle) (hc : ∀ k, s.tgt.check s.cfg (.wRead a k) = none) (n : Nat) :
    let got := Draws.fill ((List.range n).map (s.tgt.pageCell a)) s.tgt.free
    s.performAll (readCalls s.cfg a n) = ({ s with
      tgt := { s.tgt with free := got.2 }
      shifted := []
      seq := { s.seq with
        trace := s.seq.trace ++ .cs0 :: ((readHeader s.cfg a).map (fun b => .x b none) ++
          got.1.map (fun b => .x s.cfg.dummy (some b)) ++ [.cs1])
        cs := true
        hostBuf := got.1 ++ s.seq.hostBuf.drop n } }, []) := by
  intro got
  have hr : s.csAssert.reaches = true := by simpa [State.reaches] using h
  have hd := State.performAll_discards hr (readHeader s.cfg a)
  rw [State.csAssert_reached h, Tgt.tick_of_idle _ _ hm] at hd
  simp only [Tgt.exchanges_readHeader hw] at hd
  have hq := State.performAll_readData
    (s := { s with
      shifted := readHeader s.cfg a
      seq := { s.seq with
        trace := s.seq.trace ++ [.cs0] ++ (readHeader s.cfg a).map (fun b => .x b none), cs := false } })
    (by simpa [State.reaches] using h) hw a hm hc n [] s.seq.hostBuf (by simp) rfl
  simp only [List.length_nil, List.nil_append, Nat.zero_add, ← List.range_eq_range'] at hq hd
  simp only [readCalls, xactCalls, List.append_assoc, State.performAll_cons, State.performAll_append,
    State.perform, State.performAll_nil, List.nil_append, List.append_nil]
  rw [State.csAssert_reached h, Tgt.tick_of_idle _ _ hm, hd]
  simp only
  rw [hq]
  simp only [Prod.mk.injEq]
  rw [State.csDeassert_reached (by simpa [State.reaches] using h) rfl]
  have hv : ({ s.tgt with free := got.2 } : Tgt).verdict s.cfg
      (readHeader s.cfg a ++ List.replicate n s.cfg.dummy) = .ok (.wRead a n) :=
    Tgt.verdict_idle (decodeWire_read hw a n) hm (hc n)
  simp only
  rw [Tgt.latch_ok hv, ← (State.reaches_iff.1 h).2]
  simp [Tgt.commit, got]

/-! ### SEQ's side of a transaction, whatever the target does -/

/-- SEQ's side of a query: the bytes it keeps are those on the bus trace. -/
theorem State.performAll_query_seq (s : State) (cfg : Config) (op : Byte) (k : Nat) :
    (s.performAll (queryCalls cfg op k)).2.length = k ∧
      (s.performAll (queryCalls cfg op k)).1.seq = { s.seq with
        trace := s.seq.trace ++ queryEvents op cfg.dummy (s.performAll (queryCalls cfg op k)).2
        cs := true } := by
  have h := State.performAll_keeps_seq cfg.dummy k (s.csAssert.xchg op .discard).1
  simp only [queryCalls, xactCalls, List.cons_append, State.performAll_cons, State.performAll_append,
    State.perform, State.performAll_nil, List.append_nil]
  have e : (s.csAssert.xchg op .discard).2 = [] := rfl
  rw [e, List.nil_append]
  refine ⟨h.1, ?_⟩
  rw [State.csDeassert_eq]
  simp only
  rw [h.2]
  simp [State.xchg_discard, queryEvents]

/-- SEQ's side of a page read: the bytes on the bus trace are those stored in the host's buffer. -/
theorem State.performAll_read_seq (s : State) (cfg : Config) (a : Addr) (n : Nat) :
    ∃ rx : List Byte, rx.length = n ∧
      (s.performAll (readCalls cfg a n)).1.seq = { s.seq with
        trace := s.seq.trace ++ .cs0 :: ((readHeader cfg a).map (fun b => .x b none) ++
          rx.map (fun b => .x cfg.dummy (some b)) ++ [.cs1])
        cs := true
        hostBuf := rx ++ s.seq.hostBuf.drop n } := by
  have hd := State.performAll_discards_seq (readHeader cfg a) s.csAssert
  obtain ⟨rx, hl, -, h⟩ := State.performAll_hostOuts_seq cfg.dummy n s.seq.hostBuf
    (s.csAssert.performAll (discards (readHeader cfg a))).1 [] (by rw [hd.1]; rfl)
  simp only [List.length_nil, ← List.range_eq_range'] at h
  refine ⟨rx, hl, ?_⟩
  simp only [readCalls, xactCalls, List.append_assoc, State.performAll_cons, State.performAll_append,
    State.perform, State.performAll_nil]
  rw [State.csDeassert_eq]
  simp only
  rw [h, hd.1]
  simp

/-! ### Operations of one transaction -/

/-- A piece that ends with a return of zero. -/
def Stage.returnsZero (g : Stage) : Prop := ∀ (s : State) (kept : List Byte), s.endStage g kept = s.respond 0

/-- An operation that sends one transaction, which the target takes. -/
theorem State.serve_send {s : State} (hu : s.Undisturbed) {g : Stage} (hg : g.returnsZero)
    {bytes : List Byte} {t : Tgt} {rx : List (Option Byte)} {i : Instr}
    (hx : Tgt.exchanges s.cfg [] bytes (s.tgt.tick s.cfg) = (t, rx))
    (hv : t.verdict s.cfg bytes = .ok i) :
    s.serve g (sendCalls bytes) = .next (s.served (sentEvents bytes) 0 (t.commit s.cfg i)) := by
  rw [State.serve_piece (by simp) hu.noReset (by rw [hg]; rfl), hg,
    State.performAll_send hu.reaches hx, Tgt.latch_ok hv, State.finish_of_ok rfl]
  rw [State.served, ← hu.noFault]; rfl

/-- The exchanges of a command with an address and no data. -/
theorem Tgt.exchanges_addr {op : Byte} (ho : plainOpcode cfg op) (a : Addr) (t : Tgt) :
    Tgt.exchanges cfg [] (addrHeader op a) t = (t, [none, none, none, none]) :=
  Tgt.exchanges_header ho (addrBytes a) (by simp) t

/-- The exchanges of a command that loads a buffer, on an idle target that passes its checks. -/
theorem Tgt.exchanges_write {cfg : Config} {t : Tgt} {op : Byte} (ho : plainOpcode cfg op) (b : BufId)
    (a : Addr) (i : List Byte → Instr)
    (hi : ∀ d, decodeWire cfg (addrHeader op a ++ d) = .ok (i d))
    (hd : ∀ d tx (u : Tgt), u.dataByte (i d) tx = (u.loadByte b (off a + d.length) tx, none))
    (hm : t.mode = .idle)
    (hc : ∀ d (u : Tgt), u.nvBinary = t.nvBinary → u.check cfg (i d) = none) (data : List Byte) :
    Tgt.exchanges cfg [] (addrHeader op a ++ data) t =
      (t.loadBuffer b a data, [none, none, none, none] ++ data.map fun _ => none) := by
  rw [Tgt.exchanges_append, Tgt.exchanges_addr ho]
  have := Tgt.exchanges_load ho (args := addrBytes a) b a i hi hd hm hc [] data
  rw [List.append_nil] at this
  simp only [List.nil_append]
  rw [show addrHeader op a = op :: addrBytes a from rfl, this]
  rfl

theorem Tgt.pageCheck_ready {s : State} {a : Addr} (h : s.PageReady a) (u : Tgt)
    (hb : u.nvBinary = s.tgt.nvBinary) : u.pageCheck s.cfg a = none := by
  simp [Tgt.pageCheck, h.inArray, hb, h.binaryMode]

theorem decodeWire_prog {cfg : Config} (h : cfg.wf = true) (pw : Bool) (a : Addr) (d : List Byte) :
    decodeWire cfg (addrHeader (progOpcode cfg pw) a ++ d) =
      .ok (if pw then .wProg2 a d else .wProg1 a d) := by
  cases pw
  · exact decodeWire_prog1 h a d
  · exact decodeWire_prog2 h a d

theorem decodeWire_bufw {cfg : Config} (h : cfg.wf = true) (bw : Bool) (a : Addr) (d : List Byte) :
    decodeWire cfg (addrHeader (bufwOpcode cfg bw) a ++ d) =
      .ok (if bw then .wBufw2 a d else .wBufw1 a d) := by
  cases bw
  · exact decodeWire_bufw1 h a d
  · exact decodeWire_bufw2 h a d

theorem decodeWire_b2m {cfg : Config} (h : cfg.wf = true) (bw : Bool) (a : Addr) :
    decodeWire cfg (addrHeader (b2mOpcode cfg bw) a) = .ok (if bw then .wB2m2 a else .wB2m1 a) := by
  cases bw
  · exact decodeWire_b2m1 h a
  · exact decodeWire_b2m2 h a

theorem plain_all (hw : cfg.wf = true) :
    plainOpcode cfg cfg.psz0 ∧ plainOpcode cfg cfg.opcPageRead ∧ plainOpcode cfg cfg.opcPageErase ∧
      plainOpcode cfg cfg.opcUdpd ∧ ∀ b, plainOpcode cfg (progOpcode cfg b) ∧
        plainOpcode cfg (bufwOpcode cfg b) ∧ plainOpcode cfg (b2mOpcode cfg b) := by
  have := Config.opcodes_apart hw
  simp [Config.firstBytes] at this
  refine ⟨?_, ?_, ?_, ?_, fun b => ?_⟩
  case refine_5 => cases b <;> simp [plainOpcode, progOpcode, bufwOpcode, b2mOpcode, this]
  all_goals simp [plainOpcode, this]

/-- The exchanges of `W_PROG1`, `W_PROG2` on a target ready for the page. -/
theorem State.exchanges_prog {s : State} (hw : s.cfg.wf = true) {a : Addr} (h : s.PageReady a) (b : Bool)
    (data : List Byte) :
    Tgt.exchanges s.cfg [] (addrHeader (progOpcode s.cfg b) a ++ data) (s.tgt.tick s.cfg) =
      (s.tgt.loadBuffer (selBuf b) a data, [none, none, none, none] ++ data.map fun _ => none) := by
  rw [Tgt.tick_of_idle _ _ h.idle]
  refine Tgt.exchanges_write ((plain_all hw).2.2.2.2 b).1 _ a _ (decodeWire_prog hw b a) ?_ h.idle ?_ data
  · intro d tx u; cases b <;> rfl
  · intro d u hu; cases b <;> exact Tgt.pageCheck_ready h u hu

/-- The exchanges of `W_BUFW1`, `W_BUFW2` on an idle binary target. -/
theorem State.exchanges_bufw {s : State} (hw : s.cfg.wf = true) (hm : s.tgt.mode = .idle)
    (hb : s.tgt.nvBinary = true) (a : Addr) (b : Bool) (data : List Byte) :
    Tgt.exchanges s.cfg [] (addrHeader (bufwOpcode s.cfg b) a ++ data) (s.tgt.tick s.cfg) =
      (s.tgt.loadBuffer (selBuf b) a data, [none, none, none, none] ++ data.map fun _ => none) := by
  rw [Tgt.tick_of_idle _ _ hm]
  refine Tgt.exchanges_write ((plain_all hw).2.2.2.2 b).2.1 _ a _ (decodeWire_bufw hw b a) ?_ hm ?_ data
  · intro d tx u; cases b <;> rfl
  · intro d u hu; cases b <;> simp [Tgt.check, hu, hb]

/-! ### What an operation of one transaction is, for its faults -/

/-- The command and the bytes of an operation of one transaction but the wake, and of a wire command. -/
def transactionOf (cfg : Config) (pw bw : Bool) (i : Instr) : Option (Instr × List Byte) :=
  match i with
  | .init => none
  | .getStatus => some (.wStatus, queryBytes cfg cfg.opcStatusRead 2)
  | .getId => some (.wId, queryBytes cfg cfg.opcIdRead 3)
  | .readPage a n => some (.wRead a n, readHeader cfg a ++ List.replicate n cfg.dummy)
  | .writePage a d => some (if pw then .wProg2 a d else .wProg1 a d, addrHeader (progOpcode cfg pw) a ++ d)
  | .writeBuffer o d =>
    some (if bw then .wBufw2 (offsetAddr o) d else .wBufw1 (offsetAddr o) d,
      addrHeader (bufwOpcode cfg bw) (offsetAddr o) ++ d)
  | .bufferToMemory a => some (if bw then .wB2m2 a else .wB2m1 a, addrHeader (b2mOpcode cfg bw) a)
  | .erasePage a => some (.wErase a, addrHeader cfg.opcPageErase a)
  | .isReady => some (.wStatus, queryBytes cfg cfg.opcStatusRead 2)
  | .isErrorFlagged => some (.wStatus, queryBytes cfg cfg.opcStatusRead 2)
  | .setBinaryPageSize => none
  | .enterUdpd => some (.wUdpd, [cfg.opcUdpd])
  | .exitUdpd => none
  | .reserved13 => none
  | .reserved14 => none
  | .reserved15 => none
  | .wStatus => some (.wStatus, queryBytes cfg cfg.opcStatusRead 2)
  | .wId => some (.wId, queryBytes cfg cfg.opcIdRead 3)
  | .wPsz => some (.wPsz, pageSizeBytes cfg)
  | .wRead a n => some (.wRead a n, readHeader cfg a ++ List.replicate n cfg.dummy)
  | .wProg1 a d => some (.wProg1 a d, addrHeader cfg.opcProgB1 a ++ d)
  | .wProg2 a d => some (.wProg2 a d, addrHeader cfg.opcProgB2 a ++ d)
  | .wBufw1 a d => some (.wBufw1 a d, addrHeader cfg.opcBufwB1 a ++ d)
  | .wBufw2 a d => some (.wBufw2 a d, addrHeader cfg.opcBufwB2 a ++ d)
  | .wB2m1 a => some (.wB2m1 a, addrHeader cfg.opcB2mB1 a)
  | .wB2m2 a => some (.wB2m2 a, addrHeader cfg.opcB2mB2 a)
  | .wErase a => some (.wErase a, addrHeader cfg.opcPageErase a)
  | .wUdpd => some (.wUdpd, [cfg.opcUdpd])
  | .wWake => some (.wWake, [])

theorem transactionOf_decode {cfg : Config} (h : cfg.wf = true) {pw bw : Bool} {i j : Instr}
    {bytes : List Byte} (e : transactionOf cfg pw bw i = some (j, bytes)) :
    decodeWire cfg bytes = .ok j := by
  cases i <;> cases e
  case readPage a n => exact decodeWire_read h a n
  case wRead a n => exact decodeWire_read h a n
  case writePage a d => exact decodeWire_prog h pw a d
  case writeBuffer o d => exact decodeWire_bufw h bw _ d
  case bufferToMemory a => exact decodeWire_b2m h bw a
  case wPsz => exact decodeWire_psz h
  case wProg1 a d => exact decodeWire_prog1 h a d
  case wProg2 a d => exact decodeWire_prog2 h a d
  case wBufw1 a d => exact decodeWire_bufw1 h a d
  case wBufw2 a d => exact decodeWire_bufw2 h a d
  case wB2m1 a => exact decodeWire_b2m1 h a
  case wB2m2 a => exact decodeWire_b2m2 h a
  case wWake => rfl
  all_goals first
    | exact decodeWire_statusQuery cfg
    | exact decodeWire_idQuery h
    | exact decodeWire_erase h _
    | exact decodeWire_udpd h

/-- Such an operation is that transaction. -/
theorem transactionOf_exec {s : State} {i j : Instr} {bytes : List Byte}
    (e : transactionOf s.cfg s.seq.pwSel s.seq.bwSel i = some (j, bytes)) :
    (∃ u g mid, opening i s = some (u, g, xactCalls mid) ∧ exchangesOf bytes mid ∧
      ∀ (v : State) (kept : List Byte), (v.endStage g kept).seq.pc = .idle) ∨
    exec i s = wireStep s bytes := by
  cases i <;> cases e <;>
    first
    | exact .inr rfl
    | exact .inl ⟨_, _, _, rfl, exchangesOf_query _ _ _, fun _ _ => rfl⟩
    | exact .inl ⟨_, _, _, rfl, exchangesOf_read _ _ _, fun _ _ => rfl⟩
    | exact .inl ⟨_, _, _, rfl, exchangesOf_discards _, fun _ _ => rfl⟩

/-- What a transaction is turned down for is not changed by its own exchanges, but for a status read of a
target that can answer one. -/
theorem Tgt.exchange_refused {cfg : Config} {u : Tgt} {bytes : List Byte}
    (hd : bytes.head? ≠ some cfg.opcStatusRead ∨ u.mode = .udpd ∨ u.mode = .dpd)
    (pre post : List Byte) (tx : Byte) (t : Tgt) (hb : bytes = pre ++ tx :: post)
    (h : t.mode = u.mode ∧ t.nvBinary = u.nvBinary ∧ t.nvCycles = u.nvCycles) :
    (t.exchange cfg pre tx).1.mode = u.mode ∧ (t.exchange cfg pre tx).1.nvBinary = u.nvBinary ∧
      (t.exchange cfg pre tx).1.nvCycles = u.nvCycles := by
  rcases hd with hd | hd
  · have hp : pre.head? ≠ some cfg.opcStatusRead := by
      cases pre with
      | nil => simp
      | cons p ps => subst hb; simpa using hd
    obtain ⟨h1, -, -, h4, -, -, -, h8, -⟩ := Tgt.exchange_frame hp tx t
    exact ⟨h1.trans h.1, h4.trans h.2.1, h8.trans h.2.2⟩
  · rw [Tgt.quiet_deaf (by rw [h.1]; rcases hd with h | h <;> simp [h]) tx]; exact h

/-- A target that turns a transaction of SEQ down. -/
theorem State.performAll_refused {s : State} (hr : s.reaches = true) {bytes : List Byte} {mid : List Call}
    (hm : exchangesOf bytes mid) {f : TgtFault}
    (hd : bytes.head? ≠ some s.cfg.opcStatusRead ∨ s.tgt.mode = .udpd ∨ s.tgt.mode = .dpd)
    (hv : (s.tgt.tick s.cfg).verdict s.cfg bytes = .error f) :
    (s.performAll (xactCalls mid)).1.tgtFault = some f := by
  have ht : bytes.head? ≠ some s.cfg.opcStatusRead ∨ (s.tgt.tick s.cfg).mode = .udpd ∨
      (s.tgt.tick s.cfg).mode = .dpd := by
    rcases hd with h | h
    · exact .inl h
    · rw [Tgt.tick_of_not_busy s.cfg s.tgt (by rcases h with h | h <;> simp [h])]; exact .inr h
  obtain ⟨t, h1, -, h2⟩ := State.performAll_xact (s := s) hm
    (P := fun u => u.mode = (s.tgt.tick s.cfg).mode ∧ u.nvBinary = (s.tgt.tick s.cfg).nvBinary ∧
      u.nvCycles = (s.tgt.tick s.cfg).nvCycles)
    ⟨fun _ _ h => h, fun pre post tx t hb h => Tgt.exchange_refused ht pre post tx t hb h⟩
    (by rw [State.csAssert_reached hr]; exact ⟨rfl, rfl, rfl⟩)
  rw [h2, hr, if_pos rfl, (State.reaches_iff.1 hr).2,
    Tgt.latch_error ((Tgt.verdict_congr bytes h1.1 h1.2.1 h1.2.2).trans hv)]
  rfl

/-- A target that turns a raw transaction down. -/
theorem wireStep_refused {s : State} (hc : s.cfg.chipPresent = true) {bytes : List Byte} {f : TgtFault}
    (hd : bytes.head? ≠ some s.cfg.opcStatusRead ∨ s.tgt.mode = .udpd ∨ s.tgt.mode = .dpd)
    (hv : (s.tgt.tick s.cfg).verdict s.cfg bytes = .error f) :
    wireStep s bytes = .fault (f.toFault s.seq) := by
  have ht : bytes.head? ≠ some s.cfg.opcStatusRead ∨ (s.tgt.tick s.cfg).mode = .udpd ∨
      (s.tgt.tick s.cfg).mode = .dpd := by
    rcases hd with h | h
    · exact .inl h
    · rw [Tgt.tick_of_not_busy s.cfg s.tgt (by rcases h with h | h <;> simp [h])]; exact .inr h
  have h1 := Tgt.exchanges_induct (cfg := s.cfg) (P := fun u => u.mode = (s.tgt.tick s.cfg).mode ∧
    u.nvBinary = (s.tgt.tick s.cfg).nvBinary ∧ u.nvCycles = (s.tgt.tick s.cfg).nvCycles) [] bytes _
    ⟨rfl, rfl, rfl⟩ fun pre post tx u hb h => by
      simpa using Tgt.exchange_refused ht pre post tx u hb h
  exact wireStep_fault hc ((Tgt.verdict_congr bytes h1.1 h1.2.1 h1.2.2).trans hv)

/-- An operation of one transaction, or a wire command, that the target turns down. -/
theorem exec_one_fault {s : State} (hu : s.Undisturbed) {i j : Instr} {bytes : List Byte}
    (e : transactionOf s.cfg s.seq.pwSel s.seq.bwSel i = some (j, bytes)) {f : TgtFault}
    (hd : bytes.head? ≠ some s.cfg.opcStatusRead ∨ s.tgt.mode = .udpd ∨ s.tgt.mode = .dpd)
    (hv : (s.tgt.tick s.cfg).verdict s.cfg bytes = .error f) :
    ∃ q, exec i s = .fault (f.toFault q) := by
  rcases transactionOf_exec e with ⟨u, g, mid, ho, hm, hg⟩ | ew
  · obtain ⟨f1, f2, f3, f4, -, f6, -⟩ := opening_frame ho
    have h2 := State.performAll_refused (s := u) (by simpa [State.reaches, f1, f4] using hu.reaches) hm
      (f := f) (by rw [f1, f2]; exact hd) (by rw [f1, f2]; exact hv)
    refine ⟨((u.performAll (xactCalls mid)).1.endStage g (u.performAll (xactCalls mid)).2).seq, ?_⟩
    rw [exec_opening ho, State.serve_piece (by simp) (by rw [f6, hu.noReset])
      (by rw [hg]; rfl)]
    exact State.finish_idle (by rw [State.endStage_tgtFault, h2]) (hg _ _)
  · exact ⟨s.seq, by rw [ew]; exact wireStep_refused hu.chip hd hv⟩

/-! ### The wake pulse -/

/-- A bare pulse of any length with any delay after it. -/
theorem State.performAll_pulse {s : State} (h : s.reaches = true) (p n : Nat) :
    s.performAll [.csAssert, .delay p, .csDeassert, .delay n] = ({ s with
      tgt := ((s.tgt.tick s.cfg).latch s.cfg []).1
      tgtFault := ((s.tgt.tick s.cfg).latch s.cfg []).2
      shifted := []
      seq := { s.seq with trace := s.seq.trace ++ [.cs0, .dly p, .cs1, .dly n], cs := true } }, []) := by
  have hr : (s.csAssert.delay p).reaches = true := by simpa [State.reaches] using h
  have e : s.performAll [.csAssert, .delay p, .csDeassert, .delay n] =
      ((s.csAssert.delay p).csDeassert.delay n, []) := rfl
  rw [e, State.csDeassert_reached hr (by simp), State.csAssert_reached h]
  simp [State.delay, State.log]

/-- The bare pulse and the settle time's delay (46_power_down.md R161). -/
theorem State.performAll_wake {s : State} (h : s.reaches = true) :
    s.performAll (wakeCalls s.cfg) = ({ s with
      tgt := ((s.tgt.tick s.cfg).latch s.cfg []).1
      tgtFault := ((s.tgt.tick s.cfg).latch s.cfg []).2
      shifted := []
      seq := { s.seq with
        trace := s.seq.trace ++ [.cs0, .dly s.cfg.tWakePulse, .cs1, .dly Config.tWakeSettle]
        cs := true } }, []) := by
  rw [wakeCalls]
  exact State.performAll_pulse h s.cfg.tWakePulse Config.tWakeSettle

/-! ### INIT's first calls -/

/-- INIT's `CS1` and clock, then its identifier read. -/
theorem State.performAll_init (s : State) :
    s.performAll (initCalls s.cfg) =
      (s.csDeassert.setClock (min s.cfg.cfgMaxHz Config.chipMaxHz)).performAll (identCalls s.cfg) := by
  simp only [initCalls, State.performAll_cons, State.perform, List.nil_append]

/-- The `CS1` of a chip-select that is high already is an event and nothing more. -/
theorem State.csDeassert_high {s : State} (h : s.seq.cs = true) :
    s.csDeassert = { s with
      shifted := [], seq := { s.seq with trace := s.seq.trace ++ [.cs1], cs := true } } := by
  have he : s.edge = (s.tgt, none) := by simp [State.edge, h]
  rw [State.csDeassert_eq, he]
  cases s.tgtFault <;> rfl

/-! ### Operations SEQ is in, whatever the target does -/

/-- SEQ has returned with a response and chip-select high, or is inside an operation with calls left
that pair; no reset is due. -/
def State.Underway (s : State) : Prop :=
  s.resetIn = none ∧
    ((s.seq.pc = .idle ∧ s.seq.cs = true ∧ ∃ v, s.seq.resp = some ⟨true, v⟩) ∨
      ∃ g cs kept, s.seq.pc = .running g cs kept ∧ cs ≠ [] ∧ callsPair s.seq.cs cs = true ∧
        s.seq.resp = none)

theorem State.Underway.after {s : State} (hr : s.resetIn = none) {g : Stage} {c : Call}
    {rest : List Call} {kept : List Byte} (hp : s.seq.pc = .running g (c :: rest) kept)
    (hc : callsPair (c.csAfter s.seq.cs) rest = true) (hn : s.seq.resp = none) :
    s.callStep.Underway := by
  have h0 : s.resetIn ≠ some 0 := by simp [hr]
  by_cases hne : rest = []
  · subst hne
    rw [s.callStep_last h0 hp]
    have hcs : ((s.spend 1).perform c).1.seq.cs = true := by simpa [callsPair] using hc
    rcases ((s.spend 1).perform c).1.endStage_cases g (kept ++ ((s.spend 1).perform c).2) with
      ⟨id, v, e, -⟩ | ⟨id, g', cs, e, -, hc⟩ <;> rw [e]
    · refine ⟨?_, .inl ⟨rfl, ?_, v, rfl⟩⟩ <;> split <;> first | exact hcs | simp [hr]
    · refine ⟨by simp [hr], .inr ⟨g', cs, [], rfl, ?_, ?_, rfl⟩⟩
      · rcases hc.1 with rfl | ⟨rfl, -⟩ <;> simp
      · show callsPair ((s.spend 1).perform c).1.seq.cs cs = true
        rw [hcs]
        rcases hc.1 with rfl | ⟨rfl, -⟩ <;> simp
  · rw [s.callStep_more h0 hp hne]
    exact ⟨by simp [hr], .inr ⟨_, _, _, rfl, hne, by simpa using hc, by simp [hn]⟩⟩

theorem State.Underway.callStep {s : State} (h : s.Underway) : s.callStep.Underway := by
  obtain ⟨hr, ⟨h1, h2⟩ | ⟨g, cs, k, h1, h2, h3, h4⟩⟩ := h
  · rw [show s.callStep = s by simp [State.callStep, hr, h1]]
    exact ⟨hr, .inl ⟨h1, h2⟩⟩
  · cases cs with
    | nil => exact absurd rfl h2
    | cons c rest => exact State.Underway.after hr h1 (callsPair_tail h3) h4

/-- The first call of an operation drives chip-select. -/
theorem opening_first {i : Instr} {s u : State} {g : Stage} {cs : List Call}
    (h : opening i s = some (u, g, cs)) (b : Bool) :
    ∃ c rest, cs = c :: rest ∧ callsPair (c.csAfter b) rest = true := by
  obtain ⟨hne, hp⟩ := opening_calls h
  have hp := hp true (fun _ => rfl)
  cases cs with
  | nil => exact absurd rfl hne
  | cons c rest =>
    refine ⟨c, rest, rfl, ?_⟩
    have ht := callsPair_tail hp
    have hb : c.csAfter b = c.csAfter true := by cases i <;> cases h <;> rfl
    rw [hb]; exact ht

/-- Where SEQ rests with an operation underway: it has returned, or is at the start of a turn of the
poll loop. -/
theorem State.calls_left_poll {g : Stage} (cs : List Call) (hne : cs ≠ []) {s : State} {kept : List Byte}
    (hp : s.seq.pc = .running g cs kept) :
    (s.calls cs.length).seq.pc.rests = true →
      (s.calls cs.length).seq.pc = .idle ∨ (s.calls cs.length).seq.pc = .initStart ∨
        ∃ c, (s.calls cs.length).seq.pc = .polling (s.calls cs.length).cfg c := by
  intro hr
  rcases s.calls_left cs hne hp with e | ⟨u, k, e⟩
  · exact .inr (.inl e)
  · rw [e] at hr ⊢
    rcases u.endStage_cases g k with ⟨id, v, e, -⟩ | ⟨id, g', cs', e, -, hc⟩ <;> rw [e] at hr ⊢
    · exact .inl rfl
    · have hg : g'.isPoll = true := hr
      rcases hc.1 with rfl | ⟨-, h⟩
      · cases g' with
      | sizePoll c => exact .inr (.inr ⟨c, rfl⟩)
      | _ => cases hg
      · rw [hg] at h; cases h

theorem State.carryOn_poll {g : Stage} {cs : List Call} (hne : cs ≠ []) {s : State} {kept : List Byte}
    (hp : s.seq.pc = .running g cs kept) (n : Nat) (hn : g.pieces ≤ n + 1) :
    (s.carryOn n).seq.pc = .idle ∨ (s.carryOn n).seq.pc = .initStart ∨
      ∃ c, (s.carryOn n).seq.pc = .polling (s.carryOn n).cfg c := by
  have hl : s.seq.pc.left = cs.length := by rw [hp]; rfl
  induction n generalizing s g cs kept with
  | zero =>
    obtain ⟨k, -, e1, e2⟩ := State.carryOn_rests hne hp 0 hn
    rw [State.carryOn, hl] at e1 ⊢
    refine State.calls_left_poll cs hne hp ?_
    rw [e1]; exact e2
  | succ n ih =>
    rw [State.carryOn_succ, hl]
    by_cases hr : (s.calls cs.length).seq.pc.rests = true
    · rw [if_pos hr]; exact State.calls_left_poll cs hne hp hr
    · rw [if_neg hr]
      rcases s.calls_left cs hne hp with e | ⟨u, k, e⟩
      · rw [e] at hr; exact absurd rfl hr
      · rcases u.endStage_pieces g k with h | ⟨g', cs', hp', hc', h⟩
        · rw [e] at hr; exact absurd h hr
        · exact ih (s := s.calls cs.length) hc' (by rw [e]; exact hp') (by omega)
            (by rw [e, hp']; rfl)

/-- Everything that can come of an operation, or of a turn of the poll loop, that no reset strikes:
SEQ has returned with a response or is at the start of a turn, chip-select high. -/
def State.Ended (s : State) : Prop :=
  s.seq.cs = true ∧
    ((s.seq.pc = .idle ∧ ∃ v, s.seq.resp = some ⟨true, v⟩) ∨
      ∃ c, s.seq.pc = .polling s.cfg c ∧ s.seq.resp = none)

theorem State.resume_ended {s : State} (h : s.callStep.Underway) {g : Stage} {cs : List Call}
    {kept : List Byte} (hp : s.seq.pc = .running g cs kept) (hne : cs ≠ []) : s.resume.Ended := by
  have hu : s.resume.Underway := by
    obtain ⟨k, hk, e, -⟩ := State.resume_rests hne hp
    obtain ⟨m, rfl⟩ : ∃ m, k = m + 1 := by
      cases k with
      | zero => exact absurd (by simpa using hk) hne
      | succ m => exact ⟨m, rfl⟩
    rw [e, State.calls_succ]
    exact State.calls_keeps (fun _ h => h.callStep) m h
  obtain ⟨-, hu⟩ := hu
  rcases State.carryOn_poll hne hp 3 (by cases g <;> simp [Stage.pieces]) with e | e | ⟨c, e⟩
  · rcases hu with ⟨-, h1, h2⟩ | ⟨g, cs, k, h1, -⟩
    · exact ⟨h1, .inl ⟨e, h2⟩⟩
    · rw [State.resume, e] at h1; cases h1
  · rcases hu with ⟨h1, -⟩ | ⟨g, cs, k, h1, -⟩ <;> (rw [State.resume, e] at h1; cases h1)
  · rcases hu with ⟨h1, -⟩ | ⟨g, cs, k, h1, -, h3, h4⟩
    · rw [State.resume, e] at h1; cases h1
    · rw [State.resume] at h1 h3 h4
      rw [e] at h1; cases h1
      refine ⟨?_, .inr ⟨c, e, h4⟩⟩
      cases hcs : (s.carryOn 3).seq.cs with
      | false => rw [hcs] at h3; cases h3
      | true => exact hcs

/-- How an operation ends that no reset strikes, whatever the target does. -/
theorem exec_ended {i : Instr} (hi : i.isOperation = true) {s : State} (hr : s.resetIn = none) :
    ∃ u : State, exec i s = u.finish ∧ u.Ended := by
  obtain ⟨u, g, cs, ho⟩ := opening_of_operation hi s
  obtain ⟨c, rest, rfl, hc⟩ := opening_first ho u.seq.cs
  have hu : u.resetIn = none := by rw [(opening_frame ho).2.2.2.2.2.1, hr]
  exact ⟨_, exec_opening ho, State.resume_ended
    (State.Underway.after (s := u.begin g (c :: rest)) hu rfl hc rfl) rfl (by simp)⟩

/-! ### Faults, through an operation -/

/-- A fault the target has raised stays (60_exceptions.md R207). -/
theorem State.perform_tgtFault {s : State} {f : TgtFault} (h : s.tgtFault = some f) (c : Call) :
    (s.perform c).1.tgtFault = some f := by
  cases c with
  | csDeassert =>
    show s.csDeassert.tgtFault = _
    rw [State.csDeassert_tgtFault, h]; rfl
  | xchg tx sink => exact (s.xchg_tgtFault tx sink).trans h
  | csAssert => exact h
  | delay ns => exact h
  | setClock hz => exact h

theorem State.callStep_tgtFault {s : State} {f : TgtFault} (h : s.tgtFault = some f) :
    s.callStep.tgtFault = some f := by
  rcases s.callStep_cases with ⟨-, e⟩ | ⟨-, -, e⟩ | ⟨g, c, rest, kept, -, -, -, e⟩ | ⟨g, c, kept, -, -, e⟩ <;>
    rw [e]
  · exact h
  · exact h
  · exact State.perform_tgtFault (by simpa using h) c
  · rw [State.endStage_tgtFault]; exact State.perform_tgtFault (by simpa using h) c

/-- An ended operation in which the target has raised a fault. -/
theorem State.Ended.faultsWith {s : State} (h : s.Ended) {f : TgtFault} (hf : s.tgtFault = some f) :
    faultsWith f s.finish := by
  obtain ⟨-, ⟨hp, -⟩ | ⟨c, hp, -⟩⟩ := h
  · rw [State.finish_idle hf hp]; exact ⟨_, rfl⟩
  · have : s.finish = .next s := by simp [State.finish, hf, hp, SeqPc.polling]
    rw [this]; exact ⟨hf, c, hp⟩

/-- A fault raised in the first piece is there wherever SEQ rests. -/
theorem State.carryOn_tgtFault {s : State} {g : Stage} {cs : List Call} (hne : cs ≠ [])
    (hr : s.resetIn = none) {f : TgtFault} (h : (s.performAll cs).1.tgtFault = some f) (n : Nat) :
    ((s.begin g cs).carryOn n).tgtFault = some f := by
  have e : ((s.begin g cs).calls cs.length).tgtFault = some f := by
    rw [State.calls_piece cs hne (s := s.begin g cs) hr rfl, State.performAll_begun,
      State.endStage_tgtFault]
    exact h
  cases n with
  | zero => exact e
  | succ n =>
    rw [State.carryOn_succ]
    split
    · exact e
    · exact State.carryOn_keeps (P := fun u => u.tgtFault = some f)
        (fun u h => State.callStep_tgtFault h) n e

/-- An operation that no reset strikes, and in which the target raises a fault. -/
theorem exec_faultsWith {i : Instr} {s u : State} {g : Stage} {cs : List Call}
    (ho : opening i s = some (u, g, cs)) (hr : s.resetIn = none) {f : TgtFault}
    (h : (u.begin g cs).resume.tgtFault = some f) : faultsWith f (exec i s) := by
  obtain ⟨c, rest, rfl, hc⟩ := opening_first ho u.seq.cs
  have hu : u.resetIn = none := by rw [(opening_frame ho).2.2.2.2.2.1, hr]
  rw [exec_opening ho]
  exact State.Ended.faultsWith (State.resume_ended
    (State.Underway.after (s := u.begin g (c :: rest)) hu rfl hc rfl) rfl (by simp)) h

/-- Without a chip nothing raises a fault (93_implementation_defined.md U3). -/
theorem State.callStep_noChip {s : State} (h : s.cfg.chipPresent = false ∧ s.tgtFault = none) :
    s.callStep.cfg.chipPresent = false ∧ s.callStep.tgtFault = none := by
  obtain ⟨hc, hf⟩ := h
  have hp : ∀ c, ((s.spend 1).perform c).1.tgtFault = none := by
    intro c
    cases c with
    | csDeassert =>
      show (s.spend 1).csDeassert.tgtFault = none
      rw [State.csDeassert_tgtFault]
      simp [State.edge, State.reaches, hc, hf]
    | xchg tx sink => exact ((s.spend 1).xchg_tgtFault tx sink).trans hf
    | csAssert => exact hf
    | delay ns => exact hf
    | setClock hz => exact hf
  rcases s.callStep_cases with ⟨-, e⟩ | ⟨-, -, e⟩ | ⟨g, c, rest, kept, -, -, -, e⟩ | ⟨g, c, kept, -, -, e⟩ <;>
    rw [e]
  · exact ⟨hc, hf⟩
  · exact ⟨hc, hf⟩
  · exact ⟨by simpa using hc, hp c⟩
  · exact ⟨by simpa using hc, by rw [State.endStage_tgtFault]; exact hp c⟩

/-! ### The parameters, through an operation and a step -/

theorem State.callStep_cfg (s : State) : s.callStep.cfg = s.cfg := by
  rcases s.callStep_cases with ⟨-, e⟩ | ⟨-, -, e⟩ | ⟨g, c, rest, kept, -, -, -, e⟩ | ⟨g, c, kept, -, -, e⟩ <;>
    rw [e]
  · simp
  · simp
  · simp

theorem State.callStep_requests (s : State) : s.callStep.requests = s.requests := by
  rcases s.callStep_cases with ⟨-, e⟩ | ⟨-, -, e⟩ | ⟨g, c, rest, kept, -, -, -, e⟩ | ⟨g, c, kept, -, -, e⟩ <;>
    rw [e]
  · simp
  · simp
  · simp

theorem State.resume_cfg (s : State) : s.resume.cfg = s.cfg :=
  State.resume_keeps (P := fun u => u.cfg = s.cfg) (fun u h => (u.callStep_cfg).trans h) rfl

theorem State.resume_requests (s : State) : s.resume.requests = s.requests :=
  State.resume_keeps (P := fun u => u.requests = s.requests) (fun u h => (u.callStep_requests).trans h) rfl

/-! ### The target, through an operation no reset strikes -/

/-- A predicate of the target that a transaction of these bytes keeps: draws, TGT-COMPLETE, its
exchanges and its `CS1` do. -/
structure Tame (cfg : Config) (bytes : List Byte) (P : Tgt → Prop) : Prop where
  kept : KeptBy cfg bytes P
  tick : ∀ t : Tgt, P t → P (t.tick cfg)
  latch : ∀ t : Tgt, P t → P (t.latch cfg bytes).1

theorem State.performAll_tame {P : Tgt → Prop} {s : State} {bytes : List Byte} {mid : List Call}
    (hm : exchangesOf bytes mid) (h : Tame s.cfg bytes P) (hP : P s.tgt) :
    P (s.performAll (xactCalls mid)).1.tgt := by
  have h0 : P s.csAssert.tgt := by
    show P (if s.reaches then s.tgt.tick s.cfg else s.tgt)
    split
    · exact h.tick _ hP
    · exact hP
  obtain ⟨t, ht, e, -⟩ := State.performAll_xact hm h.kept h0
  rw [e]; split
  · exact h.latch _ ht
  · exact ht

/-- An operation keeps what its first piece and the two transactions of SETBINARYPAGESIZE keep. -/
theorem State.carryOn_tgt {P : Tgt → Prop} (n : Nat) {s : State} {g : Stage} {cs : List Call}
    (hne : cs ≠ []) (hr : s.resetIn = none) (hg : g ≠ .exitUdpd)
    (hs : Tame s.cfg (queryBytes s.cfg s.cfg.opcStatusRead 2) P)
    (hp : Tame s.cfg (pageSizeBytes s.cfg) P) (h : P (s.performAll cs).1.tgt) :
    P ((s.begin g cs).carryOn n).tgt := by
  have he : ∀ {s : State} {g : Stage} {cs : List Call}, g ≠ .exitUdpd → P (s.performAll cs).1.tgt →
      P ((s.performAll cs).1.endStage g (s.performAll cs).2).tgt := by
    intro s g cs hg h
    rw [State.endStage_tgt, if_neg hg]; exact h
  induction n generalizing s g cs with
  | zero =>
    rw [State.carryOn, show (s.begin g cs).seq.pc.left = cs.length from rfl,
      State.calls_piece cs hne (s := s.begin g cs) hr rfl, State.performAll_begun, State.endStage_begun,
      List.nil_append]
    exact he hg h
  | succ n ih =>
    rw [State.carryOn_piece hne hr]
    split
    · exact he hg h
    · next hrest =>
      rcases (s.performAll cs).1.endStage_cases g (s.performAll cs).2 with
        ⟨id, v, e, -⟩ | ⟨id, g', cs', e, -, hc⟩
      · rw [e] at hrest; exact absurd rfl hrest
      · have hc' : (s.performAll cs).1.cfg = s.cfg := by simp
        have hQ : P ((s.performAll cs).1.cacheId id).tgt := h
        rw [e]
        rw [hc'] at hc
        refine ih (s := (s.performAll cs).1.cacheId id) ?_ (by simpa using hr) hc.2.1
          (by rw [State.cacheId_cfg, hc']; exact hs) (by rw [State.cacheId_cfg, hc']; exact hp) ?_
        · rcases hc.1 with rfl | ⟨rfl, -⟩ <;> simp
        · rcases hc.1 with rfl | ⟨rfl, -⟩
          · exact State.performAll_tame (exchangesOf_query _ _ 2)
              (by rw [State.cacheId_cfg, hc']; exact hs) hQ
          · exact State.performAll_tame (exchangesOf_discards _)
              (by rw [State.cacheId_cfg, hc']; exact hp) hQ

/-! ### The target, through any number of primitive calls -/

/-- A predicate of the target that whatever a transaction can do to it keeps: draws, TGT-COMPLETE, an
exchange, a `CS1`. -/
structure Tgt.Keeps (cfg : Config) (P : Tgt → Prop) : Prop where
  free : ∀ (t : Tgt) (d : Draws), P t → P { t with free := d }
  tick : ∀ t : Tgt, P t → P (t.tick cfg)
  exchange : ∀ (before : List Byte) (tx : Byte) (t : Tgt), P t → P (t.exchange cfg before tx).1
  latch : ∀ (bytes : List Byte) (t : Tgt), P t → P (t.latch cfg bytes).1

/-- An advance of SEQ: a wake too, if it ends EXITUDPD. -/
theorem State.callStep_tgt {P : Tgt → Prop} {s : State} (hk : Tgt.Keeps s.cfg P) (h : P s.tgt) :
    P s.callStep.tgt ∨ ((∃ rest kept, s.seq.pc = .running .exitUdpd rest kept) ∧
      ∃ t : Tgt, P t ∧ s.callStep.tgt = t.settle ∧ s.callStep.seq.pc = .idle) := by
  have hp : ∀ c, P ((s.spend 1).perform c).1.tgt := fun c =>
    (s.spend 1).perform_tgt c h (hk.tick _ h) (fun tx => hk.exchange _ tx _ h)
      hk.free (hk.latch _ _ h)
  rcases s.callStep_cases with ⟨-, e⟩ | ⟨-, -, e⟩ | ⟨g, c, rest, kept, -, -, -, e⟩ | ⟨g, c, kept, -, hpc, e⟩ <;>
    rw [e]
  · exact .inl h
  · exact .inl h
  · exact .inl (hp c)
  · rw [State.endStage_tgt]
    by_cases hg : g = .exitUdpd
    · subst hg
      rw [if_pos rfl]
      show P (if _ then _ else _) ∨ _
      by_cases hr : ((s.spend 1).perform c).1.reaches = true
      · exact .inr ⟨⟨_, _, hpc⟩, _, hp c, if_pos hr, rfl⟩
      · exact .inl (by rw [if_neg hr]; exact hp c)
    · rw [if_neg hg]; exact .inl (hp c)

/-- A raw transaction that is answered: a wake too, if it is the pulse. -/
theorem wireStep_tgt {P : Tgt → Prop} {s t : State} {bytes : List Byte} (hk : Tgt.Keeps s.cfg P)
    (h : P s.tgt) (e : wireStep s bytes = .next t) :
    P t.tgt ∨ (bytes = [] ∧ ∃ u : Tgt, P u ∧ t.tgt = u.settle) := by
  rcases wireStep_next e with ⟨-, rfl⟩ | ⟨i, -, hv, rfl⟩
  · exact .inl h
  · have hx : P (Tgt.exchanges s.cfg [] bytes (s.tgt.tick s.cfg)).1 :=
      Tgt.exchanges_induct _ _ _ (hk.tick _ h) fun _ _ tx u _ hu => hk.exchange _ tx u hu
    have hl := hk.latch bytes _ hx
    rw [Tgt.latch_ok hv] at hl
    by_cases hb : bytes = []
    · exact .inr ⟨hb, _, hl, if_pos hb⟩
    · exact .inl (by simpa [hb] using hl)

/-! ### Pieces one after the other, when no reset strikes -/

/-- A piece after which SEQ starts on another. -/
theorem State.carryOn_next {s u : State} {g g' : Stage} {cs cs' : List Call} (hne : cs ≠ [])
    (hr : s.resetIn = none) (n : Nat)
    (h : (s.performAll cs).1.endStage g (s.performAll cs).2 = u.begin g' cs') (hp : g'.isPoll = false) :
    (s.begin g cs).carryOn (n + 1) = (u.begin g' cs').carryOn n := by
  rw [State.carryOn_piece hne hr, h, if_neg]
  simp [SeqPc.rests, hp]

/-- A piece after which SEQ rests. -/
theorem State.carryOn_last {s u : State} {g : Stage} {cs : List Call} (hne : cs ≠ [])
    (hr : s.resetIn = none) (n : Nat)
    (h : (s.performAll cs).1.endStage g (s.performAll cs).2 = u) (hp : u.seq.pc.rests = true) :
    (s.begin g cs).carryOn n = u := by
  cases n with
  | zero =>
    rw [State.carryOn, show (s.begin g cs).seq.pc.left = cs.length from rfl,
      State.calls_piece cs hne (s := s.begin g cs) hr rfl, State.performAll_begun, State.endStage_begun,
      List.nil_append, h]
  | succ n => rw [State.carryOn_piece hne hr, h, if_pos hp]

theorem State.carryOn_congr {s s' : State} (h : s.calls s.seq.pc.left = s'.calls s'.seq.pc.left)
    (n : Nat) : s.carryOn n = s'.carryOn n := by
  cases n with
  | zero => exact h
  | succ n => rw [State.carryOn_succ, State.carryOn_succ, h]

/-- A step of the poll loop, as a piece begun there. -/
theorem step_of_polling {s : State} (hr : s.resetIn = none) {c : Caller}
    (hp : s.seq.pc = .polling s.cfg c) :
    step s = ((s.begin (.sizePoll c) (statusCalls s.cfg)).carryOn 3).finish := by
  rw [step_of_running (by simp [hr]) hp, State.resume]
  refine congrArg State.finish (State.carryOn_congr ?_ 3)
  have h1 : (s.begin (.sizePoll c) (statusCalls s.cfg)).calls (statusCalls s.cfg).length =
      s.calls (statusCalls s.cfg).length := by
    rw [State.calls_piece _ (by simp) hr hp,
      State.calls_piece _ (by simp) (s := s.begin (.sizePoll c) (statusCalls s.cfg)) hr rfl,
      State.performAll_begun, State.endStage_begun]
  rw [hp]
  exact h1.symm

/-! ### Operations a reset cuts -/

/-- A call does not look at the reset input. -/
theorem State.perform_spend (s : State) (n : Nat) (c : Call) :
    (s.spend n).perform c = ((s.perform c).1.spend n, (s.perform c).2) := by
  cases c with
  | xchg tx sink => cases sink <;> rfl
  | _ => rfl

theorem State.performAll_spend (cs : List Call) (s : State) (n : Nat) :
    (s.spend n).performAll cs = ((s.performAll cs).1.spend n, (s.performAll cs).2) := by
  induction cs generalizing s with
  | nil => rfl
  | cons c cs ih => simp [State.performAll_cons, State.perform_spend, ih]

/-- A piece in which the reset strikes after `m` calls. -/
theorem State.calls_cut {g : Stage} (cs : List Call) {m : Nat} (hm : m < cs.length) {s : State}
    (hr : s.resetIn = some m) {kept : List Byte} (hp : s.seq.pc = .running g cs kept) :
    s.calls cs.length = (s.performAll (cs.take m)).1.assertReset := by
  induction cs generalizing s m kept with
  | nil => simp at hm
  | cons c cs ih =>
    rw [List.length_cons, State.calls_succ]
    cases m with
    | zero =>
      rw [s.callStep_reset hr, State.calls_still s.callStep_assertReset]
      simp
    | succ m =>
      have hm' : m < cs.length := by simpa using hm
      have hne : cs ≠ [] := by rintro rfl; simp at hm'
      rw [s.callStep_more (by simp [hr]) hp hne, ih hm' (by simp [hr]) rfl, State.performAll_setPc,
        State.perform_spend, State.performAll_spend]
      simp only [List.take_succ_cons, State.performAll_cons]
      rfl

/-- An operation in whose first piece the reset strikes. -/
theorem State.serve_cut {g : Stage} {cs : List Call} {m : Nat} (hm : m < cs.length) {s : State}
    (hr : s.resetIn = some m) :
    s.serve g cs = (s.performAll (cs.take m)).1.assertReset.finish := by
  have e : (s.begin g cs).calls cs.length = (s.performAll (cs.take m)).1.assertReset := by
    rw [State.calls_cut cs hm (s := s.begin g cs) hr rfl, State.performAll_begun]
    rfl
  rw [State.serve, State.resume, State.carryOn_succ,
    show (s.begin g cs).seq.pc.left = cs.length from rfl, e]
  rfl

/-- The bytes sent so far of a transaction that keeps nothing. -/
theorem take_sendCalls {bytes : List Byte} {k : Nat} (h : k ≤ bytes.length) :
    (sendCalls bytes).take (k + 1) = .csAssert :: discards (bytes.take k) := by
  simp [sendCalls, xactCalls, discards, List.take_append_of_le_length, h]

/-- The header of a page read, or the part of it sent so far. -/
theorem Tgt.exchanges_readHeader_take {cfg : Config} (hw : cfg.wf = true) (a : Addr) (k : Nat) (t : Tgt) :
    (Tgt.exchanges cfg [] ((readHeader cfg a).take k) t).1 = t := by
  have h := Tgt.exchanges_readHeader hw a t
  rw [← List.take_append_drop k (readHeader cfg a), Tgt.exchanges_append] at h
  rw [Tgt.exchanges_quiet _ fun pre post e hp => ?_]
  have he : readHeader cfg a = pre ++ (post ++ (readHeader cfg a).drop k) := by
    rw [← List.append_assoc, ← e, List.take_append_drop]
  cases pre with
  | nil => exact fun _ => rfl
  | cons p ps =>
    simp only [readHeader, List.cons_append, List.cons.injEq] at he
    obtain ⟨rfl, he⟩ := he
    have hl := congrArg List.length he
    have : post.length ≠ 0 := by simpa using hp
    simp at hl
    exact Tgt.quiet_pageRead hw ps (by omega)

/-- A command with data, or the part of it sent so far. -/
theorem State.exchanges_prog_take {s : State} (hw : s.cfg.wf = true) {a : Addr} (h : s.PageReady a)
    (b : Bool) (data : List Byte) (k : Nat) :
    (Tgt.exchanges s.cfg [] ((addrHeader (progOpcode s.cfg b) a ++ data).take k) s.tgt).1 =
      s.tgt.loadBuffer (selBuf b) a (data.take (k - 4)) := by
  have hl : (addrHeader (progOpcode s.cfg b) a).length = 4 := rfl
  rw [List.take_append, hl]
  rcases Nat.lt_or_ge k 4 with hk | hk
  · rw [show k - 4 = 0 by omega, List.take_zero, List.append_nil]
    have ho := ((plain_all hw).2.2.2.2 b).1
    cases k with
    | zero => rfl
    | succ k =>
      rw [show addrHeader (progOpcode s.cfg b) a = progOpcode s.cfg b :: addrBytes a from rfl,
        List.take_succ_cons, Tgt.exchanges_header ho _ (by simp)]
      rfl
  · rw [List.take_of_length_le (by omega)]
    have := State.exchanges_prog hw h b (data.take (k - 4))
    rw [Tgt.tick_of_idle _ _ h.idle] at this
    rw [this]

/-! ### SEQ's registers, through an operation no reset strikes -/

/-- The pieces that write `ID_CACHE` when they end (10_state.md R11). -/
def Stage.writesId : Stage → Bool
  | .getStatus => false
  | .getId => true
  | .readPage => false
  | .writePage => false
  | .writeBuffer => false
  | .bufferToMemory => false
  | .erasePage => false
  | .isReady => false
  | .isErrorFlagged => false
  | .enterUdpd => false
  | .exitUdpd => false
  | .sizeCheck c => c == .init
  | .sizeSwitch c => c == .init
  | .sizePoll c => c == .init
  | .sizeRecheck c => c == .init
  | .initIdent => true
  | .initStatus => true

/-- A piece that does not write it keeps it, and so does what follows. -/
theorem State.endStage_idCache {s : State} {g : Stage} (h : g.writesId = false) (kept : List Byte) :
    (s.endStage g kept).seq.idCache = s.seq.idCache ∧
      ∀ g' cs k, (s.endStage g kept).seq.pc = .running g' cs k → g'.writesId = false := by
  cases g with
  | getId => cases h
  | initIdent => cases h
  | initStatus => cases h
  | sizeCheck c =>
    cases c
    · simp only [State.endStage]; split <;> refine ⟨rfl, ?_⟩ <;> rintro g' cs k e <;> cases e
      rfl
    · cases h
  | sizeSwitch c =>
    cases c
    · refine ⟨rfl, ?_⟩; rintro g' cs k e; cases e; rfl
    · cases h
  | sizePoll c =>
    cases c
    · simp only [State.endStage]; split <;> refine ⟨rfl, ?_⟩ <;> rintro g' cs k e <;> cases e <;> rfl
    · cases h
  | sizeRecheck c =>
    cases c
    · refine ⟨rfl, ?_⟩; rintro g' cs k e; cases e
    · cases h
  | _ => refine ⟨rfl, ?_⟩; rintro g' cs k e; cases e

/-- The rotation flags change at the start of an operation only (10_state.md R12, R13). -/
theorem State.callStep_flags {s : State} (h : s.resetIn = none) :
    s.callStep.resetIn = none ∧ s.callStep.seq.pwSel = s.seq.pwSel ∧
      s.callStep.seq.bwSel = s.seq.bwSel := by
  rcases s.callStep_cases with ⟨h0, e⟩ | ⟨-, -, e⟩ | ⟨g, c, rest, kept, -, -, -, e⟩ | ⟨g, c, kept, -, -, e⟩
  · rw [h] at h0; cases h0
  all_goals rw [e]; simp [h]

/-- What an instruction that is not INIT leaves of the flags and the reset input. -/
theorem exec_flags {i : Instr} {s t : State} (h : s.resetIn = none) (hi : i ≠ .init)
    (e : exec i s = .next t) :
    t.resetIn = none ∧ t.cfg = s.cfg ∧
      t.seq.pwSel = (if i.isWritePage then !s.seq.pwSel else s.seq.pwSel) ∧
      t.seq.bwSel = (if i.isBufferToMemory then !s.seq.bwSel else s.seq.bwSel) := by
  rcases instr_kinds i s with ⟨-, u, g, cs, ho⟩ | ⟨hw, bytes, hb⟩ | rfl | rfl | rfl
  · rw [exec_opening ho] at e
    obtain ⟨f1, -, -, -, -, f6, -, -, -, -, -, -, f13, f14⟩ := opening_frame ho
    rw [if_neg hi] at f13 f14
    rw [← f13, ← f14, ← f1]
    refine serve_keeps (P := fun v => v.resetIn = none ∧ v.cfg = u.cfg ∧ v.seq.pwSel = u.seq.pwSel ∧
      v.seq.bwSel = u.seq.bwSel) (fun v hv => ?_) ⟨by simpa [f6] using h, rfl, rfl, rfl⟩ e
    obtain ⟨h1, h2, h3⟩ := v.callStep_flags hv.1
    exact ⟨h1, v.callStep_cfg.trans hv.2.1, h2.trans hv.2.2.1, h3.trans hv.2.2.2⟩
  · rw [exec_wire hb] at e
    have hp : i.isWritePage = false ∧ i.isBufferToMemory = false := by
      cases i <;> first | exact ⟨rfl, rfl⟩ | cases hw
    rcases wireStep_next e with ⟨-, rfl⟩ | ⟨j, -, -, rfl⟩ <;> simp [hp, h]
  all_goals cases e

end Sys2Proof.Machine
end

