-- ==== Sys2Proof/Laws/PerInstr.lean ====
section
/-! SUPPORT. The per-instruction family `RoundTrip`: decoding the encoding of a well-formed instruction gives it
back, for every choice of the OPEN parameters that meets the constraint of spec/00_scope.md R3. -/

namespace Sys2Proof.Laws.RoundTrip

/-- The round trip of one instruction. -/
def Statement (i : Instr) : Prop :=
  ∀ cfg : Config, cfg.wf = true → i.wellFormed cfg = true → decode cfg (encode cfg i) = .ok i

/-- A host word without a size is within format H. -/
theorem hostWord_small (cfg : Config) (op : Nat) (a : Addr) (h : op < 16) :
    hostWord op a 0 < 2 ^ (28 + cfg.sizeW) :=
  hostWord_lt op a 0 _ h (Nat.two_pow_pos _)

theorem init : Statement .init := by
  intro cfg _ _
  simp only [encode, hostPacket, decode, decodeHost, hostWord_op 0 0 _ (by decide),
    if_pos (hostWord_small cfg 0 0 (by decide))]

theorem getStatus : Statement .getStatus := by
  intro cfg _ _
  simp only [encode, hostPacket, decode, decodeHost, hostWord_op 1 0 _ (by decide),
    if_pos (hostWord_small cfg 1 0 (by decide))]

theorem getId : Statement .getId := by
  intro cfg _ _
  simp only [encode, hostPacket, decode, decodeHost, hostWord_op 2 0 _ (by decide),
    if_pos (hostWord_small cfg 2 0 (by decide))]

theorem bufferToMemory (a : Addr) : Statement (.bufferToMemory a) := by
  intro cfg _ _
  simp only [encode, hostPacket, decode, decodeHost, hostWord_op 6 a _ (by decide),
    hostWord_addr 6 a _ (by decide), if_pos (hostWord_small cfg 6 a (by decide))]

theorem erasePage (a : Addr) : Statement (.erasePage a) := by
  intro cfg _ _
  simp only [encode, hostPacket, decode, decodeHost, hostWord_op 7 a _ (by decide),
    hostWord_addr 7 a _ (by decide), if_pos (hostWord_small cfg 7 a (by decide))]

theorem isReady : Statement .isReady := by
  intro cfg _ _
  simp only [encode, hostPacket, decode, decodeHost, hostWord_op 8 0 _ (by decide),
    if_pos (hostWord_small cfg 8 0 (by decide))]

theorem isErrorFlagged : Statement .isErrorFlagged := by
  intro cfg _ _
  simp only [encode, hostPacket, decode, decodeHost, hostWord_op 9 0 _ (by decide),
    if_pos (hostWord_small cfg 9 0 (by decide))]

theorem setBinaryPageSize : Statement .setBinaryPageSize := by
  intro cfg _ _
  simp only [encode, hostPacket, decode, decodeHost, hostWord_op 10 0 _ (by decide),
    if_pos (hostWord_small cfg 10 0 (by decide))]

theorem enterUdpd : Statement .enterUdpd := by
  intro cfg _ _
  simp only [encode, hostPacket, decode, decodeHost, hostWord_op 11 0 _ (by decide),
    if_pos (hostWord_small cfg 11 0 (by decide))]

theorem exitUdpd : Statement .exitUdpd := by
  intro cfg _ _
  simp only [encode, hostPacket, decode, decodeHost, hostWord_op 12 0 _ (by decide),
    if_pos (hostWord_small cfg 12 0 (by decide))]

theorem reserved13 : Statement .reserved13 := by
  intro cfg _ _
  simp only [encode, hostPacket, decode, decodeHost, hostWord_op 13 0 _ (by decide),
    if_pos (hostWord_small cfg 13 0 (by decide))]

theorem reserved14 : Statement .reserved14 := by
  intro cfg _ _
  simp only [encode, hostPacket, decode, decodeHost, hostWord_op 14 0 _ (by decide),
    if_pos (hostWord_small cfg 14 0 (by decide))]

theorem reserved15 : Statement .reserved15 := by
  intro cfg _ _
  simp only [encode, hostPacket, decode, decodeHost, hostWord_op 15 0 _ (by decide),
    if_pos (hostWord_small cfg 15 0 (by decide))]

theorem readPage (a : Addr) (size : Nat) : Statement (.readPage a size) := by
  intro cfg _ hs
  have hs := of_decide_eq_true hs
  simp only [encode, decode, decodeHost, hostWord_op 3 a _ (by decide),
    hostWord_addr 3 a _ (by decide), hostWord_size 3 a _ (by decide),
    if_pos (hostWord_lt 3 a _ _ (by decide) hs)]

theorem writePage (a : Addr) (data : List Byte) : Statement (.writePage a data) := by
  intro cfg _ hs
  have hs := of_decide_eq_true hs
  simp only [encode, decode, decodeHost, hostWord_op 4 a _ (by decide),
    hostWord_addr 4 a _ (by decide), hostWord_size 4 a _ (by decide),
    if_pos (hostWord_lt 4 a _ _ (by decide) hs), takeStream_length]

theorem writeBuffer (o : Offset) (data : List Byte) : Statement (.writeBuffer o data) := by
  intro cfg _ hs
  have hs := of_decide_eq_true hs
  simp only [encode, decode, decodeHost, hostWord_op 5 (offsetAddr o) _ (by decide),
    hostWord_addr 5 (offsetAddr o) _ (by decide), hostWord_size 5 (offsetAddr o) _ (by decide),
    if_pos (hostWord_lt 5 (offsetAddr o) _ _ (by decide) hs), takeStream_length, offsetAddr_setWidth]

theorem wStatus : Statement .wStatus := fun cfg _ _ => decodeWire_status cfg _ _

theorem wId : Statement .wId := fun _ h _ => decodeWire_id h _ _ _

theorem wPsz : Statement .wPsz := fun _ h _ => decodeWire_psz h

theorem wRead (a : Addr) (n : Nat) : Statement (.wRead a n) := fun _ h _ => decodeWire_read h a n

theorem wProg1 (a : Addr) (data : List Byte) : Statement (.wProg1 a data) := fun _ h _ => decodeWire_prog1 h a data

theorem wProg2 (a : Addr) (data : List Byte) : Statement (.wProg2 a data) := fun _ h _ => decodeWire_prog2 h a data

theorem wBufw1 (a : Addr) (data : List Byte) : Statement (.wBufw1 a data) := fun _ h _ => decodeWire_bufw1 h a data

theorem wBufw2 (a : Addr) (data : List Byte) : Statement (.wBufw2 a data) := fun _ h _ => decodeWire_bufw2 h a data

theorem wB2m1 (a : Addr) : Statement (.wB2m1 a) := fun _ h _ => decodeWire_b2m1 h a

theorem wB2m2 (a : Addr) : Statement (.wB2m2 a) := fun _ h _ => decodeWire_b2m2 h a

theorem wErase (a : Addr) : Statement (.wErase a) := fun _ h _ => decodeWire_erase h a

theorem wUdpd : Statement .wUdpd := fun _ h _ => decodeWire_udpd h

theorem wWake : Statement .wWake := fun _ _ _ => rfl

end Sys2Proof.Laws.RoundTrip
end

