-- ==== Sys2Proof/Laws/Pieces.lean ====
section
/-! SUPPORT. What the pieces of SETBINARYPAGESIZE and INIT do on an idle target, what a target in a power-down
can do, and relations that every instruction and every step keep. -/

namespace Sys2Proof.Machine

/-- The end of a step without a fault. -/
theorem State.finish_eq {u x : State} (h : u.tgtFault = none) (e : u = x) : u.finish = .next x := by
  subst e; exact State.finish_of_ok h

/-! ### Status reads, of an idle target -/

theorem binary_statusOf (b1 b2 : Byte) : binary (statusOf [b1, b2]) = b1.getLsbD 0 :=
  binary_statusWord b1 b2

theorem ready_statusOf (b1 b2 : Byte) : ready (statusOf [b1, b2]) = b1.getLsbD 7 :=
  ready_statusWord b1 b2

/-- After a status read of an idle target. -/
def State.statusRead (s : State) : State :=
  { s with
    tgt := s.tgt.drawn.drawn
    shifted := []
    seq := { s.seq with
      trace := s.seq.trace ++ statusEvents s.cfg s.tgt.byte1 s.tgt.drawn.byte2, cs := true } }

theorem State.performAll_status_idle {s : State} (h : s.reaches = true) (hm : s.tgt.mode = .idle) :
    s.performAll (statusCalls s.cfg) = (s.statusRead, [s.tgt.byte1, s.tgt.drawn.byte2]) := by
  have hp := State.performAll_status h (.inl hm)
  simp only [Tgt.tick_of_idle _ _ hm, Tgt.tick_of_idle _ s.tgt.drawn hm] at hp
  exact hp

/-! ### SETBINARYPAGESIZE -/

/-- The switch, and the start of the poll loop (42_page_size.md R120). -/
theorem State.carryOn_switch {s : State} (hr : s.reaches = true) (hn : s.resetIn = none)
    (hw : s.cfg.wf = true) (c : Caller) (hm : s.tgt.mode = .idle)
    (hl : s.tgt.nvCycles < s.cfg.nvCycleLimit) (n : Nat) :
    (s.begin (.sizeSwitch c) (sendCalls (pageSizeBytes s.cfg))).carryOn n = { s with
      shifted := []
      tgt := s.tgt.pageSizeSwitch
      seq := { s.seq with
        trace := s.seq.trace ++ sentEvents (pageSizeBytes s.cfg)
        cs := true, pc := .polling s.cfg c, resp := none } } := by
  refine State.carryOn_last (by simp) hn n ?_ rfl
  have hv : s.tgt.verdict s.cfg (pageSizeBytes s.cfg) = .ok .wPsz :=
    Tgt.verdict_idle (decodeWire_psz hw) hm (by simp [Tgt.check, hl])
  rw [State.performAll_send hr (t := s.tgt) (by
    rw [Tgt.tick_of_idle _ _ hm]; exact Tgt.exchanges_header (plain_all hw).1 _ (by simp) _),
    Tgt.latch_ok hv, ← (State.reaches_iff.1 hr).2]
  rfl

/-- Its first status read, of a native chip, and the switch. -/
theorem State.carryOn_check {s : State} (hr : s.reaches = true) (hn : s.resetIn = none)
    (hw : s.cfg.wf = true) (c : Caller) (hm : s.tgt.mode = .idle) (hb : s.tgt.nvBinary = false)
    (hl : s.tgt.nvCycles < s.cfg.nvCycleLimit) (n : Nat) :
    (s.begin (.sizeCheck c) (statusCalls s.cfg)).carryOn (n + 1) = { s.statusRead with
      tgt := s.tgt.drawn.drawn.pageSizeSwitch
      seq := { s.statusRead.seq with
        trace := s.statusRead.seq.trace ++ sentEvents (pageSizeBytes s.cfg)
        cs := true, pc := .polling s.cfg c, resp := none } } := by
  have hp := State.performAll_status_idle hr hm
  rw [State.carryOn_next (by simp) hn n (u := s.statusRead) (g' := .sizeSwitch c)
    (cs' := sendCalls (pageSizeBytes s.cfg)) ?_ rfl]
  · exact State.carryOn_switch (s := s.statusRead) hr hn hw c hm hl n
  · rw [hp]
    simp only [State.endStage, binary_statusOf, Tgt.byte1_binary, hb]
    rfl

/-- Its status read after the loop (R121). -/
theorem State.carryOn_recheck {s : State} (hr : s.reaches = true) (hn : s.resetIn = none) (c : Caller)
    (hm : s.tgt.mode = .idle) (n : Nat) :
    (s.begin (.sizeRecheck c) (statusCalls s.cfg)).carryOn n =
      s.statusRead.pageSizeReturn c s.tgt.nvBinary := by
  refine State.carryOn_last (by simp) hn n ?_ (by cases c <;> rfl)
  rw [State.performAll_status_idle hr hm]
  simp only [State.endStage, binary_statusOf, Tgt.byte1_binary]

/-! ### INIT -/

theorem expectedId_iff (d : BitVec 24) : d.setWidth 32 = Config.expectedId ↔ d = 0x1F2600 := by
  constructor
  · intro h
    have := congrArg (BitVec.setWidth 24) h
    simpa [Config.expectedId] using this
  · rintro rfl; rfl

/-- The bytes of an identifier read (R172). -/
def Tgt.idBytes (t : Tgt) : List Byte :=
  [t.devId.extractLsb' 16 8, t.devId.extractLsb' 8 8, t.devId.extractLsb' 0 8]

/-- After INIT's chip-select event, clock and identifier read, chip-select high before. -/
def State.initRead (s : State) : State :=
  { s with
    shifted := []
    seq := { s.resetRegs.seq with
      cs := true
      clkHz := min s.cfg.cfgMaxHz Config.chipMaxHz
      trace := [.cs1, .clk (min s.cfg.cfgMaxHz Config.chipMaxHz)] ++
        queryEvents s.cfg.opcIdRead s.cfg.dummy s.tgt.idBytes } }

theorem State.performAll_initRead {s : State} (h : s.Undisturbed) (hcs : s.seq.cs = true)
    (hm : s.tgt.mode = .idle) :
    s.resetRegs.performAll (initCalls s.cfg) = (s.initRead, s.tgt.idBytes) := by
  have h0 := State.performAll_init s.resetRegs
  simp only [State.resetRegs_cfg] at h0
  rw [h0, State.csDeassert_high (s := s.resetRegs) hcs]
  exact State.performAll_ident (s := State.setClock { s.resetRegs with
      shifted := []
      seq := { s.resetRegs.seq with trace := s.resetRegs.seq.trace ++ [.cs1], cs := true } }
    (min s.cfg.cfgMaxHz Config.chipMaxHz)) (by simpa [State.reaches] using h.reaches) h.cfgWf hm

/-- INIT where its identifier check lets it go on: from its own status read (40_init.md R100, R101). -/
theorem exec_init_status {s : State} (h : s.Undisturbed) (hcs : s.seq.cs = true)
    (hm : s.tgt.mode = .idle) (hid : s.tgt.devId = 0x1F2600 ∨ s.cfg.initCfgOnIdMismatch = true) :
    exec .init s = (((s.initRead.cacheId (if s.tgt.devId = 0x1F2600 then 0x001F2600 else 0)).begin
      .initStatus (statusCalls s.cfg)).carryOn 2).finish := by
  show (s.resetRegs.begin .initIdent (initCalls s.cfg)).resume.finish = _
  rw [State.resume, State.carryOn_next (s := s.resetRegs) (by simp) h.noReset 2
    (u := s.initRead.cacheId (if s.tgt.devId = 0x1F2600 then 0x001F2600 else 0)) (g' := .initStatus)
    (cs' := statusCalls s.cfg) ?_ rfl]
  rw [State.performAll_initRead h hcs hm]
  simp only [State.endStage, Tgt.idBytes, identOf_devId, expectedId_iff]
  by_cases hd : s.tgt.devId = 0x1F2600
  · rw [if_pos hd, if_pos hd, hd]; rfl
  · rw [if_neg hd, if_neg hd, if_pos]
    · rfl
    · exact hid.resolve_left hd

/-! ### A target in a power-down -/

/-- A transaction the target takes: its command, and that the gate let it through. -/
theorem Tgt.verdict_decode {t : Tgt} {cfg : Config} {bytes : List Byte} {i : Instr}
    (h : t.verdict cfg bytes = .ok i) :
    decodeWire cfg bytes = .ok i ∧ gate t.mode bytes.length (i == .wStatus) = none := by
  unfold Tgt.verdict at h
  split at h
  · next j hj =>
    split at h
    · cases h
    · cases h
    · next h1 h2 => cases h; exact ⟨hj, h1⟩
  · split at h <;> cases h

/-- No `CS1` changes a target in a power-down. -/
theorem Tgt.latch_powered_down {cfg : Config} (bytes : List Byte) {t : Tgt}
    (h : t.mode = .udpd ∨ t.mode = .dpd) : (t.latch cfg bytes).1 = t := by
  rcases t.latch_cases cfg bytes with ⟨i, hv, e⟩ | ⟨f, -, e⟩ <;> rw [e]
  obtain ⟨hd, hg⟩ := Tgt.verdict_decode hv
  have hb : bytes = [] := by
    have := (gate_none _ _ _).1 hg
    rcases h with h | h <;> simp [h] at this
    exact this
  subst hb; cases hd; rfl

theorem Tgt.keeps_powered_down (cfg : Config) {m : Mode} (hm : m = .udpd ∨ m = .dpd) :
    Tgt.Keeps cfg (fun t => t.mode = m) := by
  refine ⟨fun _ _ h => h, fun t h => ?_, fun b tx t h => ?_, fun b t h => ?_⟩
  · rw [Tgt.tick_of_not_busy _ _ (by rw [h]; rcases hm with rfl | rfl <;> simp)]; exact h
  · rw [Tgt.quiet_deaf (by rw [h]; rcases hm with rfl | rfl <;> simp) tx]; exact h
  · rw [Tgt.latch_powered_down b (by rw [h]; exact hm)]; exact h

/-- Only the commands that load a buffer begin with one of the four load opcodes. -/
theorem decodeWire_load {cfg : Config} {op : Byte} {args : List Byte} {i : Instr}
    {x : BufId × Addr × List Byte} (h : decodeWire cfg (op :: args) = .ok i)
    (hl : Instr.load? i = some x) :
    op = cfg.opcProgB1 ∨ op = cfg.opcProgB2 ∨ op = cfg.opcBufwB1 ∨ op = cfg.opcBufwB2 := by
  by_contra hn
  simp only [not_or] at hn
  obtain ⟨n1, n2, n3, n4⟩ := hn
  simp only [decodeWire, if_neg n1, if_neg n2, if_neg n3, if_neg n4] at h
  refine ite_ok h ?_ fun h => ite_ok h ?_ fun h => ite_ok h ?_ fun h => ite_ok h ?_ fun h =>
    ite_ok h ?_ fun h => ite_ok h ?_ fun h => ite_ok h ?_ fun h => ite_ok h ?_ fun h => ?_
  · intro h; obtain ⟨-, rfl⟩ := exactly_ok h; cases hl
  · intro h; obtain ⟨-, rfl⟩ := exactly_ok h; cases hl
  · intro h; split at h <;> cases h; cases hl
  · intro h
    obtain ⟨a, d, -, h⟩ := withAddr_ok h
    split at h <;> cases h; cases hl
  · intro h; obtain ⟨a, -, rfl⟩ := onlyAddr_ok h; cases hl
  · intro h; obtain ⟨a, -, rfl⟩ := onlyAddr_ok h; cases hl
  · intro h; obtain ⟨a, -, rfl⟩ := onlyAddr_ok h; cases hl
  · intro h; obtain ⟨-, rfl⟩ := exactly_ok h; cases hl
  · cases h

/-! ### Relations every instruction and every step keep -/

/-- A relation between the state before and after: it looks at the parameters and the target only of the
state before, holds where nothing happens, and goes through an advance of SEQ and a raw transaction. -/
structure Steady (R : State → State → Prop) : Prop where
  start : ∀ s u v : State, u.cfg = s.cfg → u.tgt = s.tgt → R u v → R s v
  refl : ∀ s : State, R s s
  call : ∀ s u : State, R s u → R s u.callStep
  wire : ∀ (s t : State) (bytes : List Byte), wireStep s bytes = .next t → R s t

theorem exec_steady {R : State → State → Prop} (hR : Steady R) {i : Instr} {s t : State}
    (e : exec i s = .next t) : R s t := by
  rcases instr_kinds i s with ⟨-, u, g, cs, ho⟩ | ⟨-, bytes, hb⟩ | rfl | rfl | rfl
  · rw [exec_opening ho] at e
    obtain ⟨f1, f2, -⟩ := opening_frame ho
    exact serve_keeps (P := R s) (fun v hv => hR.call _ _ hv)
      (hR.start s (u.begin g cs) _ f1 f2 (hR.refl _)) e
  · rw [exec_wire hb] at e; exact hR.wire _ _ _ e
  all_goals cases e

theorem step_steady {R : State → State → Prop} (hR : Steady R)
    (ht : ∀ s : State, R s { s.spend 1 with tgt := s.tgt.tick s.cfg }) {s t : State}
    (e : step s = .next t) : R s t := by
  rcases step_cases e with ⟨-, h⟩ | ⟨-, -, h⟩ | ⟨g, cs, kept, -, -, h⟩ | ⟨-, -, -, rfl⟩ |
    ⟨p, rest, i, -, -, -, -, h⟩ | ⟨bytes, rest, why, -, -, -, -, h⟩
  · obtain ⟨rfl, -⟩ := State.finish_next h
    exact hR.start s s.assertReset _ rfl rfl (hR.refl _)
  · exact exec_steady hR h
  · exact resume_next (P := R s) (fun v hv => hR.call _ _ hv) (hR.refl s) h
  · exact ht s
  · exact hR.start s (s.takePacket p rest) _ (by simp) (by simp) (exec_steady hR h)
  · exact hR.start s (s.takePacket _ rest) _ (by simp) (by simp) (hR.wire _ _ _ h)

end Sys2Proof.Machine
end

