-- ==== Sys2Proof/Tests/Slice0.lean ====
section
/-! SUPPORT. Tests: expected results are those of spec/95_test_vectors.md (named V.., P.., S..) or words written
out from the tables of spec/30_encoding.md. The second half shows, for each obligation with hypotheses, a
state and operands that meet them. -/

namespace Sys2Proof.Tests
open Sys2Proof Sys2Proof.Machine

/-- The defaults of the vectors, with the two OPEN numbers of V01 and R161 written out. -/
def cfg : Config := { Config.default with cfgMaxHz := 8000000, tWakePulse := 20 }

/-- The premise of the vectors: SEQ idle after INIT, the target idle and binary, draws of undefined
bits 0; the first busy window lets one opportunity pass. -/
def s0 : State := { State.reset with
  cfg := cfg
  seq := { Seq.reset with pc := .idle, clkHz := 8000000, trace := [.cs1, .clk 8000000] }
  tgt := { Tgt.reset with free := ⟨List.replicate 8 0, [⟨some 1, true⟩, ⟨some 0, false⟩], 0⟩ } }

/-- The same with page 1 holding `DE AD` at its start and `01 02` at its end. -/
def sData : State := { s0 with tgt := { s0.tgt with
  main := [(512, 0xDE), (513, 0xAD), (1022, 0x01), (1023, 0x02)] } }

/-- A chip in native page mode. -/
def sNative : State := { s0 with tgt := { s0.tgt with nvBinary := false } }

/-- A target busy with a piece of work, its window ending as `f` says. -/
def busy (w : Work) (f : Fate) : State :=
  { s0 with tgt := { s0.tgt with mode := .busy, pending := some w, fate := f } }

/-- A target in another mode. -/
def inMode (m : Mode) : State := { s0 with tgt := { s0.tgt with mode := m } }

/-- SEQ in the poll loop of a running switch of a native chip. -/
def polling (c : Caller) (f : Fate) : State := { s0 with
  tgt := { s0.tgt with mode := .busy, pending := some .nvcfg, fate := f, nvBinary := false }
  seq := { s0.seq with pc := .polling cfg c } }

/-- SEQ in the poll loop of SETBINARYPAGESIZE after a chip in ultra-deep power-down has faulted; the bytes
drawn next begin with `b`. -/
def faulty (b : Byte) : State := { s0 with
  tgt := { s0.tgt with mode := .udpd, nvBinary := false, free := ⟨b :: List.replicate 8 0, [], 0⟩ }
  tgtFault := some .commandWhilePoweredDown
  seq := { s0.seq with pc := .polling cfg .host } }

/-- The next state of an outcome. -/
def after : Host.Outcome State Fault Refusal → Option State
  | .next t => some t
  | .fault _ => none
  | .refused _ => none

/-- The fault of an outcome. -/
def faultOf : Host.Outcome State Fault Refusal → Option Fault
  | .next _ => none
  | .fault f => some f
  | .refused _ => none

/-- What an outcome added to the bus trace of `s0`, and the response. -/
def shows (o : Host.Outcome State Fault Refusal) : Option (List BusEvent × Option Response) :=
  (after o).map fun t => (t.seq.trace.drop 2, t.seq.resp)

/-- The target an outcome leaves. -/
def tgtOf (o : Host.Outcome State Fault Refusal) : Option Tgt := (after o).map (·.tgt)

/-- What an outcome leaves in the host's buffer. -/
def bufOf (o : Host.Outcome State Fault Refusal) : Option (List Byte) := (after o).map (·.seq.hostBuf)

theorem next_of_after {o : Host.Outcome State Fault Refusal} (h : (after o).isSome = true) :
    ∃ t, o = .next t := by
  cases o with
  | next t => exact ⟨t, rfl⟩
  | fault _ => simp [after] at h
  | refused _ => simp [after] at h

/-! ### Well-formedness: the one check, on each constructor that has it -/

theorem test_wf_refuses_readPage : Instr.wellFormed cfg (.readPage 0 65536) = false := by decide
theorem test_wf_refuses_writePage :
    Instr.wellFormed { cfg with sizeW := 1 } (.writePage 0 [1, 2]) = false := by decide
theorem test_wf_refuses_writeBuffer :
    Instr.wellFormed { cfg with sizeW := 1 } (.writeBuffer 0 [1, 2]) = false := by decide
theorem test_wf_takes_the_largest_size : Instr.wellFormed cfg (.readPage 0 65535) = true := by decide
theorem test_wf_refuses_equal_opcodes : Config.wf { cfg with opcIdRead := 0xD7 } = false := by decide
theorem test_wf_refuses_short_pulse : Config.wf { cfg with tWakePulse := 19 } = false := by decide

/-! ### Decoding: one word for every constructor, from R71 and R74 to R80 -/

theorem test_decode_init : decode cfg (.host 0x00000000000 []) = .ok .init := by decide
theorem test_decode_getStatus : decode cfg (.host 0x00000000001 []) = .ok .getStatus := by decide
theorem test_decode_getId : decode cfg (.host 0x00000000002 []) = .ok .getId := by decide
/-- V32 -/
theorem test_decode_readPage :
    decode cfg (.host 0x00040003FE3 []) = .ok (.readPage 0x0003FE 4) := by decide
/-- V46; the buffer is longer than the request -/
theorem test_decode_writePage :
    decode cfg (.host 0x00020005FF4 [0x11, 0x22, 0x33]) = .ok (.writePage 0x0005FF [0x11, 0x22]) := by
  decide
/-- V53 -/
theorem test_decode_writeBuffer :
    decode cfg (.host 0x00020001FF5 [0x44, 0x55]) = .ok (.writeBuffer 0x1FF [0x44, 0x55]) := by decide
/-- V56 -/
theorem test_decode_bufferToMemory :
    decode cfg (.host 0x00000008006 []) = .ok (.bufferToMemory 0x000800) := by decide
/-- V59 -/
theorem test_decode_erasePage :
    decode cfg (.host 0x0000FFFE007 []) = .ok (.erasePage 0xFFFE00) := by decide
theorem test_decode_isReady : decode cfg (.host 0x00000000008 []) = .ok .isReady := by decide
theorem test_decode_isErrorFlagged :
    decode cfg (.host 0x00000000009 []) = .ok .isErrorFlagged := by decide
theorem test_decode_setBinaryPageSize :
    decode cfg (.host 0x0000000000A []) = .ok .setBinaryPageSize := by decide
theorem test_decode_enterUdpd : decode cfg (.host 0x0000000000B []) = .ok .enterUdpd := by decide
theorem test_decode_exitUdpd : decode cfg (.host 0x0000000000C []) = .ok .exitUdpd := by decide
/-- V70 -/
theorem test_decode_reserved :
    decode cfg (.host 0x0000000000D []) = .ok .reserved13 ∧
    decode cfg (.host 0x0000000000E []) = .ok .reserved14 ∧
    decode cfg (.host 0x0000000000F []) = .ok .reserved15 := by decide
theorem test_decode_wStatus : decode cfg (.wire [0xD7, 0, 0]) = .ok .wStatus := by decide
theorem test_decode_wId : decode cfg (.wire [0x9F, 0, 0, 0]) = .ok .wId := by decide
theorem test_decode_wPsz : decode cfg (.wire [0x3D, 0x2A, 0x80, 0xA6]) = .ok .wPsz := by decide
theorem test_decode_wRead :
    decode cfg (.wire [0xD2, 0x00, 0x03, 0xFE, 9, 9, 9, 9, 0, 0]) = .ok (.wRead 0x0003FE 2) := by decide
theorem test_decode_wProg :
    decode cfg (.wire [0x82, 0x00, 0x04, 0x00, 0xA5]) = .ok (.wProg1 0x000400 [0xA5]) ∧
    decode cfg (.wire [0x85, 0x00, 0x04, 0x00]) = .ok (.wProg2 0x000400 []) := by decide
theorem test_decode_wBufw :
    decode cfg (.wire [0x84, 0x00, 0x01, 0x00, 0x11]) = .ok (.wBufw1 0x000100 [0x11]) ∧
    decode cfg (.wire [0x87, 0x00, 0x00, 0xFF, 0x33]) = .ok (.wBufw2 0x0000FF [0x33]) := by decide
theorem test_decode_wB2m :
    decode cfg (.wire [0x83, 0x00, 0x06, 0x00]) = .ok (.wB2m1 0x000600) ∧
    decode cfg (.wire [0x86, 0x00, 0x08, 0x00]) = .ok (.wB2m2 0x000800) := by decide
theorem test_decode_wErase :
    decode cfg (.wire [0x81, 0x00, 0x06, 0x00]) = .ok (.wErase 0x000600) := by decide
theorem test_decode_wUdpd : decode cfg (.wire [0x79]) = .ok .wUdpd := by decide
theorem test_decode_wWake : decode cfg (.wire []) = .ok .wWake := by decide
/-- R88: what no command is. -/
theorem test_decode_refuses :
    decode cfg (.wire [0xD7, 0]) = .error .wrongLength ∧
    decode cfg (.wire [0x83, 0, 6, 0, 0]) = .error .wrongLength ∧
    decode cfg (.wire [0xD2, 0, 0, 0, 0, 0, 0]) = .error .wrongLength ∧
    decode cfg (.wire [0x3D, 0x2A, 0x80, 0xA7]) = .error .wrongPageSizeSequence ∧
    decode cfg (.wire [0xB9]) = .error .unknownOpcode ∧
    decode cfg (.host 0x100000000001 []) = .error .wordTooWide ∧
    decode cfg (.host 0x00020005FF4 [0x11]) = .error .bufferTooShort := by decide

/-! ### The status word: S1, S2, V19, V1A -/

theorem test_status_fields :
    ready 0x8000 = true ∧ ready 0x7FFF = false ∧ error 0x0020 = true ∧ error 0xFFDF = false ∧
    idCode 0x3C00 = 0b1111 ∧ binary 0x3C00 = false ∧ binary 0x0100 = true ∧ ready 0x0100 = false := by
  decide

/-! ### Steps -/

/-- V03, P1: INIT against a binary chip. -/
theorem test_init_binary : shows (exec .init s0) =
    some ([.cs0, .x 0x9F none, .x 0 (some 0x1F), .x 0 (some 0x26), .x 0 (some 0x00), .cs1,
      .cs0, .x 0xD7 none, .x 0 (some 0xAD), .x 0 (some 0x00), .cs1], some ⟨true, 0⟩) := by decide
/-- V04: an identifier one byte off. -/
theorem test_init_mismatch :
    (after (exec .init { s0 with tgt := { s0.tgt with devId := 0x1F2601 } })).map
      (fun t => (t.seq.idCache, t.seq.pc, t.tgt.nvCycles)) = some (0, .idle, 0) := by decide
/-- V10: byte1 `AD`, byte2 `20`. -/
theorem test_getStatus :
    shows (exec .getStatus { s0 with tgt := { s0.tgt with epe := true } }) =
      some ([.cs0, .x 0xD7 none, .x 0 (some 0xAD), .x 0 (some 0x20), .cs1], some ⟨true, 0xAD20⟩) := by
  decide
/-- V1B: a status read of a busy target. -/
theorem test_getStatus_busy :
    (shows (exec .getStatus (busy (.prog 2 .one true) ⟨some 5, true⟩))).map (·.2) =
      some (some ⟨true, 0x2D00⟩) := by decide
/-- V13: no comparison is made. -/
theorem test_getId :
    (after (exec .getId { s0 with tgt := { s0.tgt with devId := 0xABCDEF } })).map
      (fun t => (t.seq.idCache, t.seq.resp)) = some (0x00ABCDEF, some ⟨true, 0x00ABCDEF⟩) := by decide
/-- V30. -/
theorem test_readPage : shows (exec (.readPage 0x000200 2) sData) =
    some ([.cs0, .x 0xD2 none, .x 0 none, .x 2 none, .x 0 none, .x 0 none, .x 0 none, .x 0 none,
      .x 0 none, .x 0 (some 0xDE), .x 0 (some 0xAD), .cs1], some ⟨true, 0⟩) := by decide
/-- V32: the wrap inside the page. -/
theorem test_readPage_wraps :
    bufOf (exec (.readPage 0x0003FE 4) sData) = some [0x01, 0x02, 0xDE, 0xAD] := by decide
/-- V42: buffer 2, the short write of U4. -/
theorem test_writePage :
    tgtOf (exec (.writePage 0x012345 [0xAA, 0xBB, 0xCC])
      { s0 with seq := { s0.seq with pwSel := true } }) = some { s0.tgt with
        mode := .busy, pending := some (.prog 145 .two true)
        buf2 := [(325, 0xAA), (326, 0xBB), (327, 0xCC)]
        fate := ⟨some 1, true⟩, free := ⟨List.replicate 8 0, [⟨some 0, false⟩], 0⟩ } := by decide
/-- V46: a write that runs past the end of the page. -/
theorem test_writePage_overrun :
    (tgtOf (exec (.writePage 0x0005FF [0x11, 0x22])
      { s0 with tgt := { s0.tgt with buf1 := [(0, 7)] } })).map (fun t => (t.buf1, t.pending)) =
      some ([], some (.prog 2 .one true)) := by decide
/-- V50. -/
theorem test_writeBuffer : shows (exec (.writeBuffer 0x100 [0x11, 0x22]) s0) =
    some ([.cs0, .x 0x84 none, .x 0 none, .x 1 none, .x 0 none, .x 0x11 none, .x 0x22 none, .cs1],
      some ⟨true, 0⟩) := by decide
/-- V52: `BW_SEL = 1`. -/
theorem test_writeBuffer_two :
    (after (exec (.writeBuffer 0x0FF [0x33]) { s0 with seq := { s0.seq with bwSel := true } })).map
      (fun t => (t.tgt.buf1, t.tgt.buf2, t.seq.bwSel)) = some ([], [(255, 0x33)], true) := by decide
/-- V55 -/
theorem test_bufferToMemory : (after (exec (.bufferToMemory 0x000600) s0)).map
    (fun t => (t.tgt.pending, t.seq.bwSel, t.seq.pwSel)) =
      some (some (.prog 3 .one true), true, false) := by decide
/-- V57: the offset is sent as given and ignored. -/
theorem test_bufferToMemory_offset :
    (after (exec (.bufferToMemory 0x0007FF) s0)).map (fun t => (t.tgt.pending, t.seq.trace.drop 2)) =
      some (some (.prog 3 .one true),
        [.cs0, .x 0x83 none, .x 0 none, .x 7 none, .x 0xFF none, .cs1]) := by decide
/-- V58 -/
theorem test_erasePage : (after (exec (.erasePage 0x000600) s0)).map
    (fun t => (t.tgt.pending, t.seq.bwSel, t.seq.pwSel)) =
      some (some (.erase 3), false, false) := by decide
/-- V59: page 32767. -/
theorem test_erasePage_out_of_range :
    (faultOf (exec (.erasePage 0xFFFE00) s0)).map (fun f => (f.seen.trace.drop 2, f.seen.resp)) =
      some ([.cs0, .x 0x81 none, .x 0xFF none, .x 0xFE none, .x 0 none, .cs1], some ⟨true, 0⟩) := by
  decide
/-- V15 on the model's own bytes: a busy target. -/
theorem test_isReady : (shows (exec .isReady (busy .nvcfg ⟨none, true⟩))).map (·.2) =
    some (some ⟨true, 0⟩) := by decide
/-- V18 -/
theorem test_isErrorFlagged :
    (shows (exec .isErrorFlagged { s0 with tgt := { s0.tgt with epe := true } })).map (·.2) =
      some (some ⟨true, 1⟩) := by decide
/-- V25, and the counter of R31. -/
theorem test_setBinaryPageSize :
    (after (exec .setBinaryPageSize sNative)).map
      (fun t => (t.seq.trace.drop 7, t.tgt.mode, t.tgt.pending, t.tgt.nvCycles, t.seq.pc)) =
      some ([.cs0, .x 0x3D none, .x 0x2A none, .x 0x80 none, .x 0xA6 none, .cs1],
        .busy, some .nvcfg, 1, .polling cfg .host) := by decide
/-- The last turn of the loop in V21 and V23: a switch that succeeded and one that failed. -/
theorem test_poll_ends :
    (after (step (polling .host ⟨some 0, true⟩))).map (fun t => (t.seq.resp, t.tgt.nvBinary)) =
      some (some ⟨true, 1⟩, true) ∧
    (after (step (polling .host ⟨some 0, false⟩))).map (fun t => (t.seq.resp, t.tgt.nvBinary)) =
      some (some ⟨true, 0⟩, false) := by decide
/-- P2b: inside INIT the failure clears the identifier. -/
theorem test_poll_ends_in_init :
    (after (step { polling .init ⟨some 0, false⟩ with
      seq := { s0.seq with pc := .polling cfg .init, idCache := 0x1F2600 } })).map
      (fun t => (t.seq.resp, t.seq.idCache)) = some (some ⟨true, 0⟩, 0) := by decide
/-- 46_power_down.md R162 with V62: SETBINARYPAGESIZE of a chip in ultra-deep power-down whose drawn status
shows native: the whole trace, the poll and the re-check included, before the fault is reported. -/
theorem test_setBinaryPageSize_powered_down :
    (after (exec .setBinaryPageSize { inMode .udpd with
      tgt := { (inMode .udpd).tgt with nvBinary := false } })).map
      (fun t => (t.tgtFault, t.seq.pc)) =
      some (some .commandWhilePoweredDown, .polling cfg .host) ∧
    (faultOf (step (faulty 0x80))).map (fun f => (f.seen.trace.drop 2, f.seen.resp, f.seen.pc)) =
      some ([.cs0, .x 0xD7 none, .x 0 (some 0x80), .x 0 (some 0), .cs1,
        .cs0, .x 0xD7 none, .x 0 (some 0), .x 0 (some 0), .cs1], some ⟨true, 0⟩, .idle) := by decide
/-- V60 -/
theorem test_enterUdpd : (after (exec .enterUdpd s0)).map (fun t => (t.tgt.mode, t.seq.trace.drop 2)) =
    some (.udpd, [.cs0, .x 0x79 none, .cs1]) := by decide
/-- V61 -/
theorem test_exitUdpd :
    (after (exec .exitUdpd { inMode .udpd with tgt := { (inMode .udpd).tgt with buf2 := [(3, 4)] } })).map
      (fun t => (t.tgt.mode, t.tgt.buf2, t.seq.trace.drop 2)) =
      some (.idle, [], [.cs0, .dly 20, .cs1, .dly 1000000]) := by decide
/-- V62: no wake is inserted; the chip faults and SEQ goes on. -/
theorem test_getStatus_powered_down : (faultOf (exec .getStatus (inMode .udpd))).map
    (fun f => (f.seen.trace.drop 2, f.seen.pc)) =
      some ([.cs0, .x 0xD7 none, .x 0 (some 0), .x 0 (some 0), .cs1], .idle) := by decide
/-- R182, V44: a failed program. -/
theorem test_complete_failed_program :
    (tgtOf (step { busy (.prog 1 .one true) ⟨some 0, false⟩ with
      tgt := { (busy (.prog 1 .one true) ⟨some 0, false⟩).tgt with
        main := [(512, 1), (1024, 2)], buf1 := [(0, 9)] } })).map (fun t => (t.main, t.epe, t.buf1)) =
      some ([(1024, 2)], true, [(0, 9)]) := by decide
/-- R182: a program of a buffer with a hole. -/
theorem test_complete_program :
    (tgtOf (step { busy (.prog 1 .two true) ⟨some 0, true⟩ with
      tgt := { (busy (.prog 1 .two true) ⟨some 0, true⟩).tgt with
        main := [(0, 5), (513, 1), (1024, 2)], buf2 := [(0, 9), (511, 8)] } })).map
      (fun t => (t.main, t.mode, t.pending)) =
      some ([(0, 5), (512, 9), (1023, 8), (1024, 2)], .idle, none) := by decide

/-! ### Inside an operation -/

/-- R16 on V10: after four of the five calls of GETSTATUS, one is left and two bytes are kept. -/
theorem test_calls_of_getStatus :
    let s := ({ s0 with tgt := { s0.tgt with epe := true } }.begin .getStatus (statusCalls cfg)).calls 4
    s.seq.pc = .running .getStatus [.csDeassert] [0xAD, 0x20] ∧ s.seq.cs = false ∧
      s.seq.trace.drop 2 = [.cs0, .x 0xD7 none, .x 0 (some 0xAD), .x 0 (some 0x20)] := by decide
/-- R230 on V30: a READPAGE cut after one data byte has stored it, and INIT's `CS1` completes a read. -/
theorem test_readPage_cut :
    (after (exec (.readPage 0x000200 2) { sData with resetIn := some 10 })).map
      (fun t => (t.seq.hostBuf, t.seq.cs, t.seq.pc, t.seq.trace)) =
      some ([0xDE], false, .initStart, []) := by decide
/-- R230, R175 on V42: a WRITEPAGE cut after one data byte has loaded it and started nothing. -/
theorem test_writePage_cut :
    (after (exec (.writePage 0x012345 [0xAA, 0xBB, 0xCC]) { s0 with resetIn := some 6 })).map
      (fun t => (t.tgt.buf1, t.tgt.mode, t.shifted)) =
      some ([(325, 0xAA)], .idle, [0x82, 0x01, 0x23, 0x45, 0xAA]) := by decide

/-! ### Raw wire transactions -/

theorem test_wStatus : (after (exec .wStatus s0)).map (fun t => (t.wireRx, t.seq)) =
    some ([none, some 0xAD, some 0x00], s0.seq) := by decide
theorem test_wId : (after (exec .wId s0)).map (·.wireRx) =
    some [none, some 0x1F, some 0x26, some 0x00] := by decide
theorem test_wPsz : (tgtOf (exec .wPsz s0)).map (fun t => (t.mode, t.pending, t.nvCycles)) =
    some (.busy, some .nvcfg, 1) := by decide
theorem test_wRead : (after (exec (.wRead 0x0003FF 3) sData)).map (·.wireRx.drop 8) =
    some [some 0x02, some 0xDE, some 0xAD] := by decide
theorem test_wProg1 : (tgtOf (exec (.wProg1 0x000401 [0xA5]) s0)).map (fun t => (t.buf1, t.pending)) =
    some ([(1, 0xA5)], some (.prog 2 .one true)) := by decide
theorem test_wProg2 : (tgtOf (exec (.wProg2 0x000200 []) sData)).map (fun t => (t.main, t.pending)) =
    some ([], some (.prog 1 .two true)) := by decide
/-- R177: address bits 23:9 are ignored. -/
theorem test_wBufw1 : (tgtOf (exec (.wBufw1 0xFFFE03 [1]) s0)).map (fun t => (t.buf1, t.mode)) =
    some ([(3, 1)], .idle) := by decide
theorem test_wBufw2 : (tgtOf (exec (.wBufw2 0x0001FF [1]) s0)).map (·.buf2) = some [(511, 1)] := by
  decide
set_option maxRecDepth 8000 in
/-- R178 without the built-in erase, on a page not erased (V5A). -/
theorem test_wB2m1 :
    (tgtOf (exec (.wB2m1 0x000200) { sData with cfg := { cfg with b2mBuiltinErase := false } })).map
      (·.pending) = some (some (.prog 1 .one false)) := by decide
theorem test_wB2m2 : (tgtOf (exec (.wB2m2 0x1FFE00) s0)).map (·.pending) =
    some (some (.prog 4095 .two true)) := by decide
theorem test_wErase : (tgtOf (exec (.wErase 0x0003FF) sData)).map (fun t => (t.main, t.pending)) =
    some ([], some (.erase 1)) := by decide
theorem test_wUdpd : (tgtOf (exec .wUdpd s0)).map (·.mode) = some .udpd := by decide
theorem test_wWake : (tgtOf (exec .wWake (inMode .udpd))).map (·.mode) = some .idle := by decide

/-! ### Witnesses: for each obligation with hypotheses, what meets them, at the ends of the ranges -/

theorem cfg_wf : cfg.wf = true := by decide
theorem s0_undisturbed : s0.Undisturbed := ⟨cfg_wf, rfl, rfl, rfl⟩
theorem sNative_undisturbed : sNative.Undisturbed := ⟨by decide, rfl, rfl, rfl⟩
theorem busy_undisturbed (w : Work) (f : Fate) : (busy w f).Undisturbed := ⟨cfg_wf, rfl, rfl, rfl⟩
theorem inMode_undisturbed (m : Mode) : (inMode m).Undisturbed := ⟨cfg_wf, rfl, rfl, rfl⟩
theorem polling_undisturbed (c : Caller) (f : Fate) : (polling c f).Undisturbed := ⟨cfg_wf, rfl, rfl, rfl⟩
/-- The first and the last page of the array. -/
theorem s0_pageReady : s0.PageReady 0x000000 ∧ s0.PageReady 0x1FFFFF :=
  ⟨⟨rfl, rfl, by decide⟩, ⟨rfl, rfl, by decide⟩⟩

theorem witness_DecodeOfEncodeIsTheInstruction : cfg.wf = true ∧
    (Instr.readPage 0xFFFFFF 65535).wellFormed cfg = true ∧
    (Instr.writePage 0x0001FF []).wellFormed cfg = true := by decide

theorem witness_DecodedInstructionsAreWellFormed :
    decode cfg (.host 0xFFFFFFFFFF3 []) = .ok (.readPage 0xFFFFFF 65535) := by decide

theorem witness_StepRunsTheDecodedInstruction :
    s0.resetIn ≠ some 0 ∧ s0.seq.pc = .idle ∧
      (let s := { s0 with requests := [.host 0x00000000008 [], .wire [0x79]] }
       s.requests = .host 0x00000000008 [] :: [.wire [0x79]] ∧
         decodeHost s.cfg 0x00000000008 [] = .ok .isReady) ∧
      (let s := { s0 with requests := [.wire [0x79]] }
       s.requests = .wire [0x79] :: [] ∧ decodeWire s.cfg [0x79] = .ok .wUdpd) := by decide

/-- A poll loop with a request waiting. -/
theorem witness_RequestsWaitUntilSeqIsIdle :
    let s := { polling .host ⟨some 3, true⟩ with requests := [.host 1 []] }
    s.seq.pc ≠ .idle ∧ ∃ t, step s = .next t := by
  exact ⟨by decide, next_of_after (by decide)⟩

theorem witness_ReservedCodesAreRefused :
    let s := { s0 with requests := [.host 0xFFFFFFFFFFF [], .host 0x0000000000D []] }
    s.resetIn ≠ some 0 ∧ s.seq.pc = .idle ∧
      s.requests = .host 0xFFFFFFFFFFF [] :: [.host 0x0000000000D []] ∧
      0xFFFFFFFFFFF < 2 ^ (28 + s.cfg.sizeW) ∧ 13 ≤ 0xFFFFFFFFFFF % 16 ∧
      13 ≤ 0x0000000000D % 16 := by decide

/-- For StatusReadsReturnTheirPart and GetIdCachesTheIdentifier: idle, and busy with the window about to
end. -/
theorem witness_status_reads : s0.Undisturbed ∧ s0.tgt.mode = .idle ∧
    (busy (.erase 0) ⟨some 0, true⟩).Undisturbed ∧ (busy (.erase 0) ⟨some 0, true⟩).tgt.mode = .busy :=
  ⟨s0_undisturbed, rfl, busy_undisturbed _ _, rfl⟩

theorem witness_QueriesReturnWhatTheyReceive : s0.resetIn = none ∧ (inMode .udpd).resetIn = none ∧
    { s0 with cfg := { cfg with chipPresent := false } }.resetIn = none := ⟨rfl, rfl, rfl⟩

theorem witness_OnlyGetIdAndInitWriteTheIdentifier : s0.resetIn = none ∧
    (Instr.wId ≠ .getId ∧ Instr.wId ≠ .init ∧ ∃ t, exec .wId s0 = .next t) ∧
    (Instr.getStatus ≠ .getId ∧ Instr.getStatus ≠ .init ∧ ∃ t, exec .getStatus s0 = .next t) :=
  ⟨rfl, ⟨by decide, by decide, next_of_after (by decide)⟩,
    ⟨by decide, by decide, next_of_after (by decide)⟩⟩

/-- A binary chip, and a native one with the last cycle before the limit. -/
theorem witness_SetBinaryReturnsAtOnceOrSwitches :
    (s0.Undisturbed ∧ s0.tgt.mode = .idle ∧ s0.tgt.nvBinary = true) ∧
    (let s := { sNative with tgt := { sNative.tgt with nvCycles := 9999 } }
     s.Undisturbed ∧ s.tgt.mode = .idle ∧ s.tgt.nvBinary = false ∧
       s.tgt.nvCycles < s.cfg.nvCycleLimit) :=
  ⟨⟨s0_undisturbed, rfl, rfl⟩, ⟨by decide, rfl, rfl, rfl⟩, by decide⟩

theorem witness_PollOfBusyTargetRepeats :
    let s := polling .init ⟨some 1, true⟩
    s.Undisturbed ∧ s.seq.pc = .polling s.cfg .init ∧ (s.tgt.tick s.cfg).mode = .busy :=
  ⟨polling_undisturbed _ _, rfl, by decide⟩

/-- Both callers; a switch that succeeds and one that fails. -/
theorem witness_PollOfReadyTargetReturns :
    ∀ c ok, let s := polling c ⟨some 0, ok⟩
      s.Undisturbed ∧ s.seq.pc = .polling s.cfg c ∧ (s.tgt.tick s.cfg).mode = .idle := by
  intro c ok
  exact ⟨polling_undisturbed _ _, rfl, by cases c <;> cases ok <;> decide⟩

/-- A poll loop entered after a fault, with and without a reset: a turn whose drawn byte1 shows busy, and
one whose byte1 shows ready. -/
theorem witness_PollLoopGoesOnAfterAFault :
    (faulty 0x00).tgtFault = some .commandWhilePoweredDown ∧
      (faulty 0x00).seq.pc = .polling (faulty 0x00).cfg .host ∧ (faulty 0x00).resetIn = none ∧
      { faulty 0x00 with resetIn := some 0 }.resetIn = some 0 ∧
      (∃ t, step (faulty 0x00) = .next t) ∧ (faultOf (step (faulty 0x80))).isSome = true :=
  ⟨rfl, rfl, rfl, rfl, next_of_after (by decide), by decide⟩

theorem witness_PollNeverEndsOnHangingChip :
    let s := polling .host ⟨none, true⟩
    s.Undisturbed ∧ s.seq.pc = .polling s.cfg .host ∧ s.tgt.mode = .busy ∧ s.tgt.fate.after = none :=
  ⟨polling_undisturbed _ _, rfl, rfl, rfl⟩

theorem witness_PollEndsOnResponsiveChip :
    let s := polling .init ⟨some 7, false⟩
    s.Undisturbed ∧ s.seq.pc = .polling s.cfg .init ∧ s.tgt.mode = .busy ∧ s.tgt.fate.after = some 7 :=
  ⟨polling_undisturbed _ _, rfl, rfl, rfl⟩

/-- The expected identifier, and another one with the parameter true. -/
theorem witness_InitOfBinaryChip : s0.Undisturbed ∧ s0.seq.cs = true ∧ s0.tgt.mode = .idle ∧
    s0.tgt.nvBinary = true ∧ s0.tgt.devId = 0x1F2600 ∧
    (let s := { s0 with tgt := { s0.tgt with devId := 0x1F2601 } }
     s.Undisturbed ∧ s.cfg.initCfgOnIdMismatch = true) :=
  ⟨s0_undisturbed, rfl, rfl, rfl, rfl, ⟨by decide, rfl, rfl, rfl⟩, rfl⟩

theorem witness_InitOfNativeChipSwitchesOnce : sNative.Undisturbed ∧ sNative.seq.cs = true ∧
    sNative.tgt.mode = .idle ∧ sNative.tgt.nvBinary = false ∧
    sNative.tgt.nvCycles < sNative.cfg.nvCycleLimit ∧ sNative.tgt.devId = 0x1F2600 :=
  ⟨sNative_undisturbed, by decide⟩

theorem witness_InitMayStopAtMismatch :
    let s := { s0 with cfg := { cfg with initCfgOnIdMismatch := false },
                       tgt := { s0.tgt with devId := 0x1F2700 } }
    s.Undisturbed ∧ s.seq.cs = true ∧ s.tgt.mode = .idle ∧ s.tgt.devId ≠ 0x1F2600 ∧
      s.cfg.initCfgOnIdMismatch = false := ⟨⟨by decide, rfl, rfl, rfl⟩, by decide⟩

/-- For ReadPageStoresWhatItReceives, WritePageLoadsAndStartsProgram, BufferToMemoryStartsProgram,
ErasePageStartsErase and WireWritesLoadAndStart. The erase condition decides `clean` both ways. -/
theorem witness_page_operations : s0.Undisturbed ∧ s0.PageReady 0x1FFFFF ∧
    (true = true ↔ s0.cfg.b2mBuiltinErase = true ∨
      ∀ i < 512, s0.tgt.main.read (page 0x1FFFFF * 512 + i) = some s0.cfg.erasedByte) ∧
    (let s := { s0 with cfg := { cfg with b2mBuiltinErase := false } }
     s.Undisturbed ∧ s.PageReady 0 ∧ (false = true ↔ s.cfg.b2mBuiltinErase = true ∨
       ∀ i < 512, s.tgt.main.read (page 0 * 512 + i) = some s.cfg.erasedByte)) := by
  refine ⟨s0_undisturbed, s0_pageReady.2, ⟨fun _ => .inl rfl, fun _ => rfl⟩,
    ⟨by decide, rfl, rfl, rfl⟩, ⟨rfl, rfl, by decide⟩, fun h => by simp at h, fun h => ?_⟩
  rcases h with h | h
  · simp at h
  · exact absurd (h 0 (by omega)) (by decide)

/-- A page that holds 512 bytes. -/
theorem witness_ReadPageWrapsInsideThePage :
    let s := { s0 with tgt := { s0.tgt with main := Memory.fill [] 512 512 0x5A } }
    s.Undisturbed ∧ s.PageReady 0x0003FF ∧
      ∀ j < 512, s.tgt.main.read (page 0x0003FF * 512 + j) = some ((fun _ => 0x5A) j : Byte) := by
  refine ⟨⟨by decide, rfl, rfl, rfl⟩, ⟨rfl, rfl, by decide⟩, fun j hj => ?_⟩
  show Memory.read (Memory.fill [] 512 512 0x5A) (1 * 512 + j) = _
  rw [Memory.read_fill, if_pos (by omega)]

/-- The last byte that fits and the first that does not. -/
theorem witness_BufferLoadStoresInPlace : BufId.two ≠ BufId.one ∧
    off 0x0001FF + [(0 : Byte)].length ≤ 512 ∧ 512 < off 0x0001FF + [(0 : Byte), 0].length := by decide

theorem witness_WriteBufferLoadsAndNothingElse :
    s0.Undisturbed ∧ s0.tgt.mode = .idle ∧ s0.tgt.nvBinary = true := ⟨s0_undisturbed, rfl, rfl⟩

theorem witness_StartingAProgramForgetsItsPageOnly : s0.Undisturbed ∧ s0.PageReady 0x1FFFFF ∧
    ((Instr.wProg2 0x1FFFFF [1]).rewrites = some 0x1FFFFF ∧
      ∃ t, exec (.wProg2 0x1FFFFF [1]) s0 = .next t) ∧
    ((Instr.erasePage 0x1FFFFF).rewrites = some 0x1FFFFF ∧
      ∃ t, exec (.erasePage 0x1FFFFF) s0 = .next t) :=
  ⟨s0_undisturbed, s0_pageReady.2, ⟨rfl, next_of_after (by decide)⟩, ⟨rfl, next_of_after (by decide)⟩⟩

theorem witness_OtherInstructionsLeaveTheMemories :
    s0.cfg.wf = true ∧ s0.resetIn = none ∧ s0.seq.cs = true ∧
    ((Instr.writeBuffer 3 [1]).rewrites = none ∧ s0.tgt.mode ≠ .busy ∧
      ∃ t, exec (.writeBuffer 3 [1]) s0 = .next t) ∧
    ((Instr.erasePage 0).changesBuffers = false ∧ ∃ t, exec (.erasePage 0) s0 = .next t) :=
  ⟨by decide, rfl, rfl, ⟨rfl, by decide, next_of_after (by decide)⟩, rfl, next_of_after (by decide)⟩

theorem witness_EachFamilyTurnsItsOwnRotationFlag : s0.resetIn = none ∧
    (Instr.writePage 0 [] ≠ .init ∧ ∃ t, exec (.writePage 0 []) s0 = .next t) ∧
    (Instr.bufferToMemory 0 ≠ .init ∧ ∃ t, exec (.bufferToMemory 0) s0 = .next t) ∧
    (Instr.writeBuffer 0 [] ≠ .init ∧ ∃ t, exec (.writeBuffer 0 []) s0 = .next t) :=
  ⟨rfl, ⟨by decide, next_of_after (by decide)⟩, ⟨by decide, next_of_after (by decide)⟩,
    ⟨by decide, next_of_after (by decide)⟩⟩

theorem all_of_isSome {o : Option State} (h : o.isSome = true) : ∃ t, o = some t := by
  cases o with
  | some t => exact ⟨t, rfl⟩
  | none => simp at h

/-- One page write, a poll, a buffer load and a commit before the write or commit in question. -/
theorem witness_PageWritesAlternate_and_BufferCommitsAlternate :
    let is : List Instr := [.writePage 0x400 [1], .isReady, .getStatus, .writeBuffer 0 [2],
      .bufferToMemory 0x600, .isReady]
    s0.seq.pwSel = false ∧ s0.seq.bwSel = false ∧ s0.resetIn = none ∧ .init ∉ is ∧
      ∃ t, execAll is s0 = some t := by
  exact ⟨rfl, rfl, rfl, by decide, all_of_isSome (by decide)⟩

theorem witness_EnterUdpdPowersDown : s0.Undisturbed ∧ s0.tgt.mode = .idle := ⟨s0_undisturbed, rfl⟩

theorem witness_ExitUdpdWakesAndLosesTheBuffers :
    ((inMode .udpd).Undisturbed ∧ (inMode .udpd).tgt.mode = .udpd) ∧
    ((busy .nvcfg ⟨some 0, true⟩).Undisturbed ∧ (busy .nvcfg ⟨some 0, true⟩).tgt.mode = .busy) ∧
    s0.Undisturbed ∧ s0.tgt.mode = .idle :=
  ⟨⟨inMode_undisturbed _, rfl⟩, ⟨busy_undisturbed _ _, rfl⟩, s0_undisturbed, rfl⟩

theorem witness_OnlyTheWakeLeavesUdpd :
    let s := { inMode .udpd with requests := [.host 0x0000000000C []] }
    s.tgt.mode = .udpd ∧ ∃ t, step s = .next t ∧ t.tgt.mode ≠ .udpd := by
  refine ⟨rfl, ?_⟩
  obtain ⟨t, ht⟩ := next_of_after (o := step { inMode .udpd with requests := [.host 0x0000000000C []] })
    (by decide)
  have h : (tgtOf (step { inMode .udpd with requests := [.host 0x0000000000C []] })).map (·.mode) =
      some .idle := by decide
  refine ⟨t, ht, ?_⟩
  rw [ht] at h
  simp only [tgtOf, after, Option.map_some, Option.some.injEq] at h
  simp [h]

theorem witness_DeepPowerDownIsNeitherEnteredNorLeft :
    (∃ t, step s0 = .next t) ∧ (inMode .dpd).tgt.mode = .dpd ∧ ∃ t, step (inMode .dpd) = .next t :=
  ⟨next_of_after (by decide), rfl, next_of_after (by decide)⟩

/-- For CompletionOfProgram and CompletionOfEraseAndOfPageSizeSwitch: any work, both outcomes. -/
theorem witness_completions : ∀ (w : Work) (ok : Bool),
    let s := busy w ⟨some 0, ok⟩
    s.resetIn = none ∧ s.seq.pc = .idle ∧ s.requests = [] ∧ s.tgt.mode = .busy ∧
      s.tgt.pending = some w ∧ s.tgt.fate.after = some 0 := by
  intro w ok
  exact ⟨rfl, rfl, rfl, rfl, rfl, rfl⟩

theorem witness_ReadAfterProgramReturnsTheBuffer :
    let s := { busy (.prog 1 .two true) ⟨some 0, true⟩ with
      tgt := { (busy (.prog 1 .two true) ⟨some 0, true⟩).tgt with buf2 := Memory.fill [] 0 512 0x5A } }
    s.Undisturbed ∧ s.tgt.mode = .busy ∧ s.tgt.pending = some (.prog (page 0x0003FF) .two true) ∧
      s.tgt.fate = ⟨some 0, true⟩ ∧ s.tgt.nvBinary = true ∧ page 0x0003FF < s.cfg.nPages ∧
      ∀ j < 512, (s.tgt.buf .two).read j = some ((fun _ => 0x5A) j : Byte) := by
  refine ⟨⟨by decide, rfl, rfl, rfl⟩, rfl, rfl, rfl, rfl, by decide, fun j hj => ?_⟩
  show Memory.read (Memory.fill [] 0 512 0x5A) j = _
  rw [Memory.read_fill, if_pos (by omega)]

theorem witness_SeqDrivesTheBusWhateverTheTarget :
    (inMode .dpd).resetIn = none ∧
      (drivenBy (inMode .dpd).cfg (inMode .dpd).seq.pwSel (inMode .dpd).seq.bwSel
        (.writePage 0xFFFFFF [1])).isSome = true := by decide

theorem witness_EveryOperationRunsWithoutAChip :
    let s := { s0 with cfg := { cfg with chipPresent := false } }
    Instr.init.isOperation = true ∧ (Instr.readPage 0 3).isOperation = true ∧ s.resetIn = none ∧
      s.cfg.chipPresent = false := by decide

/-- One opportunity before the window ends; three for SETBINARYPAGESIZE; a raw transaction with the status
opcode and a window that lasts through it. -/
theorem witness_BusyTargetFaults :
    (let s := busy (.erase 0) ⟨some 1, true⟩
     s.Undisturbed ∧ s.tgt.mode = .busy ∧ s.tgt.fate.after ≠ some 0 ∧
       Instr.enterUdpd.busyLegal = false ∧ Instr.wId.busyLegal = false ∧
       (drivenBy s.cfg s.seq.pwSel s.seq.bwSel .enterUdpd).isSome = true ∧ Instr.wId.isWire = true ∧
       s.seq.cs = true) ∧
    (let s := polling .host ⟨some 3, true⟩
     s.Undisturbed ∧ s.tgt.nvBinary = false ∧ ∀ n, s.tgt.fate.after = some n → 3 ≤ n) ∧
    (let s := { busy .nvcfg ⟨some 2, true⟩ with requests := [.wire [0xD7, 0, 0, 0]] }
     s.Undisturbed ∧ s.seq.pc = .idle ∧ s.requests = .wire [0xD7, 0, 0, 0] :: [] ∧
       decodeWire s.cfg [0xD7, 0, 0, 0] = .error .wrongLength ∧
       [0xD7, 0, 0, 0].head? = some s.cfg.opcStatusRead ∧
       ∀ n, s.tgt.fate.after = some n → 2 ≤ n) :=
  ⟨⟨busy_undisturbed _ _, by decide⟩,
    ⟨polling_undisturbed _ _, rfl, fun n h => by cases h; exact Nat.le_refl 3⟩,
    ⟨cfg_wf, rfl, rfl, rfl⟩, rfl, rfl, by decide, by decide, fun n h => by cases h; exact Nat.le_refl 2⟩

theorem witness_PoweredDownTargetFaults :
    ((inMode .udpd).Undisturbed ∧ (inMode .udpd).tgt.mode = .udpd ∧ Instr.wStatus.isWire = true ∧
      (inMode .udpd).seq.cs = true) ∧
    ((inMode .dpd).Undisturbed ∧ (inMode .dpd).tgt.mode = .dpd ∧ Instr.wWake.isWire = true ∧
      (drivenBy (inMode .dpd).cfg false false .exitUdpd).isSome = true) ∧
    (let s := { inMode .udpd with requests := [.wire [0xB9]] }
     s.seq.pc = .idle ∧ s.requests = .wire [0xB9] :: [] ∧
       decodeWire s.cfg [0xB9] = .error .unknownOpcode) :=
  ⟨⟨inMode_undisturbed _, by decide⟩, ⟨inMode_undisturbed _, by decide⟩, by decide⟩

/-- The first page that does not exist, the last that does, and a buffer load. -/
theorem witness_WrongPageOrPageModeFaults :
    (s0.Undisturbed ∧ s0.tgt.mode = .idle ∧ (Instr.readPage 0x200000 1).pageAddr = some 0x200000 ∧
      s0.cfg.nPages ≤ page 0x200000) ∧
    (sNative.Undisturbed ∧ sNative.tgt.mode = .idle ∧
      (Instr.wErase 0x1FFFFF).pageAddr = some 0x1FFFFF ∧ page 0x1FFFFF < sNative.cfg.nPages ∧
      sNative.tgt.nvBinary = false ∧ (Instr.writeBuffer 0 []).isBufferLoad = true) :=
  ⟨⟨s0_undisturbed, by decide⟩, sNative_undisturbed, by decide⟩

theorem witness_UnknownTransactionFaults :
    let s := { s0 with requests := [.wire [0xB9]] }
    s.resetIn ≠ some 0 ∧ s.cfg.chipPresent = true ∧ s.seq.pc = .idle ∧
      s.requests = .wire [0xB9] :: [] ∧ s.tgt.mode = .idle ∧
      decodeWire s.cfg [0xB9] = .error .unknownOpcode := by decide

/-- Duties of an idle machine, of a busy one and of one in ultra-deep power-down. -/
theorem witness_DutifulHostNeverFaults :
    (s0.Undisturbed ∧ s0.Dutiful .init ∧ s0.Dutiful (.writePage 0x1FFFFF [1])) ∧
    ((busy .nvcfg ⟨none, true⟩).Undisturbed ∧ (busy .nvcfg ⟨none, true⟩).Dutiful .isReady) ∧
    (inMode .udpd).Undisturbed ∧ (inMode .udpd).Dutiful .exitUdpd :=
  ⟨⟨s0_undisturbed, ⟨rfl, by decide, rfl⟩, s0_pageReady.2⟩, ⟨busy_undisturbed _ _, .inr rfl⟩,
    inMode_undisturbed _, show Mode.udpd ≠ Mode.dpd by decide⟩

theorem witness_WireQueriesAnswer : s0.Undisturbed ∧ s0.tgt.mode = .idle ∧ s0.PageReady 0x1FFFFF ∧
    (busy .nvcfg ⟨some 1, true⟩).Undisturbed ∧ (busy .nvcfg ⟨some 1, true⟩).tgt.mode = .busy :=
  ⟨s0_undisturbed, rfl, s0_pageReady.2, busy_undisturbed _ _, rfl⟩

theorem witness_WireSwitchAndPowerDown :
    (let s := { s0 with tgt := { s0.tgt with nvCycles := 9999 } }
     s.Undisturbed ∧ s.tgt.mode = .idle ∧ s.tgt.nvCycles < s.cfg.nvCycleLimit) ∧
    (let s := { s0 with tgt := { s0.tgt with nvCycles := 10000 } }
     s.Undisturbed ∧ s.tgt.mode = .idle ∧ s.cfg.nvCycleLimit ≤ s.tgt.nvCycles) :=
  ⟨⟨⟨by decide, rfl, rfl, rfl⟩, by decide⟩, ⟨by decide, rfl, rfl, rfl⟩, by decide⟩

theorem witness_ResetInputStartsInitAgain :
    { polling .host ⟨none, true⟩ with resetIn := some 0 }.resetIn = some 0 ∧
      (polling .host ⟨none, true⟩).tgtFault = none := ⟨rfl, rfl⟩

/-- The reset falls right after chip-select, and on the last exchange. -/
theorem witness_ResetCutsATransaction :
    s0.cfg.wf = true ∧ s0.cfg.chipPresent = true ∧ s0.tgtFault = none ∧ s0.PageReady 0x1FFFFF ∧
    ({ s0 with resetIn := some 1 }.resetIn = some (0 + 1) ∧ 0 < ([] : List Byte).length + 5) ∧
    ({ s0 with resetIn := some 6 }.resetIn = some (5 + 1) ∧ 5 < [(1 : Byte)].length + 5) ∧
    { s0 with resetIn := some 11 }.resetIn = some (10 + 1) ∧ 10 < 2 + 9 :=
  ⟨cfg_wf, rfl, rfl, s0_pageReady.2, by decide⟩

/-- A truncated transaction that is no command, and one that is: a program of the page of its four
bytes, its gate and checks passed. -/
theorem witness_TruncatedTransactionEndsAtInit :
    (let s := { s0 with shifted := [0x82, 0x00], seq := { s0.seq with cs := false, pc := .initStart } }
     s.Undisturbed ∧ s.seq.cs = false ∧ s.tgt.mode = .idle ∧
       decodeWire s.cfg s.shifted = .error .wrongLength) ∧
    (let s := { s0 with
       shifted := [0x82, 0x00, 0x04, 0x00], seq := { s0.seq with cs := false, pc := .initStart } }
     s.Undisturbed ∧ s.seq.cs = false ∧ s.tgt.verdict s.cfg s.shifted = .ok (.wProg1 0x000400 [])) :=
  ⟨⟨⟨by decide, rfl, rfl, rfl⟩, by decide⟩, ⟨by decide, rfl, rfl, rfl⟩, rfl, by decide⟩

theorem witness_StepKeepsTheInvariant : (busy (.erase 4095) ⟨some 0, true⟩).Inv ∧
    ∃ t, step (busy (.erase 4095) ⟨some 0, true⟩) = .next t := by
  refine ⟨⟨fun _ => rfl, (fun _ _ _ h => nomatch h), fun _ => rfl, by decide, fun p h => ?_, .nil, .nil,
    .nil, (fun _ h => nomatch h), (fun _ h => nomatch h), (fun _ h => nomatch h), by decide,
    (fun _ h => nomatch h)⟩, next_of_after (by decide)⟩
  cases h
  decide

/-- SEQ at the start of a turn of the poll loop. -/
theorem witness_PrimitiveCallsKeepTheInvariants : (polling .init ⟨some 2, true⟩).Inv ∧
    (polling .init ⟨some 2, true⟩).TraceWhole ∧ (faulty 0x00).FaultInside ∧
    ∃ t, step (faulty 0x00) = .next t := by
  refine ⟨⟨(fun h => nomatch h), ?_, fun _ => rfl, by decide, (fun p h => nomatch h), .nil, .nil, .nil,
    (fun _ h => nomatch h), (fun _ h => nomatch h), (fun _ h => nomatch h), by decide,
    (fun _ h => nomatch h)⟩, ⟨8000000, _, rfl, rfl⟩, fun _ => ⟨_, _, _, rfl⟩, next_of_after (by decide)⟩
  intro stage rest kept h
  cases h
  exact ⟨by decide, rfl, rfl⟩

/-- Inside an operation, at its last exchange and at its `CS1`; and an operation that starts. -/
theorem witness_StepPerformsItsPrimitiveCalls :
    (let s := { s0 with seq := { s0.seq with
        cs := false, pc := .running .getStatus [.xchg 0 .keep, .csDeassert] [0xAD] } }
     s.resetIn ≠ some 0 ∧ s.seq.pc = .running .getStatus (.xchg 0 .keep :: [.csDeassert]) [0xAD] ∧
       [Call.csDeassert] ≠ []) ∧
    (let s := { s0 with seq := { s0.seq with
        cs := false, pc := .running .getStatus [.csDeassert] [0xAD, 0x00] } }
     s.resetIn ≠ some 0 ∧ s.seq.pc = .running .getStatus (.csDeassert :: []) [0xAD, 0x00]) ∧
    { s0 with resetIn := some 0 }.resetIn = some 0 ∧ Instr.init.isOperation = true ∧
      (Instr.readPage 0 3).isOperation = true := by decide

theorem witness_StepKeepsTransactionsWhole : s0.TraceWhole ∧ ∃ t, step s0 = .next t :=
  ⟨⟨8000000, [], rfl, rfl⟩, next_of_after (by decide)⟩

theorem witness_ConstantsNeverChange : (∃ t, step s0 = .next t) ∧ s0.seq.pc ≠ .initStart ∧
    (∀ p rest, s0.requests = p :: rest → decode s0.cfg p ≠ .ok .init) ∧
    ∀ stage rest kept hz, s0.seq.pc = .running stage rest kept → .setClock hz ∉ rest :=
  ⟨next_of_after (by decide), by decide, (fun _ _ h => nomatch h), fun _ _ _ _ h => nomatch h⟩

end Sys2Proof.Tests
end

section
/-! PROOFS. The statements of spec/10_state.md's family: the invariants, what decodes, the step, the status
word, SEQ's registers, deep power-down, the constants, and the memories. -/

namespace Sys2Proof.Machine

/-! ### Raw transactions -/

/-- A raw transaction is nothing to SEQ (log 13): it changes the target and the received bytes only. -/
theorem wireStep_frame {s t : State} {bytes : List Byte} (e : wireStep s bytes = .next t) :
    t.cfg = s.cfg ∧ t.seq = s.seq ∧ t.requests = s.requests := by
  rcases wireStep_next e with ⟨-, rfl⟩ | ⟨j, -, -, rfl⟩
  · exact ⟨rfl, rfl, rfl⟩
  · exact ⟨rfl, rfl, rfl⟩

/-! ### The invariants, through every step -/

/-- A raw transaction touches the target and the received bytes only, so it keeps the invariant. -/
theorem wireStep_inv {s t : State} {bytes : List Byte} (h : s.Inv) (e : wireStep s bytes = .next t) :
    t.Inv := by
  have hw := wireStep_wf h.wf e
  rcases wireStep_next e with ⟨-, rfl⟩ | ⟨j, -, -, rfl⟩
  · exact State.InvAt.inv ⟨hw, h.idHigh, h.closed⟩ h.csHigh h.inside h.respOk
  · exact State.InvAt.inv ⟨hw, h.idHigh, h.closed⟩ h.csHigh h.inside h.respOk

/-- Settles O57: each kind of step keeps the invariant, an operation by its advances. -/
theorem stepKeepsTheInvariant : Obligations.StepKeepsTheInvariant := by
  intro s t h e
  rcases step_cases e with ⟨-, e⟩ | ⟨-, -, e⟩ | ⟨g, cs, kept, -, -, e⟩ | ⟨-, -, -, rfl⟩ |
    ⟨p, rest, i, -, hp, -, -, e⟩ | ⟨bytes, rest, why, -, hp, -, -, e⟩
  · obtain ⟨rfl, -⟩ := State.finish_next e
    exact h.at.assertReset
  · exact exec_inv h (fun hi => absurd rfl hi) e
  · exact resume_next (fun _ h => h.callStep) h e
  · exact State.InvAt.inv ⟨h.wf.tick, h.idHigh, h.closed⟩ h.csHigh h.inside h.respOk
  · exact exec_inv (h.takePacket hp p rest) (fun _ => by simpa using h.csHigh hp) e
  · exact wireStep_inv (h.takePacket hp _ rest) e

/-- A raw transaction is no event of SEQ's bus trace. -/
theorem wireStep_traceWhole {s t : State} {bytes : List Byte} (h : s.TraceWhole)
    (e : wireStep s bytes = .next t) : t.TraceWhole := by
  obtain ⟨-, hs, -⟩ := wireStep_frame e
  unfold State.TraceWhole
  rw [hs]
  exact h

/-- Settles O59: each kind of step keeps the form of the bus trace, an operation by its advances. -/
theorem stepKeepsTransactionsWhole : Obligations.StepKeepsTransactionsWhole := by
  intro s t h e
  rcases step_cases e with ⟨-, e⟩ | ⟨-, -, e⟩ | ⟨g, cs, kept, -, -, e⟩ | ⟨-, -, -, rfl⟩ |
    ⟨p, rest, i, -, hp, -, -, e⟩ | ⟨bytes, rest, why, -, -, -, -, e⟩
  · obtain ⟨rfl, -⟩ := State.finish_next e
    simp [State.TraceWhole]
  · exact exec_traceWhole (fun hi => absurd rfl hi) e
  · exact resume_next (fun _ h => h.callStep) h e
  · exact h
  · exact exec_traceWhole (fun _ => ⟨h.takePacket p rest, by simpa using hp⟩) e
  · exact wireStep_traceWhole (h.takePacket _ rest) e

/-- Every step keeps a fault pending only inside an operation. -/
theorem step_faultInside {s t : State} (h : s.FaultInside) (e : step s = .next t) : t.FaultInside := by
  rcases step_cases e with ⟨-, e⟩ | ⟨-, -, e⟩ | ⟨g, cs, kept, -, -, e⟩ | ⟨-, -, -, rfl⟩ |
    ⟨p, rest, i, -, -, -, -, e⟩ | ⟨bytes, rest, why, -, -, -, -, e⟩
  · exact State.faultInside_finish e
  · exact exec_faultInside h e
  · exact State.faultInside_finish e
  · exact h
  · exact exec_faultInside (h.takePacket p rest) e
  · exact wireStep_faultInside (h.takePacket _ rest) e

/-- Settles O58: an advance keeps the invariant and the form of the trace; the end of a step reports a
fault outside an operation. -/
theorem primitiveCallsKeepTheInvariants : Obligations.PrimitiveCallsKeepTheInvariants :=
  ⟨fun _ h => h.callStep, fun _ h => h.callStep, fun _ _ h e => step_faultInside h e⟩

/-- Settles O56: at reset the target is idle, every memory empty, and SEQ at INIT's start. -/
theorem resetMeetsTheInvariant : Obligations.ResetMeetsTheInvariant := by
  refine ⟨State.InvAt.inv ⟨?_, rfl, fun _ => rfl⟩ ?_ ?_ ?_, ?_, rfl⟩
  · constructor <;> simp [State.reset, Tgt.reset]
  · intro h; cases h
  · intro g rest kept h; cases h
  · intro r h; cases h
  · intro h; cases h

/-! ### What decodes is well formed -/

/-- A data stream that is taken has the length the word asks for. -/
theorem takeStream_ok {size : Nat} {data : List Byte} {k : List Byte → Instr} {i : Instr}
    (h : takeStream size data k = .ok i) : ∃ d, d.length = size ∧ i = k d := by
  unfold takeStream at h
  split at h
  · next hl => cases h; exact ⟨_, List.length_take_of_le hl, rfl⟩
  · cases h

/-- The size field of a word of format H is below `2^SIZE_W`. -/
theorem sizeFits_of_word {cfg : Config} {word : Nat} (h : word < 2 ^ (28 + cfg.sizeW)) :
    sizeFits cfg (word / 2 ^ 28) = true := by
  rw [Nat.pow_add] at h
  simpa [sizeFits] using Nat.div_lt_of_lt_mul h

theorem decodeHost_wellFormed {cfg : Config} {word : Nat} {data : List Byte} {i : Instr}
    (h : decodeHost cfg word data = .ok i) : i.wellFormed cfg = true := by
  unfold decodeHost at h
  split at h
  · next hw =>
    have hs := sizeFits_of_word hw
    dsimp only at h
    -- the arms with a size are READPAGE (op 3), WRITEPAGE (op 4) and WRITEBUFFER (op 5)
    split at h
    case h_4 => cases h; exact hs
    case h_5 => obtain ⟨d, hd, rfl⟩ := takeStream_ok h; simpa [Instr.wellFormed, hd] using hs
    case h_6 => obtain ⟨d, hd, rfl⟩ := takeStream_ok h; simpa [Instr.wellFormed, hd] using hs
    all_goals cases h; rfl
  · cases h

/-- A wire command is well formed at every length: only host requests have a size (30_encoding.md R89). -/
theorem decodeWire_wellFormed {cfg : Config} {bytes : List Byte} {i : Instr}
    (h : decodeWire cfg bytes = .ok i) : i.wellFormed cfg = true := by
  have hl := decodeWire_length h
  cases i <;> first | rfl | cases hl

/-- Settles O3, on the two levels. -/
theorem decodedInstructionsAreWellFormed : Obligations.DecodedInstructionsAreWellFormed := by
  intro cfg p i h
  cases p with
  | host word data => exact decodeHost_wellFormed h
  | wire bytes => exact decodeWire_wellFormed h

/-! ### The machine's step -/

/-- Settles O4, by what `step` does with the next packet of an idle SEQ. -/
theorem stepRunsTheDecodedInstruction : Obligations.StepRunsTheDecodedInstruction := by
  intro s rest i h0 hp
  refine ⟨fun word data hq hd => ?_, fun bytes hq hd => ?_⟩
  · simp [step, State.nextAction, h0, hp, hq, decode, hd, State.takePacket]
  · simp [step, State.nextAction, h0, hp, hq, decode, hd, State.takePacket]

/-- INIT takes no request, nor does any other instruction: `step` has taken its packet before. -/
theorem exec_requests {i : Instr} {s t : State} (e : exec i s = .next t) : t.requests = s.requests := by
  rcases instr_kinds i s with ⟨-, u, g, cs, ho⟩ | ⟨-, bytes, hb⟩ | rfl | rfl | rfl
  · rw [exec_opening ho] at e
    obtain ⟨-, -, -, -, f5, -⟩ := opening_frame ho
    exact serve_keeps (P := fun v => v.requests = s.requests)
      (fun v hv => v.callStep_requests.trans hv) f5 e
  · rw [exec_wire hb] at e
    obtain ⟨-, -, hq⟩ := wireStep_frame e
    exact hq
  all_goals cases e

/-- Settles O6: a step of an SEQ that is not idle is a reset, INIT, or advances. -/
theorem requestsWaitUntilSeqIsIdle : Obligations.RequestsWaitUntilSeqIsIdle := by
  intro s t hi e
  rcases step_cases e with ⟨-, e⟩ | ⟨-, -, e⟩ | ⟨g, cs, kept, -, -, e⟩ | ⟨-, hp, -⟩ |
    ⟨p, rest, i, -, hp, -⟩ | ⟨bytes, rest, why, -, hp, -⟩
  · obtain ⟨rfl, -⟩ := State.finish_next e
    rfl
  · exact exec_requests e
  · obtain ⟨rfl, -⟩ := State.finish_next e
    exact s.resume_requests
  all_goals exact absurd hp hi

/-- The last call of a piece: SEQ has returned, with a response, or is before the first call of
another piece. -/
theorem State.endStage_position (s : State) (g : Stage) (kept : List Byte) :
    ((s.endStage g kept).seq.pc = .idle ∧ ∃ v, (s.endStage g kept).seq.resp = some ⟨true, v⟩) ∨
    ∃ g' c' rest', (s.endStage g kept).seq.pc = .running g' (c' :: rest') [] ∧
      (s.endStage g kept).seq.resp = none := by
  rcases s.endStage_cases g kept with ⟨id, v, e, -⟩ | ⟨id, g', cs, e, -, hc, -⟩ <;> rw [e]
  · exact .inl ⟨rfl, v, rfl⟩
  · right
    rcases hc with rfl | ⟨rfl, -⟩
    · exact ⟨_, _, _, rfl, rfl⟩
    · exact ⟨_, _, _, rfl, rfl⟩

/-- What an advance does to the bus and the reset input, wherever in the piece the call stands. -/
theorem State.callStep_call {s : State} {g : Stage} {c : Call} {rest : List Call} {kept : List Byte}
    (h0 : s.resetIn ≠ some 0) (hp : s.seq.pc = .running g (c :: rest) kept) :
    (∃ e, e.driven = c.driven ∧ s.callStep.seq.trace = s.seq.trace ++ [e]) ∧
      s.callStep.seq.cs = c.csAfter s.seq.cs ∧ s.callStep.resetIn = s.resetIn.map (· - 1) := by
  obtain ⟨e, he, ht⟩ := (s.spend 1).perform_trace c
  cases rest with
  | nil => rw [s.callStep_last h0 hp]; exact ⟨⟨e, he, by simpa using ht⟩, by simp, by simp⟩
  | cons c' cs =>
    rw [s.callStep_more h0 hp (by simp)]; exact ⟨⟨e, he, by simpa using ht⟩, by simp, by simp⟩

/-- A run of SEQ from inside a piece is a number of advances, more than the calls after the first. -/
theorem State.resume_advances {s : State} {g : Stage} {c : Call} {rest : List Call} {kept : List Byte}
    (hp : s.seq.pc = .running g (c :: rest) kept) :
    ∃ n, rest.length < n ∧ (State.callStep^[n] s).seq.pc.rests = true ∧
      s.resume = State.callStep^[n] s := by
  obtain ⟨n, hn, e, hr⟩ := State.resume_rests (by simp) hp
  rw [State.calls_eq] at e hr
  exact ⟨n, by simpa using hn, hr, e⟩

/-- Settles O5: what one advance does, and that operations and steps from inside one are runs of them. -/
theorem stepPerformsItsPrimitiveCalls : Obligations.StepPerformsItsPrimitiveCalls := by
  refine ⟨fun s h => s.callStep_reset h, fun s g c rest kept h0 hp => ?_, fun i s hi => ?_,
    fun s g c rest kept h0 hp => ?_⟩
  · obtain ⟨ht, hcs, hr⟩ := State.callStep_call h0 hp
    refine ⟨ht, by rw [hcs]; cases c <;> rfl, hr, s.callStep_requests, fun hne => ?_, ?_⟩
    · rw [s.callStep_more h0 hp hne]
      exact ⟨_, (s.spend 1).perform_kept c, by simp, rfl⟩
    · rintro rfl
      rw [s.callStep_last h0 hp]
      exact State.endStage_position _ g _
  · obtain ⟨u, g, cs, ho⟩ := opening_of_operation hi s
    obtain ⟨c, rest, rfl, -⟩ := opening_first ho true
    obtain ⟨-, f2, -, -, -, -, -, -, -, -, f11, -⟩ := opening_frame ho
    obtain ⟨n, hn, hr, e⟩ := State.resume_advances (s := u.begin g (c :: rest)) rfl
    exact ⟨g, c, rest, u.begin g (c :: rest), n, rfl, f2, f11, hn, hr,
      by rw [exec_opening ho, State.serve, e]⟩
  · obtain ⟨n, hn, hr, e⟩ := State.resume_advances hp
    exact ⟨n, hn, hr, by rw [step_of_running h0 hp, e]⟩

/-! ### Status words by bit and by mask -/

/-- One bit of a status word, tested with its mask. -/
theorem bit_iff_mask (w : StatusWord) {k : Nat} (hk : k < 16) :
    w.getLsbD k = true ↔ w &&& BitVec.twoPow 16 k ≠ 0 := by
  rw [BitVec.and_twoPow]
  cases w.getLsbD k
  · simp
  · have hne : BitVec.twoPow 16 k ≠ 0 := fun h => by
      have := congrArg (BitVec.getLsbD · k) h
      simp [hk] at this
    simpa using hne

/-- A field of a status word, taken with its mask. -/
theorem idCode_mask (w : StatusWord) : idCode w = ((w &&& 0x3C00) >>> 10).setWidth 4 := by
  have hm : ∀ i < 4, (0x3C00 : StatusWord).getLsbD (10 + i) = true := by decide
  refine BitVec.eq_of_getLsbD_eq fun i hi => ?_
  simp only [idCode, BitVec.getLsbD_extractLsb', BitVec.getLsbD_setWidth, BitVec.getLsbD_ushiftRight,
    BitVec.getLsbD_and, hm i hi, Bool.and_true]

/-- Settles O8: each one-bit mask is the power of two of its bit. -/
theorem statusFieldsByMask : Obligations.StatusFieldsByMask := fun w =>
  ⟨bit_iff_mask w (k := 15) (by decide), bit_iff_mask w (k := 8) (by decide),
    bit_iff_mask w (k := 5) (by decide), idCode_mask w, rfl, rfl, rfl⟩

/-- Two words agree under a mask if they have the same bits where it has one. -/
theorem and_mask_congr {n : Nat} {w v m : BitVec n}
    (h : ∀ i, m.getLsbD i = true → w.getLsbD i = v.getLsbD i) : w &&& m = v &&& m := by
  refine BitVec.eq_of_getLsbD_eq fun i _ => ?_
  rw [BitVec.getLsbD_and, BitVec.getLsbD_and]
  cases hm : m.getLsbD i
  · simp
  · rw [h i hm]

/-- The density code stands in bits 13:10 of the word, bits 5:2 of byte1. -/
theorem idCode_byte1 (t : Tgt) (b2 : Byte) : idCode (statusWord t.byte1 b2) = t.density := by
  refine BitVec.eq_of_getLsbD_eq fun i hi => ?_
  rw [idCode, BitVec.getLsbD_extractLsb', statusWord_getLsbD _ _ _ (by omega), Tgt.byte1,
    if_neg (by omega), statusByte1_getLsbD _ _ _ _ _ (by omega), if_neg (by omega), if_neg (by omega),
    if_neg (by omega), if_neg (by omega), show 10 + i - 8 - 2 = i by omega]
  simp [hi]

/-- Bits 6 and 1 of byte1 are those of its draw. -/
theorem Tgt.byte1_undef (t : Tgt) {k : Nat} (hk : k = 1 ∨ k = 6) :
    t.byte1.getLsbD k = t.free.nextByte.1.getLsbD k := by
  rcases hk with rfl | rfl <;> rw [Tgt.byte1, statusByte1_getLsbD _ _ _ _ _ (by decide)] <;> rfl

/-- The word has them at bits 14 and 9. -/
theorem statusWord_undef1 (t : Tgt) (b2 : Byte) :
    statusWord t.byte1 b2 &&& 0x4200 = (t.free.nextByte.1.setWidth 16 <<< 8) &&& 0x4200 := by
  have hm : ∀ i < 16, (0x4200 : StatusWord).getLsbD i = true → 8 ≤ i ∧ (i - 8 = 1 ∨ i - 8 = 6) := by
    decide
  refine and_mask_congr fun i h => ?_
  have h16 : i < 16 := BitVec.lt_of_getLsbD h
  obtain ⟨h8, hk⟩ := hm i h16 h
  rw [statusWord_getLsbD _ _ _ h16, if_neg (by omega), t.byte1_undef hk, BitVec.getLsbD_shiftLeft,
    BitVec.getLsbD_setWidth]
  simp [h8, h16, show i - 8 < 16 by omega]

/-- The undefined bits of byte2 are those of its draw: the low byte but bit 5. -/
theorem statusWord_undef2 (b1 : Byte) (u : Tgt) :
    statusWord b1 u.byte2 &&& 0x00DF = u.free.nextByte.1.setWidth 16 &&& 0x00DF := by
  have hm : ∀ i < 16, (0x00DF : StatusWord).getLsbD i = true → i < 8 ∧ i ≠ 5 := by decide
  refine and_mask_congr fun i h => ?_
  obtain ⟨hi, h5⟩ := hm i (BitVec.lt_of_getLsbD h) h
  rw [statusWord_getLsbD _ _ _ (by omega), if_pos hi, Tgt.byte2, statusByte2_getLsbD _ _ _ hi, if_neg h5,
    BitVec.getLsbD_setWidth, decide_eq_true (show i < 16 by omega), Bool.true_and]

/-- Settles O9, field by field. -/
theorem statusWordShowsTheTarget : Obligations.StatusWordShowsTheTarget := fun t u =>
  ⟨(ready_statusWord _ _).trans t.byte1_ready, idCode_byte1 t _, (binary_statusWord _ _).trans t.byte1_binary,
    (error_statusWord _ _).trans u.byte2_error, statusWord_undef1 t _, statusWord_undef2 _ u⟩

/-! ### SEQ's registers -/

/-- The first piece of an operation but GETID and INIT does not write `ID_CACHE`. -/
theorem opening_writesId {i : Instr} {s u : State} {g : Stage} {cs : List Call}
    (h : opening i s = some (u, g, cs)) (hg : i ≠ .getId) (hi : i ≠ .init) : g.writesId = false := by
  cases i <;> cases h <;> first | rfl | exact absurd rfl hg | exact absurd rfl hi

/-- SEQ is in no piece that writes `ID_CACHE`, which holds `id`, and no reset is due. -/
def State.IdKept (id : Ident) (s : State) : Prop :=
  s.resetIn = none ∧ s.seq.idCache = id ∧
    ∀ g cs kept, s.seq.pc = .running g cs kept → g.writesId = false

theorem State.IdKept.callStep {id : Ident} {s : State} (h : s.IdKept id) : s.callStep.IdKept id := by
  obtain ⟨hr, hid, hg⟩ := h
  refine ⟨(State.callStep_flags hr).1, ?_⟩
  rcases s.callStep_cases with ⟨h0, -⟩ | ⟨-, -, e⟩ | ⟨g, c, rest, kept, -, hp, -, e⟩ | ⟨g, c, kept, -, hp, e⟩
  · rw [hr] at h0; cases h0
  · rw [e]; exact ⟨hid, hg⟩
  · rw [e]
    refine ⟨by simpa using hid, ?_⟩
    intro g' cs' kept' hp'
    cases hp'
    exact hg _ _ _ hp
  · rw [e]
    obtain ⟨h1, h2⟩ := State.endStage_idCache (s := ((s.spend 1).perform c).1) (hg _ _ _ hp)
      (kept ++ ((s.spend 1).perform c).2)
    exact ⟨h1.trans (by simpa using hid), h2⟩

/-- Settles O13: no piece of the operation writes the register, and a wire command is nothing to SEQ. -/
theorem onlyGetIdAndInitWriteTheIdentifier : Obligations.OnlyGetIdAndInitWriteTheIdentifier := by
  intro i s t hg hi hr e
  rcases instr_kinds i s with ⟨-, u, g, cs, ho⟩ | ⟨-, bytes, hb⟩ | rfl | rfl | rfl
  · rw [exec_opening ho] at e
    obtain ⟨-, -, -, -, -, f6, -, -, -, -, -, f12, -⟩ := opening_frame ho
    rw [if_neg hi] at f12
    have h0 : (u.begin g cs).IdKept s.seq.idCache := by
      refine ⟨f6.trans hr, f12, ?_⟩
      intro g' cs' kept hp
      cases hp
      exact opening_writesId ho hg hi
    obtain ⟨-, h, -⟩ := serve_keeps (fun _ h => h.callStep) h0 e
    exact h
  · rw [exec_wire hb] at e
    obtain ⟨-, hs, -⟩ := wireStep_frame e
    rw [hs]
  all_goals cases e

/-- Settles O32, by what `exec_flags` says of the two flags. -/
theorem eachFamilyTurnsItsOwnRotationFlag : Obligations.EachFamilyTurnsItsOwnRotationFlag := by
  intro i s t hr hi e
  obtain ⟨-, -, hpw, hbw⟩ := exec_flags hr hi e
  exact ⟨hpw, hbw⟩

/-! ### Deep power-down -/

theorem Tgt.tick_dpd (cfg : Config) (t : Tgt) : (t.tick cfg).mode = .dpd ↔ t.mode = .dpd := by
  rcases t.tick_mode cfg with e | ⟨hb, hi⟩
  · rw [e]
  · simp [hb, hi]

theorem Tgt.exchange_dpd (cfg : Config) (before : List Byte) (tx : Byte) (t : Tgt) :
    (t.exchange cfg before tx).1.mode = .dpd ↔ t.mode = .dpd :=
  Tgt.exchange_keeps (P := fun u => u.mode = .dpd ↔ t.mode = .dpd) cfg before tx t Iff.rfl
    (fun _ h => h) (t.tick_dpd cfg) fun _ _ _ _ _ _ _ => by simp

/-- No command's `CS1` leads to deep power-down. -/
theorem Tgt.commit_dpd (cfg : Config) (i : Instr) {t : Tgt} (h : t.mode ≠ .dpd) :
    (t.commit cfg i).mode ≠ .dpd := by
  cases i <;> first | exact h | exact Mode.noConfusion

theorem Tgt.latch_dpd (cfg : Config) (bytes : List Byte) (t : Tgt) :
    (t.latch cfg bytes).1.mode = .dpd ↔ t.mode = .dpd := by
  by_cases h : t.mode = .dpd
  · rw [Tgt.latch_powered_down bytes (.inr h)]
  · refine iff_of_false ?_ h
    rcases t.latch_cases cfg bytes with ⟨i, -, e⟩ | ⟨f, -, e⟩ <;> rw [e]
    · exact t.commit_dpd cfg i h
    · exact h

theorem Tgt.settle_dpd (t : Tgt) : t.settle.mode = .dpd ↔ t.mode = .dpd := by
  rcases t.settle_cases with ⟨hu, e⟩ | ⟨-, e⟩ <;> rw [e]
  simp [hu]

/-- Whatever a transaction does to the target, it neither enters nor leaves deep power-down. -/
theorem Tgt.keeps_dpd (cfg : Config) (q : Prop) : Tgt.Keeps cfg fun t => t.mode = .dpd ↔ q :=
  ⟨fun _ _ h => h, fun t h => (t.tick_dpd cfg).trans h, fun b tx t h => (t.exchange_dpd cfg b tx).trans h,
    fun b t h => (t.latch_dpd cfg b).trans h⟩

theorem steady_dpd : Steady fun s t => t.tgt.mode = .dpd ↔ s.tgt.mode = .dpd where
  start s u v _ ht h := by rwa [ht] at h
  refl s := Iff.rfl
  call s u h := by
    rcases State.callStep_tgt (Tgt.keeps_dpd u.cfg _) h with h' | ⟨-, t, ht, e, -⟩
    · exact h'
    · rw [e]; exact t.settle_dpd.trans ht
  wire s t bytes e := by
    rcases wireStep_tgt (Tgt.keeps_dpd s.cfg (s.tgt.mode = .dpd)) Iff.rfl e with h | ⟨-, u, hu, e⟩
    · exact h
    · rw [e]; exact u.settle_dpd.trans hu

/-- Settles O38: no move of the target, an operation's or a transaction's, enters or leaves the mode. -/
theorem deepPowerDownIsNeitherEnteredNorLeft : Obligations.DeepPowerDownIsNeitherEnteredNorLeft :=
  fun _ _ e => step_steady steady_dpd (fun s => s.tgt.tick_dpd s.cfg) e

/-! ### The constants and the clock -/

/-- Whatever a transaction does to the target, the chip's constants stay (10_state.md R29). -/
theorem Tgt.keeps_const (cfg : Config) (d : BitVec 24) (n : BitVec 4) :
    Tgt.Keeps cfg fun t => t.devId = d ∧ t.density = n where
  free _ _ h := h
  tick t h := by simpa using h
  exchange b tx t h := by
    obtain ⟨h1, h2⟩ := t.exchange_const cfg b tx
    exact ⟨h1.trans h.1, h2.trans h.2⟩
  latch b t h := by
    obtain ⟨h1, h2⟩ := t.latch_const cfg b
    exact ⟨h1.trans h.1, h2.trans h.2⟩

/-- The wake keeps them too. -/
theorem Tgt.settle_keeps_const {t : Tgt} {d : BitVec 24} {n : BitVec 4} (h : t.devId = d ∧ t.density = n) :
    t.settle.devId = d ∧ t.settle.density = n :=
  ⟨t.settle_const.1.trans h.1, t.settle_const.2.trans h.2⟩

theorem steady_const : Steady fun s t =>
    t.cfg = s.cfg ∧ t.tgt.devId = s.tgt.devId ∧ t.tgt.density = s.tgt.density where
  start s u v hc ht h := by rwa [hc, ht] at h
  refl s := ⟨rfl, rfl, rfl⟩
  call s u h := by
    refine ⟨u.callStep_cfg.trans h.1, ?_⟩
    rcases State.callStep_tgt (Tgt.keeps_const u.cfg _ _) h.2 with h' | ⟨-, t, ht, e, -⟩
    · exact h'
    · rw [e]; exact Tgt.settle_keeps_const ht
  wire s t bytes e := by
    obtain ⟨hc, -⟩ := wireStep_frame e
    refine ⟨hc, ?_⟩
    rcases wireStep_tgt (Tgt.keeps_const s.cfg _ _) ⟨rfl, rfl⟩ e with h | ⟨-, u, hu, e⟩
    · exact h
    · rw [e]; exact Tgt.settle_keeps_const hu

/-- A transaction sets no clock. -/
theorem setClock_not_mem_xact {bytes : List Byte} {mid : List Call} (h : exchangesOf bytes mid) (hz : Nat) :
    .setClock hz ∉ xactCalls mid := by
  simp only [xactCalls, List.mem_cons, List.mem_append, reduceCtorEq, List.not_mem_nil, or_false, false_or]
  intro hm
  obtain ⟨tx, sink, e⟩ := h.1 _ hm
  cases e

/-- The only operation that sets the clock is INIT (10_state.md R14). -/
theorem opening_setClock {i : Instr} {s u : State} {g : Stage} {cs : List Call}
    (h : opening i s = some (u, g, cs)) (hi : i ≠ .init) (hz : Nat) : .setClock hz ∉ cs := by
  cases i <;> cases h <;> first
    | exact absurd rfl hi
    | exact setClock_not_mem_xact (exchangesOf_query _ _ _) hz
    | exact setClock_not_mem_xact (exchangesOf_read _ _ _) hz
    | exact setClock_not_mem_xact (exchangesOf_discards _) hz
    | simp [wakeCalls]

/-- The clock stands at `hz`, and no call left of the piece SEQ is in sets it. -/
def State.ClockKept (hz : Nat) (s : State) : Prop :=
  s.seq.clkHz = hz ∧ ∀ g cs kept x, s.seq.pc = .running g cs kept → .setClock x ∉ cs

theorem State.ClockKept.callStep {hz : Nat} {s : State} (h : s.ClockKept hz) :
    s.callStep.ClockKept hz := by
  obtain ⟨hc, hn⟩ := h
  have keep : ∀ g c rest kept, s.seq.pc = .running g (c :: rest) kept →
      ((s.spend 1).perform c).1.seq.clkHz = hz := fun g c rest kept hp =>
    ((s.spend 1).perform_clkHz c fun x e => hn _ _ _ x hp (by simp [e])).trans hc
  rcases s.callStep_cases with ⟨-, e⟩ | ⟨-, -, e⟩ | ⟨g, c, rest, kept, -, hp, -, e⟩ | ⟨g, c, kept, -, hp, e⟩ <;>
    rw [e]
  · refine ⟨hc, ?_⟩
    intro g cs kept x hp; cases hp
  · exact ⟨hc, hn⟩
  · refine ⟨keep _ _ _ _ hp, ?_⟩
    intro g' cs' kept' x hp' hm
    cases hp'
    exact hn _ _ _ x hp (List.mem_cons_of_mem _ hm)
  · refine ⟨by rw [State.endStage_seq_clkHz]; exact keep _ _ _ _ hp, ?_⟩
    intro g' cs' kept' x hp'
    rcases ((s.spend 1).perform c).1.endStage_cases g (kept ++ ((s.spend 1).perform c).2) with
      ⟨id, v, e, -⟩ | ⟨id, g₁, cs₁, e, -, hcs, -⟩ <;> rw [e] at hp' <;> cases hp'
    rcases hcs with rfl | ⟨rfl, -⟩
    · exact setClock_not_mem_xact (exchangesOf_query _ _ _) x
    · exact setClock_not_mem_xact (exchangesOf_discards _) x

theorem exec_clkHz {i : Instr} {s t : State} (hi : i ≠ .init) (e : exec i s = .next t) :
    t.seq.clkHz = s.seq.clkHz := by
  rcases instr_kinds i s with ⟨-, u, g, cs, ho⟩ | ⟨-, bytes, hb⟩ | rfl | rfl | rfl
  · rw [exec_opening ho] at e
    obtain ⟨-, -, -, -, -, -, -, -, f9, -⟩ := opening_frame ho
    have h0 : (u.begin g cs).ClockKept s.seq.clkHz := by
      refine ⟨f9, ?_⟩
      intro g' cs' kept x hp
      cases hp
      exact opening_setClock ho hi x
    exact (serve_keeps (fun _ h => h.callStep) h0 e).1
  · rw [exec_wire hb] at e
    obtain ⟨-, hs, -⟩ := wireStep_frame e
    rw [hs]
  all_goals cases e

/-- A step that is not INIT's, from the request or from inside it, leaves the clock. -/
theorem step_clkHz {s t : State} (e : step s = .next t) (hp : s.seq.pc ≠ .initStart)
    (hq : ∀ p rest, s.requests = p :: rest → decode s.cfg p ≠ .ok .init)
    (hc : ∀ g rest kept hz, s.seq.pc = .running g rest kept → .setClock hz ∉ rest) :
    t.seq.clkHz = s.seq.clkHz := by
  rcases step_cases e with ⟨-, e⟩ | ⟨-, hp', -⟩ | ⟨g, cs, kept, -, -, e⟩ | ⟨-, -, -, rfl⟩ |
    ⟨p, rest, i, -, -, hr, hd, e⟩ | ⟨bytes, rest, why, -, -, -, -, e⟩
  · obtain ⟨rfl, -⟩ := State.finish_next e
    rfl
  · exact absurd hp' hp
  · exact (resume_next (P := State.ClockKept s.seq.clkHz) (fun _ h => h.callStep) ⟨rfl, hc⟩ e).1
  · rfl
  · rw [exec_clkHz (by rintro rfl; exact hq p rest hr hd) e, State.takePacket_seq_clkHz]
  · obtain ⟨-, hs, -⟩ := wireStep_frame e
    rw [hs, State.takePacket_seq_clkHz]

/-- Settles O60: the constants through every call, the clock through every call but `SetClock`. -/
theorem constantsNeverChange : Obligations.ConstantsNeverChange := by
  intro s t e
  obtain ⟨h1, h2, h3⟩ := step_steady steady_const (fun s => by simp) e
  exact ⟨h1, h2, h3, step_clkHz e⟩

/-! ### The memories, through an instruction -/

theorem State.performAll_wake_tame {P : Tgt → Prop} {s : State} (h : Tame s.cfg [] P) (hP : P s.tgt) :
    P (s.performAll (wakeCalls s.cfg)).1.tgt := by
  have h0 : P (s.csAssert.delay s.cfg.tWakePulse).tgt := by
    show P (if s.reaches then s.tgt.tick s.cfg else s.tgt)
    split
    · exact h.tick _ hP
    · exact hP
  show P (s.csAssert.delay s.cfg.tWakePulse).csDeassert.tgt
  rw [State.csDeassert_tgt]
  rcases (s.csAssert.delay s.cfg.tWakePulse).edge_cases with e | e <;> rw [e]
  · exact h.latch _ h0
  · exact h0

/-- INIT's first calls, chip-select high: its `CS1` is no edge, and the identifier read is one
transaction. -/
theorem State.performAll_init_tame {P : Tgt → Prop} {s : State} (hcs : s.seq.cs = true)
    (h : Tame s.cfg (queryBytes s.cfg s.cfg.opcIdRead 3) P) (hP : P s.tgt) :
    P (s.performAll (initCalls s.cfg)).1.tgt := by
  rw [State.performAll_init, State.csDeassert_high hcs]
  exact State.performAll_tame (exchangesOf_query _ _ 3) h hP

/-- A raw transaction keeps what its bytes keep, and, the pulse, what the wake keeps. -/
theorem wireStep_tame {P : Tgt → Prop} {s t : State} {bytes : List Byte} (h : Tame s.cfg bytes P)
    (hw : bytes = [] → ∀ u : Tgt, P u → P u.settle) (hP : P s.tgt) (e : wireStep s bytes = .next t) :
    P t.tgt := by
  rcases wireStep_next e with ⟨-, rfl⟩ | ⟨i, -, hv, rfl⟩
  · exact hP
  · have hx : P (Tgt.exchanges s.cfg [] bytes (s.tgt.tick s.cfg)).1 :=
      Tgt.exchanges_induct _ _ _ (h.tick _ hP) fun pre post tx u e hu => h.kept.exchange pre post tx u e hu
    have hl := h.latch _ hx
    rw [Tgt.latch_ok hv] at hl
    dsimp only
    split
    · next hb => exact hw hb _ hl
    · exact hl

/-- An operation that ends in no wake keeps what its first piece and the two transactions of
SETBINARYPAGESIZE keep. -/
theorem serve_tame {P : Tgt → Prop} {s t : State} {g : Stage} {cs : List Call} (hne : cs ≠ [])
    (hr : s.resetIn = none) (hg : g ≠ .exitUdpd)
    (hs : Tame s.cfg (queryBytes s.cfg s.cfg.opcStatusRead 2) P) (hp : Tame s.cfg (pageSizeBytes s.cfg) P)
    (h : P (s.performAll cs).1.tgt) (e : s.serve g cs = .next t) : P t.tgt := by
  obtain ⟨rfl, -⟩ := State.finish_next e
  exact State.carryOn_tgt 3 hne hr hg hs hp h

/-- The instructions that are not one transaction, and the wake. -/
theorem transactionOf_none {cfg : Config} {pw bw : Bool} {i : Instr} (h : transactionOf cfg pw bw i = none) :
    i = .init ∨ i = .setBinaryPageSize ∨ i = .exitUdpd ∨ i = .reserved13 ∨ i = .reserved14 ∨
      i = .reserved15 := by
  cases i <;> cases h <;> simp

theorem transactionOf_wake {cfg : Config} {pw bw : Bool} {i : Instr} {bytes : List Byte}
    (h : transactionOf cfg pw bw i = some (.wWake, bytes)) : i = .wWake := by
  cases i <;> cases pw <;> cases bw <;> cases h <;> rfl

theorem stage_of_exitUdpd {i : Instr} {s u : State} {cs : List Call}
    (h : opening i s = some (u, .exitUdpd, cs)) : i = .exitUdpd := by
  cases i <;> cases h; rfl

/-- What an instruction keeps of the target, if no reset strikes and no cut transaction waits for its
`CS1`: whatever the wire commands `Q` do not touch, those it is made of among them. `Q` has the three
commands INIT and SETBINARYPAGESIZE send. -/
theorem exec_tame {P : Tgt → Prop} {Q : Instr → Prop} {i : Instr} {s t : State} (hw : s.cfg.wf = true)
    (hr : s.resetIn = none) (hcs : s.seq.cs = true)
    (hT : ∀ bytes j, decodeWire s.cfg bytes = .ok j → Q j → Tame s.cfg bytes P)
    (hQ : Q .wStatus ∧ Q .wId ∧ Q .wPsz)
    (hi : ∀ j bytes, transactionOf s.cfg s.seq.pwSel s.seq.bwSel i = some (j, bytes) → Q j)
    (hwake : i = .exitUdpd ∨ i = .wWake → Q .wWake ∧ ∀ u : Tgt, P u → P u.settle)
    (hP : P s.tgt) (e : exec i s = .next t) : P t.tgt := by
  obtain ⟨qs, qi, qp⟩ := hQ
  have hs := hT _ _ (decodeWire_statusQuery s.cfg) qs
  have hid := hT _ _ (decodeWire_idQuery hw) qi
  have hp := hT _ _ (decodeWire_psz hw) qp
  cases ht : transactionOf s.cfg s.seq.pwSel s.seq.bwSel i with
  | some x =>
    obtain ⟨j, bytes⟩ := x
    have hd := transactionOf_decode hw ht
    have hb := hT bytes j hd (hi j bytes ht)
    rcases transactionOf_exec ht with ⟨u, g, mid, ho, hm, -⟩ | ew
    · obtain ⟨f1, f2, -, -, -, f6, -⟩ := opening_frame ho
      rw [exec_opening ho] at e
      refine serve_tame (by simp) (f6.trans hr) ?_ (by rwa [f1]) (by rwa [f1])
        (State.performAll_tame hm (by rwa [f1]) (by rwa [f2])) e
      rintro rfl
      cases stage_of_exitUdpd ho
      cases ht
    · rw [ew] at e
      refine wireStep_tame hb (fun h => ?_) hP e
      subst h
      cases hd
      exact (hwake (.inr (transactionOf_wake ht))).2
  | none =>
    rcases transactionOf_none ht with rfl | rfl | rfl | rfl | rfl | rfl
    · exact serve_tame (s := s.resetRegs) (by simp) hr (by simp) hs hp
        (State.performAll_init_tame (s := s.resetRegs) hcs hid hP) e
    · exact serve_tame (by simp) hr (by simp) hs hp
        (State.performAll_tame (exchangesOf_query _ _ 2) hs hP) e
    · obtain ⟨hq, hset⟩ := hwake (.inl rfl)
      have h := State.performAll_wake_tame (hT [] _ rfl hq) hP
      rw [show exec .exitUdpd s = s.serve .exitUdpd (wakeCalls s.cfg) from rfl,
        State.serve_piece (by simp) hr rfl] at e
      obtain ⟨rfl, -⟩ := State.finish_next e
      rw [State.endStage_tgt, if_pos rfl]
      show P (if _ then _ else _)
      split
      · exact hset _ h
      · exact h
    all_goals cases e

/-- The main array is `m`, and no busy window but that of the page-size switch is open. -/
def Tgt.MainKept (m : Memory) (t : Tgt) : Prop :=
  t.main = m ∧ (t.mode = .busy → t.pending = some .nvcfg)

theorem Tgt.MainKept.tick {m : Memory} {t : Tgt} (h : t.MainKept m) (cfg : Config) :
    (t.tick cfg).MainKept m := by
  rcases t.tick_cases cfg with ⟨e, -⟩ | ⟨hb, -, e⟩ | ⟨n, -, -, e⟩ <;> rw [e]
  · exact h
  · refine ⟨?_, fun hm => by cases hm⟩
    rw [Tgt.complete, h.2 hb]
    exact h.1
  · exact h

theorem Tgt.MainKept.commit {m : Memory} {t : Tgt} (h : t.MainKept m) (cfg : Config) {i : Instr}
    (hi : i.rewrites = none) : (t.commit cfg i).MainKept m := by
  refine ⟨(t.commit_main cfg hi).trans h.1, ?_⟩
  cases i with
  | wPsz => exact fun _ => rfl
  | wUdpd => exact fun hm => Mode.noConfusion hm
  | wProg1 => cases hi
  | wProg2 => cases hi
  | wB2m1 => cases hi
  | wB2m2 => cases hi
  | wErase => cases hi
  | _ => exact h.2

/-- The transactions that neither program nor erase keep the main array. -/
theorem Tgt.MainKept.tame {cfg : Config} {bytes : List Byte} {j : Instr} (m : Memory)
    (hd : decodeWire cfg bytes = .ok j) (hj : j.rewrites = none) : Tame cfg bytes (Tgt.MainKept m) where
  kept :=
    { free := fun _ _ h => h
      exchange := fun pre _ tx t _ h =>
        t.exchange_keeps cfg pre tx h (fun _ h => h) (h.tick cfg) fun _ _ _ _ _ _ _ => by
          simpa [Tgt.MainKept] using h }
  tick t h := h.tick cfg
  latch t h := by
    rcases t.latch_cases cfg bytes with ⟨i, hv, e⟩ | ⟨f, -, e⟩ <;> rw [e]
    · obtain ⟨hi, -⟩ := Tgt.verdict_decode hv
      rw [hd] at hi
      cases hi
      exact h.commit cfg hj
    · exact h

/-- A transaction that begins with one of the four load opcodes is a load, if it is a command. -/
theorem load_of_opcode {cfg : Config} (hw : cfg.wf = true) {op : Byte} {args : List Byte} {j : Instr}
    (ho : op = cfg.opcProgB1 ∨ op = cfg.opcProgB2 ∨ op = cfg.opcBufwB1 ∨ op = cfg.opcBufwB2)
    (hd : decodeWire cfg (op :: args) = .ok j) : Instr.load? j ≠ none := by
  have hn := Config.opcodes_apart hw
  simp [Config.firstBytes] at hn
  rcases ho with rfl | rfl | rfl | rfl <;> simp [decodeWire, hn] at hd <;>
    obtain ⟨a, d, -, h⟩ := withAddr_ok hd <;> cases h <;> exact Option.some_ne_none _

/-- Both buffers are as they were. -/
def Tgt.BuffersKept (b1 b2 : Memory) (t : Tgt) : Prop := t.buf1 = b1 ∧ t.buf2 = b2

/-- The transactions that load no buffer keep both: no part of one is a load. -/
theorem Tgt.BuffersKept.tame {cfg : Config} (hw : cfg.wf = true) {bytes : List Byte} {j : Instr}
    (b1 b2 : Memory) (hd : decodeWire cfg bytes = .ok j) (hj : Instr.load? j = none) :
    Tame cfg bytes (Tgt.BuffersKept b1 b2) where
  kept :=
    { free := fun _ _ h => h
      exchange := fun pre post tx t hb h => by
        have ht : (t.tick cfg).BuffersKept b1 b2 := by simpa [Tgt.BuffersKept] using h
        refine t.exchange_keeps cfg pre tx h (fun _ h => h) ht fun i b a d _ hi hl => ?_
        cases pre with
        | nil => cases hi; cases hl
        | cons op args =>
          subst hb
          exact absurd hj (load_of_opcode hw (decodeWire_load hi hl) hd) }
  tick t h := by simpa [Tgt.BuffersKept] using h
  latch t h := ⟨(t.latch_buffers cfg bytes).1.trans h.1, (t.latch_buffers cfg bytes).2.trans h.2⟩

/-- The command of an instruction programs or erases only if the instruction does. -/
theorem transactionOf_rewrites {cfg : Config} {pw bw : Bool} {i j : Instr} {bytes : List Byte}
    (h : transactionOf cfg pw bw i = some (j, bytes)) (hi : i.rewrites = none) : j.rewrites = none := by
  cases i <;> cases h <;> first | rfl | (cases bw <;> rfl) | cases hi

/-- The command of an instruction loads a buffer only if the instruction changes one. -/
theorem transactionOf_load {cfg : Config} {pw bw : Bool} {i j : Instr} {bytes : List Byte}
    (h : transactionOf cfg pw bw i = some (j, bytes)) (hi : i.changesBuffers = false) :
    Instr.load? j = none := by
  cases i <;> cases h <;> first | rfl | (cases bw <;> rfl) | cases hi

/-- Settles O31: the instruction's transactions keep the array, and those of one that loads nothing keep
the buffers. -/
theorem otherInstructionsLeaveTheMemories : Obligations.OtherInstructionsLeaveTheMemories := by
  intro i s t hw hr hcs e
  refine ⟨fun hi hm => ?_, fun hi => ?_⟩
  · refine And.left (exec_tame (P := Tgt.MainKept s.tgt.main) (Q := fun j => j.rewrites = none) hw hr hcs
      (fun _ _ hd hj => Tgt.MainKept.tame _ hd hj) ⟨rfl, rfl, rfl⟩
      (fun _ _ h => transactionOf_rewrites h hi) (fun _ => ⟨rfl, fun u hu => ?_⟩)
      ⟨rfl, fun hb => absurd hb hm⟩ e)
    rcases u.settle_cases with ⟨-, e⟩ | ⟨-, e⟩ <;> rw [e]
    · exact ⟨hu.1, fun hb => by cases hb⟩
    · exact hu
  · refine exec_tame (P := Tgt.BuffersKept s.tgt.buf1 s.tgt.buf2) (Q := fun j => Instr.load? j = none)
      hw hr hcs (fun _ _ hd hj => Tgt.BuffersKept.tame hw _ _ hd hj) ⟨rfl, rfl, rfl⟩
      (fun _ _ h => transactionOf_load h hi) ?_ ⟨rfl, rfl⟩ e
    rintro (rfl | rfl) <;> cases hi

end Sys2Proof.Machine
end

section
/-! PROOFS. The statements of spec/20_memory.md's family: a page read inside its page, and after a program. -/

namespace Sys2Proof.Machine

/-! ### A page read as its calls -/

/-- READPAGE is its calls and the return of zero (43_page_read.md R130). -/
theorem exec_readPage {s : State} (hr : s.resetIn = none) (a : Addr) (size : Nat) :
    exec (.readPage a size) s = ((s.performAll (readCalls s.cfg a size)).1.respond 0).finish :=
  State.serve_piece (by simp) hr rfl

/-- The calls of a page read of a target that is ready for the page. -/
theorem State.performAll_read_ready {s : State} (hu : s.Undisturbed) {a : Addr} (hp : s.PageReady a)
    (size : Nat) :
    let got := Draws.fill ((List.range size).map (s.tgt.pageCell a)) s.tgt.free
    s.performAll (readCalls s.cfg a size) = ({ s with
      tgt := { s.tgt with free := got.2 }
      shifted := []
      seq := { s.seq with
        trace := s.seq.trace ++ .cs0 :: ((readHeader s.cfg a).map (fun b => .x b none) ++
          got.1.map (fun b => .x s.cfg.dummy (some b)) ++ [.cs1])
        cs := true
        hostBuf := got.1 ++ s.seq.hostBuf.drop size } }, []) :=
  State.performAll_read hu.reaches hu.cfgWf a hp.idle (fun _ => Tgt.pageCheck_ready hp s.tgt rfl) size

/-- On such a target a page read is carried out. -/
theorem exec_readPage_ready {s : State} (hu : s.Undisturbed) {a : Addr} (hp : s.PageReady a) (size : Nat) :
    exec (.readPage a size) s = .next ((s.performAll (readCalls s.cfg a size)).1.respond 0) := by
  rw [exec_readPage hu.noReset, State.finish_of_ok]
  rw [State.performAll_read_ready hu hp]
  exact hu.noFault

/-! ### A page that holds bytes -/

/-- The cells a page read answers, where the page holds bytes: the wrap of 20_memory.md R53. -/
theorem Tgt.pageCell_content {t : Tgt} {a : Addr} {content : Nat → Byte}
    (h : ∀ j < 512, t.main.read (page a * 512 + j) = some (content j)) (i : Nat) :
    t.pageCell a i = some (content ((off a + i) % 512)) :=
  h _ (Nat.mod_lt _ (by decide))

/-- What a page read of bytes stores, none of them drawn. -/
theorem Draws.fill_content {t : Tgt} {a : Addr} {content : Nat → Byte}
    (h : ∀ j < 512, t.main.read (page a * 512 + j) = some (content j)) (size : Nat) (d : Draws) :
    Draws.fill ((List.range size).map (t.pageCell a)) d =
      ((List.range size).map fun i => content ((off a + i) % 512), d) := by
  have hc : (List.range size).map (t.pageCell a) =
      ((List.range size).map fun i => content ((off a + i) % 512)).map some := by
    rw [List.map_map]
    exact List.map_congr_left fun i _ => Tgt.pageCell_content h i
  rw [hc, Draws.fill_map_some]

/-- Settles O24: the cells answered are all bytes, so nothing is drawn, and they are stored in order. -/
theorem readPageWrapsInsideThePage : Obligations.ReadPageWrapsInsideThePage := by
  intro s a size content hu hp h
  refine ⟨_, exec_readPage_ready hu hp size, ?_⟩
  rw [State.performAll_read_ready hu hp, Draws.fill_content h]
  refine ⟨rfl, fun i hi => ?_, fun i hi => ?_⟩
  · show (_ ++ _)[i]? = _
    rw [List.getElem?_append_left (by simpa using hi)]
    simp [hi]
  · show (_ ++ _)[i]? = _
    rw [List.getElem?_append_right (by simpa using hi), List.getElem?_drop]
    simp [Nat.add_sub_cancel' hi]

/-! ### A completion before the read -/

/-- The state after one opportunity for TGT-COMPLETE (47_target.md R182). -/
def State.ticked (s : State) : State := { s with tgt := s.tgt.tick s.cfg }

@[simp] theorem State.ticked_cfg (s : State) : s.ticked.cfg = s.cfg := rfl
@[simp] theorem State.ticked_tgt (s : State) : s.ticked.tgt = s.tgt.tick s.cfg := rfl

/-- A busy window that the assert of chip-select ends may as well have ended before it. -/
theorem State.csAssert_ticked {s : State} (h : s.reaches = true)
    (hm : (s.tgt.tick s.cfg).mode = .idle) : s.ticked.csAssert = s.csAssert := by
  rw [State.csAssert_reached h, State.csAssert_reached (s := s.ticked) h, State.ticked_cfg,
    State.ticked_tgt, Tgt.tick_of_idle _ _ hm]
  rfl

/-- So a page read does not tell the two apart. -/
theorem exec_readPage_ticked {s : State} (hu : s.Undisturbed) (hm : (s.tgt.tick s.cfg).mode = .idle)
    (a : Addr) (size : Nat) : exec (.readPage a size) s.ticked = exec (.readPage a size) s := by
  rw [exec_readPage hu.noReset, exec_readPage (s := s.ticked) hu.noReset, State.ticked_cfg, readCalls,
    State.performAll_xactCalls, State.performAll_xactCalls, State.csAssert_ticked hu.reaches hm]

/-- The opportunity at which a successful program of a clean page ends (R182): the page holds the buffer. -/
theorem Tgt.tick_programmed {cfg : Config} {t : Tgt} {p : Nat} {b : BufId} (hm : t.mode = .busy)
    (hp : t.pending = some (.prog p b true)) (hf : t.fate = ⟨some 0, true⟩) :
    t.tick cfg = { t with
      mode := .idle
      pending := none
      main := t.main.copy (pageBase p) Config.pageSize (t.buf b)
      epe := false } := by
  simp [Tgt.tick, Tgt.complete, Tgt.completeProg, hm, hp, hf]

/-- Settles O41: the read is one of the target after the completion, whose page is the buffer's copy. -/
theorem readAfterProgramReturnsTheBuffer : Obligations.ReadAfterProgramReturnsTheBuffer := by
  intro s a size b content hu hm hpend hf hb hpage h
  have ht := Tgt.tick_programmed (cfg := s.cfg) hm hpend hf
  have hidle : (s.tgt.tick s.cfg).mode = .idle := by rw [ht]
  have hready : s.ticked.PageReady a := ⟨hidle, by rw [State.ticked_tgt, ht]; exact hb, hpage⟩
  have hcells : ∀ j < 512, s.ticked.tgt.main.read (page a * 512 + j) = some (content j) := by
    intro j hj
    rw [State.ticked_tgt, ht, ← h j hj]
    show Memory.read (Memory.copy _ (page a * 512) 512 _) _ = _
    rw [Memory.read_copy, if_pos (by omega), Nat.add_sub_cancel_left]
  obtain ⟨t, he, htgt, hbytes, -⟩ := readPageWrapsInsideThePage s.ticked a size content
    ⟨hu.cfgWf, hu.chip, hu.noReset, hu.noFault⟩ hready hcells
  refine ⟨t, exec_readPage_ticked hu hidle a size ▸ he, ?_, hbytes⟩
  rw [htgt, State.ticked_tgt, ht]

end Sys2Proof.Machine
end

section
/-! PROOFS. The statements of spec/30_encoding.md's family: the round trip of the two encodings, the words written
out, the reserved op-select codes, and the offset of WRITEBUFFER. -/

namespace Sys2Proof.Laws.RoundTrip

/-- The round trip of every instruction: one arm a constructor, as the encoder has it. -/
theorem decode_encode : ∀ i : Instr, Statement i
  | .init => init
  | .getStatus => getStatus
  | .getId => getId
  | .readPage a size => readPage a size
  | .writePage a data => writePage a data
  | .writeBuffer o data => writeBuffer o data
  | .bufferToMemory a => bufferToMemory a
  | .erasePage a => erasePage a
  | .isReady => isReady
  | .isErrorFlagged => isErrorFlagged
  | .setBinaryPageSize => setBinaryPageSize
  | .enterUdpd => enterUdpd
  | .exitUdpd => exitUdpd
  | .reserved13 => reserved13
  | .reserved14 => reserved14
  | .reserved15 => reserved15
  | .wStatus => wStatus
  | .wId => wId
  | .wPsz => wPsz
  | .wRead a n => wRead a n
  | .wProg1 a data => wProg1 a data
  | .wProg2 a data => wProg2 a data
  | .wBufw1 a data => wBufw1 a data
  | .wBufw2 a data => wBufw2 a data
  | .wB2m1 a => wB2m1 a
  | .wB2m2 a => wB2m2 a
  | .wErase a => wErase a
  | .wUdpd => wUdpd
  | .wWake => wWake

end Sys2Proof.Laws.RoundTrip

namespace Sys2Proof

/-! ### The two encodings -/

/-- Settles O2: host requests come back by the fields of a format H word, wire commands by their first byte,
which R3's constraint keeps apart, and by their length. -/
theorem decodeOfEncodeIsTheInstruction : Obligations.DecodeOfEncodeIsTheInstruction :=
  fun cfg i hw hi => Laws.RoundTrip.decode_encode i cfg hw hi

/-- Settles O1: each word is a closed term, which the decoder evaluates. -/
theorem writtenWordsDecode : Obligations.WrittenWordsDecode := by
  unfold Obligations.WrittenWordsDecode
  decide

/-! ### The offset of WRITEBUFFER on the wire -/

/-- The address bytes of a zero-extended offset (30_encoding.md R82): nothing, bit 8, and bits 7:0. -/
theorem addrBytes_offsetAddr (o : Offset) :
    addrBytes (offsetAddr o) = [0x00, (o.extractLsb' 8 1).setWidth 8, o.extractLsb' 0 8] := by
  have h := o.isLt
  have high : (offsetAddr o).extractLsb' 16 8 = 0x00 := by
    apply BitVec.eq_of_toNat_eq
    simp [offsetAddr]; omega
  have middle : (offsetAddr o).extractLsb' 8 8 = (o.extractLsb' 8 1).setWidth 8 := by
    apply BitVec.eq_of_toNat_eq
    simp [offsetAddr]; omega
  have low : (offsetAddr o).extractLsb' 0 8 = o.extractLsb' 0 8 := by
    apply BitVec.eq_of_toNat_eq
    simp [offsetAddr]
  rw [addrBytes, high, middle, low]

end Sys2Proof

namespace Sys2Proof.Machine

/-- The `CS1` of a buffer load does nothing more (47_target.md R177). -/
theorem Tgt.commit_bufw (t : Tgt) (cfg : Config) (b : Bool) (a : Addr) (data : List Byte) :
    t.commit cfg (if b then .wBufw2 a data else .wBufw1 a data) = t := by
  cases b <;> rfl

/-- An idle binary target takes a buffer load, at any address (47_target.md R170, R177). -/
theorem Tgt.verdict_bufw {cfg : Config} (hw : cfg.wf = true) {t : Tgt} (hm : t.mode = .idle)
    (hb : t.nvBinary = true) (b : Bool) (a : Addr) (data : List Byte) :
    t.verdict cfg (addrHeader (bufwOpcode cfg b) a ++ data) =
      .ok (if b then .wBufw2 a data else .wBufw1 a data) := by
  refine Tgt.verdict_idle (decodeWire_bufw hw b a data) hm ?_
  cases b <;> simp [Tgt.check, hb]

/-- WRITEBUFFER on an idle binary target: one transaction, which loads the buffer the flag selects. -/
theorem exec_writeBuffer_idle {s : State} (hu : s.Undisturbed) (hm : s.tgt.mode = .idle)
    (hb : s.tgt.nvBinary = true) (o : Offset) (data : List Byte) :
    exec (.writeBuffer o data) s = .next (s.served
      (sentEvents (addrHeader (bufwOpcode s.cfg s.seq.bwSel) (offsetAddr o) ++ data)) 0
      (s.tgt.loadBuffer (selBuf s.seq.bwSel) (offsetAddr o) data)) := by
  have h := State.serve_send hu (g := .writeBuffer) (fun _ _ => rfl)
    (State.exchanges_bufw hu.cfgWf hm hb (offsetAddr o) s.seq.bwSel data)
    (Tgt.verdict_bufw hu.cfgWf (by simpa using hm) (by simpa using hb) _ _ _)
  rwa [Tgt.commit_bufw] at h

/-- Settles O27: the transaction of `exec_writeBuffer_idle`, its address bytes those of R82; a buffer load keeps
the mode and the main array. -/
theorem writeBufferLoadsAndNothingElse : Obligations.WriteBufferLoadsAndNothingElse := by
  intro s o data hu hm hb
  refine ⟨?_, by simpa using hm, by simp⟩
  have h := exec_writeBuffer_idle hu hm hb o data
  rw [addrHeader, addrBytes_offsetAddr] at h
  exact h

/-! ### The reserved op-select codes -/

/-- A word whose code is 13, 14 or 15 decodes, whatever its other fields, to an instruction that every state
refuses with that code (30_encoding.md R87). -/
theorem decodeHost_reserved {cfg : Config} {word : Nat} (data : List Byte)
    (hw : word < 2 ^ (28 + cfg.sizeW)) (hop : 13 ≤ word % 16) :
    ∃ i, decodeHost cfg word data = .ok i ∧
      ∀ s, exec i s = .refused (.reservedOpSelect (BitVec.ofNat 4 word)) := by
  have code : ∀ {k}, word % 16 = k → BitVec.ofNat 4 word = BitVec.ofNat 4 k := fun h => by
    apply BitVec.eq_of_toNat_eq
    simp [← h]
  obtain h | h | h : word % 16 = 13 ∨ word % 16 = 14 ∨ word % 16 = 15 := by omega
  · exact ⟨.reserved13, by simp only [decodeHost, if_pos hw, h], fun _ => by rw [code h]; rfl⟩
  · exact ⟨.reserved14, by simp only [decodeHost, if_pos hw, h], fun _ => by rw [code h]; rfl⟩
  · exact ⟨.reserved15, by simp only [decodeHost, if_pos hw, h], fun _ => by rw [code h]; rfl⟩

/-- Settles O7: the three instructions have no other meaning, and a step of an idle SEQ runs the one its next
word decodes to. -/
theorem reservedCodesAreRefused : Obligations.ReservedCodesAreRefused := by
  refine ⟨fun s => ⟨rfl, rfl, rfl⟩, fun s word data rest h0 hp hq hw hop => ?_⟩
  obtain ⟨i, hd, hi⟩ := decodeHost_reserved data hw hop
  obtain ⟨runs, -⟩ := stepRunsTheDecodedInstruction s rest i h0 hp
  rw [runs word data hq hd, hi]

end Sys2Proof.Machine
end

section
/-! PROOFS. The statements of spec/40_init.md's family: INIT against an idle chip, chip-select high before. -/

namespace Sys2Proof.Machine

/-! ### INIT's identifier check -/

/-- After INIT's identifier read and a check that lets it go on (40_init.md R101). -/
def State.identified (s : State) : State :=
  s.initRead.cacheId (if s.tgt.devId = 0x1F2600 then 0x001F2600 else 0)

theorem exec_init_identified {s : State} (h : s.Undisturbed) (hcs : s.seq.cs = true)
    (hm : s.tgt.mode = .idle) (hid : s.tgt.devId = 0x1F2600 ∨ s.cfg.initCfgOnIdMismatch = true) :
    exec .init s =
      ((s.identified.begin .initStatus (statusCalls s.identified.cfg)).carryOn 2).finish :=
  exec_init_status h hcs hm hid

/-- What follows the identifier read where a mismatch ends INIT (40_init.md R101, 92_eei_decisions.md D9). -/
theorem State.endStage_initIdent_mismatch {s : State} (t : Tgt) (hid : t.devId ≠ 0x1F2600)
    (hp : s.cfg.initCfgOnIdMismatch = false) :
    s.endStage .initIdent t.idBytes = (s.cacheId 0).respond 0 := by
  simp only [State.endStage, Tgt.idBytes, identOf_devId, expectedId_iff, if_neg hid]
  exact if_neg (by simp [hp])

/-- INIT that a mismatch ends is its first piece. -/
theorem exec_init_mismatch {s : State} (h : s.Undisturbed) (hcs : s.seq.cs = true)
    (hm : s.tgt.mode = .idle) (hid : s.tgt.devId ≠ 0x1F2600) (hp : s.cfg.initCfgOnIdMismatch = false) :
    exec .init s = .next ((s.initRead.cacheId 0).respond 0) := by
  have he : (s.resetRegs.performAll (initCalls s.cfg)).1.endStage .initIdent
      (s.resetRegs.performAll (initCalls s.cfg)).2 = (s.initRead.cacheId 0).respond 0 := by
    rw [State.performAll_initRead h hcs hm]
    exact State.endStage_initIdent_mismatch s.tgt hid hp
  rw [exec_opening (i := .init) rfl,
    State.serve_piece (s := s.resetRegs) (by simp) h.noReset (by rw [he]; rfl)]
  exact State.finish_eq (by rw [he]; exact h.noFault) he

/-! ### INIT's own status read -/

/-- Of a binary chip: INIT returns (40_init.md R100). -/
theorem State.carryOn_initStatus_binary {s : State} (hr : s.reaches = true) (hn : s.resetIn = none)
    (hm : s.tgt.mode = .idle) (hb : s.tgt.nvBinary = true) (n : Nat) :
    (s.begin .initStatus (statusCalls s.cfg)).carryOn n = s.statusRead.respond 0 := by
  refine State.carryOn_last (by simp) hn n ?_ rfl
  rw [State.performAll_status_idle hr hm]
  simp only [State.endStage, binary_statusOf, Tgt.byte1_binary, hb, if_true]

/-- Of a native chip: SETBINARYPAGESIZE's own status read is next (40_init.md R100, 92_eei_decisions.md D10). -/
theorem State.carryOn_initStatus_native {s : State} (hr : s.reaches = true) (hn : s.resetIn = none)
    (hm : s.tgt.mode = .idle) (hb : s.tgt.nvBinary = false) (n : Nat) :
    (s.begin .initStatus (statusCalls s.cfg)).carryOn (n + 1) =
      (s.statusRead.begin (.sizeCheck .init) (statusCalls s.statusRead.cfg)).carryOn n := by
  refine State.carryOn_next (by simp) hn n ?_ rfl
  rw [State.performAll_status_idle hr hm]
  simp only [State.endStage, binary_statusOf, Tgt.byte1_binary, hb]
  rfl

/-! ### The statements -/

/-- Settles O20: the identifier check lets INIT go on, and its status read of a binary chip ends it. -/
theorem initOfBinaryChip : Obligations.InitOfBinaryChip := by
  intro s h hcs hm hb hid
  have hr : s.identified.reaches = true := h.reaches
  rw [exec_init_identified h hcs hm hid, State.carryOn_initStatus_binary hr h.noReset hm hb]
  exact State.finish_of_ok h.noFault

/-- Settles O21: INIT's status read of a native chip leads to SETBINARYPAGESIZE, whose own leads to the one
switch and the poll loop. -/
theorem initOfNativeChipSwitchesOnce : Obligations.InitOfNativeChipSwitchesOnce := by
  intro s h hcs hm hb hl hid t u v
  have hr : s.identified.reaches = true := h.reaches
  rw [exec_init_identified h hcs hm hid, State.carryOn_initStatus_native hr h.noReset hm hb,
    State.carryOn_check (s := s.identified.statusRead) hr h.noReset h.cfgWf .init hm hb hl]
  exact State.finish_of_ok h.noFault

/-- Settles O22: the whole next state is that of `exec_init_mismatch`. -/
theorem initMayStopAtMismatch : Obligations.InitMayStopAtMismatch := by
  intro s h hcs hm hid hp
  exact ⟨_, exec_init_mismatch h hcs hm hid hp, rfl, rfl, rfl, rfl, rfl⟩

end Sys2Proof.Machine
end

section
/-! PROOFS. The statements of spec/41_status_id.md's family: what the status operations and the queries answer. -/

namespace Sys2Proof.Machine

/-! ### The values in the bytes received -/

/-- The status word in bits 15:0 of a value (41_status_id.md R110). -/
theorem statusWord_setWidth (b1 b2 : Byte) :
    (statusWord b1 b2).setWidth 32 = (b1.setWidth 32 <<< 8) ||| b2.setWidth 32 := by
  refine BitVec.eq_of_getLsbD_eq fun i hi => ?_
  simp only [statusWord, BitVec.getLsbD_or, BitVec.getLsbD_shiftLeft, BitVec.getLsbD_setWidth, hi]
  obtain h | h : i < 16 ∨ 16 ≤ i := by omega
  all_goals simp (disch := omega) [decide_eq_true, decide_eq_false, BitVec.getLsbD_of_ge]

/-- The identifier's assembly is the three bytes after a zero byte, most significant first. -/
theorem assembleId_eq_append (i0 i1 i2 : Byte) : assembleId i0 i1 i2 = (0 : Byte) ++ i0 ++ i1 ++ i2 := by
  refine BitVec.eq_of_getLsbD_eq fun i hi => ?_
  simp only [assembleId, BitVec.getLsbD_or, BitVec.getLsbD_shiftLeft, BitVec.getLsbD_setWidth,
    BitVec.getLsbD_append, hi]
  obtain h | h | h | h : i < 8 ∨ (8 ≤ i ∧ i < 16) ∨ (16 ≤ i ∧ i < 24) ∨ 24 ≤ i := by omega
  all_goals simp (disch := omega) [if_pos, if_neg, decide_eq_true, decide_eq_false, BitVec.getLsbD_of_ge,
    Nat.sub_sub]

theorem boolValue_eq_ite (b : Bool) : boolValue b = if b then 1 else 0 := by cases b <;> rfl

/-! ### The operations of one status read -/

/-- A piece that ends with a return of `f` of the two status bytes received. -/
def Stage.returnsOfStatus (g : Stage) (f : Byte → Byte → BitVec 32) : Prop :=
  ∀ (s : State) (b1 b2 : Byte), s.endStage g [b1, b2] = s.respond (f b1 b2)

/-- GETSTATUS returns the composite (R110). -/
theorem getStatus_returns :
    Stage.getStatus.returnsOfStatus fun b1 b2 => (b1.setWidth 32 <<< 8) ||| b2.setWidth 32 :=
  fun s b1 b2 => congrArg s.respond (statusWord_setWidth b1 b2)

/-- ISREADY returns bit 15 of the word, which is bit 7 of byte1 (R112). -/
theorem isReady_returns : Stage.isReady.returnsOfStatus fun b1 _ => if b1.getLsbD 7 then 1 else 0 :=
  fun s b1 b2 => congrArg s.respond (by rw [ready_statusOf, boolValue_eq_ite])

/-- ISERRORFLAGGED returns bit 5 of the word, which is bit 5 of byte2 (R113). -/
theorem isErrorFlagged_returns :
    Stage.isErrorFlagged.returnsOfStatus fun _ b2 => if b2.getLsbD 5 then 1 else 0 :=
  fun s b1 b2 => congrArg s.respond (by
    rw [show error (statusOf [b1, b2]) = _ from error_statusWord b1 b2, boolValue_eq_ite])

/-- Such an operation on a target that answers: the status read, and the value in its two bytes. -/
theorem State.serve_status {s : State} (hu : s.Undisturbed) (hm : s.tgt.mode = .idle ∨ s.tgt.mode = .busy)
    {g : Stage} {f : Byte → Byte → BitVec 32} (hg : g.returnsOfStatus f) :
    let t := s.tgt.tick s.cfg
    let u := t.drawn.tick s.cfg
    s.serve g (statusCalls s.cfg) =
      .next (s.served (statusEvents s.cfg t.byte1 u.byte2) (f t.byte1 u.byte2) u.drawn) := by
  intro t u
  have hp := State.performAll_status hu.reaches hm
  rw [State.serve_piece (by simp) hu.noReset (by rw [hp, hg]; rfl), hp, hg]
  exact State.finish_of_ok hu.noFault

/-- Settles O10: the three values of `State.serve_status`, whose bits 7 and 5 are the target's mode and flag. -/
theorem statusReadsReturnTheirPart : Obligations.StatusReadsReturnTheirPart := by
  intro s hu hm t u
  have hready := State.serve_status hu hm isReady_returns
  have herror := State.serve_status hu hm isErrorFlagged_returns
  simp only [Tgt.byte1_ready, decide_eq_true_eq] at hready
  simp only [Tgt.byte2_error] at herror
  exact ⟨State.serve_status hu hm getStatus_returns, hready, herror⟩

/-! ### SEQ's side of the queries, whatever the target does -/

/-- SEQ's side of an operation of one piece is that of its calls and of what follows them: a fault of the target
carries it too (60_exceptions.md R207). -/
theorem State.seqOf_serve {s : State} (hr : s.resetIn = none) {g : Stage} {cs : List Call} (hne : cs ≠ [])
    (h : ((s.performAll cs).1.endStage g (s.performAll cs).2).seq.pc = .idle) :
    seqOf (s.serve g cs) = some ((s.performAll cs).1.endStage g (s.performAll cs).2).seq := by
  rw [State.serve_piece hne hr (by rw [h]; rfl), State.seqOf_finish]

/-- An operation of one status read returns its function of the two bytes received. -/
theorem State.seqOf_serve_status {s : State} (hr : s.resetIn = none) {g : Stage}
    {f : Byte → Byte → BitVec 32} (hg : g.returnsOfStatus f) :
    ∃ b1 b2, seqOf (s.serve g (statusCalls s.cfg)) = some { s.seq with
      trace := s.seq.trace ++ statusEvents s.cfg b1 b2, cs := true, pc := .idle
      resp := some ⟨true, f b1 b2⟩ } := by
  obtain ⟨hl, hs⟩ := s.performAll_query_seq s.cfg s.cfg.opcStatusRead 2
  obtain ⟨b1, b2, hb⟩ := List.length_eq_two.1 hl
  refine ⟨b1, b2, ?_⟩
  have h := State.seqOf_serve (cs := statusCalls s.cfg) hr (by simp) (by rw [statusCalls, hb, hg]; rfl)
  rw [statusCalls, hb, hg, State.respond, hs, hb] at h
  exact h

/-- GETID caches and returns the identifier in the three bytes received (R111). -/
theorem seqOf_getId {s : State} (hr : s.resetIn = none) :
    ∃ i0 i1 i2, let id := assembleId i0 i1 i2
      seqOf (exec .getId s) = some { s.seq with
        trace := s.seq.trace ++ queryEvents s.cfg.opcIdRead s.cfg.dummy [i0, i1, i2]
        cs := true, pc := .idle, idCache := id, resp := some ⟨true, id⟩ } := by
  obtain ⟨hl, hs⟩ := s.performAll_query_seq s.cfg s.cfg.opcIdRead 3
  obtain ⟨i0, i1, i2, hb⟩ := List.length_eq_three.1 hl
  refine ⟨i0, i1, i2, ?_⟩
  have h := State.seqOf_serve (g := .getId) (cs := identCalls s.cfg) hr (by simp) rfl
  rw [identCalls, hb, State.endStage, State.respond, State.cacheId, hs, hb] at h
  exact h

/-- READPAGE stores the bytes received for its dummies (43_page_read.md R130). -/
theorem seqOf_readPage {s : State} (hr : s.resetIn = none) (a : Addr) (size : Nat) :
    ∃ rx : List Byte, rx.length = size ∧ seqOf (exec (.readPage a size) s) = some { s.seq with
      trace := s.seq.trace ++ .cs0 :: ((readHeader s.cfg a).map (fun b => .x b none) ++
        rx.map (fun b => .x s.cfg.dummy (some b)) ++ [.cs1])
      cs := true, pc := .idle, hostBuf := rx ++ s.seq.hostBuf.drop size, resp := some ⟨true, 0⟩ } := by
  obtain ⟨rx, hl, hs⟩ := s.performAll_read_seq s.cfg a size
  refine ⟨rx, hl, ?_⟩
  rw [exec_readPage hr, State.seqOf_finish, State.respond, hs]

/-- Settles O11, operation by operation: the target is not looked at. -/
theorem queriesReturnWhatTheyReceive : Obligations.QueriesReturnWhatTheyReceive := by
  intro s hr
  refine ⟨State.seqOf_serve_status hr getStatus_returns, State.seqOf_serve_status hr isReady_returns,
    State.seqOf_serve_status hr isErrorFlagged_returns, ?_, seqOf_readPage hr⟩
  obtain ⟨i0, i1, i2, h⟩ := seqOf_getId hr
  exact ⟨i0, i1, i2, by rwa [assembleId_eq_append] at h⟩

end Sys2Proof.Machine
end

section
/-! PROOFS. The statements of spec/42_page_size.md's family: SETBINARYPAGESIZE on an idle chip, and its poll
loop on a busy target, on a ready one, and on one that hangs. -/

namespace Sys2Proof.Machine

/-! ### SETBINARYPAGESIZE -/

/-- The first status read, of a binary chip: true at once (42_page_size.md R120). -/
theorem State.carryOn_check_binary {s : State} (hr : s.reaches = true) (hn : s.resetIn = none) (c : Caller)
    (hm : s.tgt.mode = .idle) (hb : s.tgt.nvBinary = true) (n : Nat) :
    (s.begin (.sizeCheck c) (statusCalls s.cfg)).carryOn n = s.statusRead.pageSizeReturn c true := by
  refine State.carryOn_last (by simp) hn n ?_ (by cases c <;> rfl)
  rw [State.performAll_status_idle hr hm]
  simp only [State.endStage, binary_statusOf, Tgt.byte1_binary, hb, if_true]

/-- Settles O14: the first status read tells the two chips apart; a binary one ends the operation, a native
one is switched. -/
theorem setBinaryReturnsAtOnceOrSwitches : Obligations.SetBinaryReturnsAtOnceOrSwitches := by
  intro s h hm u
  have hexec : exec .setBinaryPageSize s =
      ((s.begin (.sizeCheck .host) (statusCalls s.cfg)).carryOn 3).finish := exec_opening rfl
  refine ⟨fun hb => ?_, fun hb hl => ?_⟩
  · rw [hexec, State.carryOn_check_binary h.reaches h.noReset .host hm hb]
    exact State.finish_of_ok h.noFault
  · rw [hexec, State.carryOn_check h.reaches h.noReset h.cfgWf .host hm hb hl]
    exact State.finish_of_ok h.noFault

/-! ### One turn of the poll loop -/

/-- A poll's byte1 shows whether the target is ready: the re-check, or the next turn (R121). -/
theorem State.endStage_sizePoll (s : State) (c : Caller) (t : Tgt) (b2 : Byte) :
    s.endStage (.sizePoll c) [t.byte1, b2] =
      if t.mode = .idle then s.begin (.sizeRecheck c) (statusCalls s.cfg) else s.poll c := by
  simp only [State.endStage, ready_statusOf, Tgt.byte1_ready, decide_eq_true_eq]

/-! ### The poll loop, on a busy target -/

/-- A window still open after an opportunity for TGT-COMPLETE was open before it. -/
theorem Tgt.busy_of_tick {cfg : Config} {t : Tgt} (h : (t.tick cfg).mode = .busy) : t.mode = .busy := by
  rcases t.tick_mode cfg with e | ⟨e, -⟩
  · rw [← e, h]
  · exact e

/-- A turn of the loop that meets a busy target: its status read, and the start of the next turn. -/
theorem step_of_polling_busy {s : State} (h : s.Undisturbed) {c : Caller}
    (hp : s.seq.pc = .polling s.cfg c) (hm : (s.tgt.tick s.cfg).mode = .busy) :
    step s = .next ((s.performAll (statusCalls s.cfg)).1.poll c) := by
  have hread := State.performAll_status h.reaches (.inr (Tgt.busy_of_tick hm))
  have hend : (s.performAll (statusCalls s.cfg)).1.endStage (.sizePoll c)
      (s.performAll (statusCalls s.cfg)).2 = (s.performAll (statusCalls s.cfg)).1.poll c := by
    rw [hread, State.endStage_sizePoll, if_neg (by simp [hm])]
  rw [step_of_polling h.noReset hp, State.carryOn_last (by simp) h.noReset 3 hend rfl]
  refine State.finish_of_ok ?_
  rw [hread]
  exact h.noFault

/-- The next turn starts where this one did, with no response. -/
theorem State.poll_of_polling {s : State} {c : Caller} (hp : s.seq.pc = .polling s.cfg c) :
    s.poll c = { s with seq := { s.seq with resp := none } } := by
  rw [State.poll, State.begin, ← SeqPc.polling, ← hp]

/-- Settles O15: the status read of `step_of_polling_busy` written out, and the loop goes on. -/
theorem pollOfBusyTargetRepeats : Obligations.PollOfBusyTargetRepeats := by
  intro s c h hp hm t u
  rw [step_of_polling_busy h hp hm, State.performAll_status h.reaches (.inr (Tgt.busy_of_tick hm))]
  exact congrArg Host.Outcome.next (State.poll_of_polling hp)

/-! ### The poll loop, on a ready target -/

/-- A status read does not tell a busy window that its chip-select ends from one that has ended before. -/
theorem State.performAll_status_ticked {s : State} (h : s.reaches = true)
    (hm : (s.tgt.tick s.cfg).mode = .idle) :
    s.performAll (statusCalls s.cfg) =
      (s.ticked.statusRead, [s.ticked.tgt.byte1, s.ticked.tgt.drawn.byte2]) := by
  rw [← State.performAll_status_idle (s := s.ticked) h hm, State.ticked_cfg, statusCalls, queryCalls,
    State.performAll_xactCalls, State.performAll_xactCalls, State.csAssert_ticked h hm]

/-- The return of SETBINARYPAGESIZE is nothing to the target (40_init.md R102, R103). -/
@[simp] theorem State.pageSizeReturn_tgtFault (s : State) (c : Caller) (ok : Bool) :
    (s.pageSizeReturn c ok).tgtFault = s.tgtFault := by
  cases c <;> cases ok <;> rfl

/-- The last turn of the loop: two status reads of the target made ready, and the return to the caller. -/
theorem step_of_polling_ready {s : State} (h : s.Undisturbed) {c : Caller}
    (hp : s.seq.pc = .polling s.cfg c) (hm : (s.tgt.tick s.cfg).mode = .idle) :
    step s = .next (s.ticked.statusRead.statusRead.pageSizeReturn c (s.tgt.tick s.cfg).nvBinary) := by
  have hend : (s.performAll (statusCalls s.cfg)).1.endStage (.sizePoll c)
      (s.performAll (statusCalls s.cfg)).2 =
        s.ticked.statusRead.begin (.sizeRecheck c) (statusCalls s.ticked.statusRead.cfg) := by
    rw [State.performAll_status_ticked h.reaches hm, State.endStage_sizePoll]
    exact if_pos hm
  rw [step_of_polling h.noReset hp, State.carryOn_next (by simp) h.noReset 2 hend rfl,
    State.carryOn_recheck (s := s.ticked.statusRead) h.reaches h.noReset c hm]
  exact State.finish_of_ok ((State.pageSizeReturn_tgtFault _ c _).trans h.noFault)

/-- Two status reads and a return are an operation served. -/
theorem State.statusRead_twice_respond (s : State) (v : BitVec 32) :
    let w := s.tgt.drawn.drawn
    s.statusRead.statusRead.respond v = s.served
      (statusEvents s.cfg s.tgt.byte1 s.tgt.drawn.byte2 ++ statusEvents s.cfg w.byte1 w.drawn.byte2) v
      w.drawn.drawn := by
  simp [State.statusRead, State.respond, State.served]

/-- The return inside INIT: zero, and `ID_CACHE <- 0` unless the chip is binary (40_init.md R102). -/
theorem State.pageSizeReturn_init (s : State) (ok : Bool) :
    s.pageSizeReturn .init ok = (s.respond 0).cacheId (if ok then s.seq.idCache else 0) := by
  cases ok <;> rfl

/-- Settles O16: the return of `step_of_polling_ready`, for each caller. -/
theorem pollOfReadyTargetReturns : Obligations.PollOfReadyTargetReturns := by
  intro s c h hp hm t u v w es
  have hstep := step_of_polling_ready h hp hm
  have hserved := State.statusRead_twice_respond s.ticked
  refine ⟨?_, ?_⟩
  · rintro rfl
    rw [hstep, State.pageSizeReturn, boolValue_eq_ite, hserved]
    rfl
  · rintro rfl
    rw [hstep, State.pageSizeReturn_init, hserved]
    rfl

/-! ### The poll loop, on a target that hangs -/

/-- A window that never ends passes every opportunity (47_target.md R182, R189). -/
theorem Tgt.tick_of_hanging (cfg : Config) {t : Tgt} (h : t.fate.after = none) : t.tick cfg = t := by
  rcases t.tick_cases cfg with ⟨e, -⟩ | ⟨-, e, -⟩ | ⟨n, -, e, -⟩
  · exact e
  all_goals rw [h] at e; cases e

/-- SEQ is at the start of a turn of its poll loop, on a busy target whose window never ends. -/
structure State.PollsHanging (c : Caller) (s : State) : Prop where
  undisturbed : s.Undisturbed
  polling : s.seq.pc = .polling s.cfg c
  busy : s.tgt.mode = .busy
  hangs : s.tgt.fate.after = none

/-- Each turn of the loop on such a target is followed by another (42_page_size.md R121). -/
theorem State.PollsHanging.step {c : Caller} {s : State} (h : s.PollsHanging c) :
    ∃ t, step s = .next t ∧ t.cfg = s.cfg ∧ t.PollsHanging c := by
  have htick := Tgt.tick_of_hanging s.cfg h.hangs
  have hdrawn := Tgt.tick_of_hanging s.cfg (t := s.tgt.drawn) h.hangs
  have hstep := pollOfBusyTargetRepeats s c h.undisturbed h.polling (by rw [htick]; exact h.busy)
  simp only [htick, hdrawn] at hstep
  obtain ⟨hw, hc, hr, hf⟩ := h.undisturbed
  exact ⟨_, hstep, rfl, ⟨hw, hc, hr, hf⟩, h.polling, h.busy, h.hangs⟩

/-- Settles O18, by induction on the number of steps. -/
theorem pollNeverEndsOnHangingChip : Obligations.PollNeverEndsOnHangingChip := by
  intro s c k hu hp hm hf
  have h : s.PollsHanging c := ⟨hu, hp, hm, hf⟩
  clear hu hp hm hf
  induction k generalizing s with
  | zero => exact ⟨s, rfl, h.polling⟩
  | succ k ih =>
    obtain ⟨t, hstep, hcfg, ht⟩ := h.step
    rw [core_run_succ k hstep, ← hcfg]
    exact ih t ht

end Sys2Proof.Machine
end

section
/-! PROOFS. The statement of spec/43_page_read.md's family: the whole next state of a page read. -/

namespace Sys2Proof.Machine

/-- Settles O23: on a ready target the read is carried out (`exec_readPage_ready`), its calls leave the
state that `State.performAll_read_ready` writes out, and the return of zero makes of it the operation
served: only the host's buffer and the free values drawn are outside that frame (R130, R131). -/
theorem readPageStoresWhatItReceives : Obligations.ReadPageStoresWhatItReceives := by
  intro s a size hu hp got es
  have hcalls := State.performAll_read_ready hu hp size
  rw [exec_readPage_ready hu hp, hcalls]
  rfl

end Sys2Proof.Machine
end

section
/-! PROOFS. The statements of spec/44_page_write.md's family: the whole next state of a page write, and the
alternation of the two program opcodes. -/

namespace Sys2Proof.Machine

/-! ### WRITEPAGE on a ready target -/

/-- An idle binary target that has the page takes the program command, whatever its buffers hold
(47_target.md R170, R176). -/
theorem Tgt.verdict_prog {s : State} (hw : s.cfg.wf = true) {a : Addr} (hp : s.PageReady a) {t : Tgt}
    (hm : t.mode = s.tgt.mode) (hb : t.nvBinary = s.tgt.nvBinary) (b : Bool) (data : List Byte) :
    t.verdict s.cfg (addrHeader (progOpcode s.cfg b) a ++ data) =
      .ok (if b then .wProg2 a data else .wProg1 a data) := by
  refine Tgt.verdict_idle (decodeWire_prog hw b a data) (hm.trans hp.idle) ?_
  cases b <;> exact Tgt.pageCheck_ready hp t hb

/-- The `CS1` of the program command of the buffer a flag selects (R176). -/
theorem Tgt.commit_prog (t : Tgt) (cfg : Config) (b : Bool) (a : Addr) (data : List Byte) :
    t.commit cfg (if b then .wProg2 a data else .wProg1 a data) = t.program (selBuf b) a := by
  cases b <;> rfl

/-- Settles O26: the transaction of the selected opcode loads the buffer byte by byte
(`State.exchanges_prog`), the target takes it, and its `CS1` is the program of that buffer; the flag was
complemented before the first call. -/
theorem writePageLoadsAndStartsProgram : Obligations.WritePageLoadsAndStartsProgram := by
  intro s a data hu hp b opc es t
  have hturned : s.turnPwSel.Undisturbed := ⟨hu.cfgWf, hu.chip, hu.noReset, hu.noFault⟩
  have hserve := State.serve_send hturned (g := .writePage) (fun _ _ => rfl)
    (State.exchanges_prog hu.cfgWf hp s.seq.pwSel data)
    (Tgt.verdict_prog hu.cfgWf hp (by simp) (by simp) s.seq.pwSel data)
  rw [Tgt.commit_prog] at hserve
  exact (exec_opening rfl).trans hserve

/-! ### The rotation flags along a list of instructions -/

/-- A list of instructions carried out is its first one and then the others. -/
theorem execAll_cons {i : Instr} {is : List Instr} {s t : State} (e : execAll (i :: is) s = some t) :
    ∃ u, exec i s = .next u ∧ execAll is u = some t := by
  rw [execAll] at e
  cases hx : exec i s with
  | next u => exact ⟨u, rfl, by rwa [hx] at e⟩
  | fault f => rw [hx] at e; cases e
  | refused r => rw [hx] at e; cases e

/-- A list of instructions without INIT complements each rotation flag once an instruction of its own
family (10_state.md R12, R13). -/
theorem execAll_flags {is : List Instr} {s t : State} (hr : s.resetIn = none) (hi : .init ∉ is)
    (e : execAll is s = some t) :
    t.resetIn = none ∧ t.seq.pwSel = (s.seq.pwSel ^^ (is.countP Instr.isWritePage).bodd) ∧
      t.seq.bwSel = (s.seq.bwSel ^^ (is.countP Instr.isBufferToMemory).bodd) := by
  induction is generalizing s with
  | nil => cases e; simp [hr]
  | cons i is ih =>
    obtain ⟨u, hx, hu⟩ := execAll_cons e
    obtain ⟨hru, -, hpw, hbw⟩ := exec_flags hr (List.ne_of_not_mem_cons hi).symm hx
    obtain ⟨hrt, hpt, hbt⟩ := ih hru (List.not_mem_of_not_mem_cons hi) hu
    refine ⟨hrt, ?_, ?_⟩
    · rw [hpt, hpw, List.countP_cons]
      cases i.isWritePage <;> simp
    · rw [hbt, hbw, List.countP_cons]
      cases i.isBufferToMemory <;> simp

/-! ### What SEQ drives, whatever the target makes of it -/

/-- An operation of one piece that returns zero drives its calls, whether or not the target faults. -/
theorem State.serve_drives {s : State} (hr : s.resetIn = none) {g : Stage} (hg : g.returnsZero)
    {cs : List Call} (hne : cs ≠ []) :
    ∃ q, seqOf (s.serve g cs) = some q ∧
      q.trace.map BusEvent.driven = s.seq.trace.map BusEvent.driven ++ cs.map Call.driven :=
  ⟨_, State.seqOf_serve hr hne (by rw [hg]; rfl), by rw [hg]; exact s.performAll_driven cs⟩

/-- The opcode a flag selects after `n` page writes from a state where it was 0 (R141). -/
theorem progOpcode_bodd (cfg : Config) (n : Nat) :
    progOpcode cfg n.bodd = if (n + 1) % 2 = 1 then cfg.opcProgB1 else cfg.opcProgB2 := by
  rw [Nat.mod_two_of_bodd, Nat.bodd_succ, progOpcode]
  cases n.bodd <;> rfl

/-- Settles O33: the flag is the parity of the page writes before (`execAll_flags`), and the first byte
driven after the `CS0` is the opcode it selects. -/
theorem pageWritesAlternate : Obligations.PageWritesAlternate := by
  intro is s t a data hpw hr hi e
  obtain ⟨hrt, hpt, -⟩ := execAll_flags hr hi e
  rw [hpw, Bool.false_xor] at hpt
  obtain ⟨q, hq, htrace⟩ := State.serve_drives (s := t.turnPwSel) hrt (g := .writePage) (fun _ _ => rfl)
    (cs := sendCalls (addrHeader (progOpcode t.cfg t.seq.pwSel) a ++ data)) (by simp)
  rw [hpt, progOpcode_bodd] at htrace
  exact ⟨q, _, hq, htrace⟩

end Sys2Proof.Machine
end

section
/-! PROOFS. The statements of spec/45_buffer_erase.md's family: the whole next states of a buffer commit and of
a page erase, and the alternation of the two commit opcodes. -/

namespace Sys2Proof.Machine

/-! ### Operations whose one command is an opcode and an address -/

/-- An operation that sends an opcode and an address and no data, on an idle target that takes the command: its
exchanges change nothing, and only its `CS1` acts on the target (47_target.md R170). -/
theorem State.serve_addr {s : State} (hu : s.Undisturbed) (hm : s.tgt.mode = .idle) {g : Stage}
    (hg : g.returnsZero) {op : Byte} (ho : plainOpcode s.cfg op) {a : Addr} {i : Instr}
    (hd : decodeWire s.cfg (addrHeader op a) = .ok i) (hc : s.tgt.check s.cfg i = none) :
    s.serve g (sendCalls (addrHeader op a)) =
      .next (s.served (sentEvents (addrHeader op a)) 0 (s.tgt.commit s.cfg i)) := by
  refine State.serve_send hu hg (rx := [none, none, none, none]) ?_ (Tgt.verdict_idle hd hm hc)
  rw [Tgt.tick_of_idle _ _ hm, Tgt.exchanges_addr ho]

/-! ### BUFFERTOMEMORY on a ready target -/

/-- The checks of the commit command of the buffer a flag selects are those of its page (R178). -/
theorem Tgt.check_b2m (t : Tgt) (cfg : Config) (b : Bool) (a : Addr) :
    t.check cfg (if b then .wB2m2 a else .wB2m1 a) = t.pageCheck cfg a := by
  cases b <;> rfl

/-- The `CS1` of the commit command of the buffer a flag selects (R178). -/
theorem Tgt.commit_b2m (t : Tgt) (cfg : Config) (b : Bool) (a : Addr) :
    t.commit cfg (if b then .wB2m2 a else .wB2m1 a) = t.bufferToPage cfg (selBuf b) a := by
  cases b <;> rfl

/-- BUFFERTOMEMORY on a ready target: the flag complemented before the first call, then one transaction, whose
`CS1` is the program of the page from the buffer the flag selected (R151). -/
theorem exec_bufferToMemory_ready {s : State} (hu : s.Undisturbed) {a : Addr} (hp : s.PageReady a) :
    exec (.bufferToMemory a) s = .next (s.turnBwSel.served
      (sentEvents (addrHeader (b2mOpcode s.cfg s.seq.bwSel) a)) 0
      (s.tgt.bufferToPage s.cfg (selBuf s.seq.bwSel) a)) := by
  obtain ⟨-, -, -, -, plain, -⟩ := plain_opcodes hu.cfgWf
  have hturned : s.turnBwSel.Undisturbed := ⟨hu.cfgWf, hu.chip, hu.noReset, hu.noFault⟩
  have hserve := State.serve_addr hturned hp.idle (g := .bufferToMemory) (fun _ _ => rfl)
    (plain s.seq.bwSel) (decodeWire_b2m hu.cfgWf s.seq.bwSel a)
    ((Tgt.check_b2m _ _ _ _).trans (Tgt.pageCheck_ready hp s.tgt rfl))
  rw [Tgt.commit_b2m] at hserve
  exact (exec_opening rfl).trans hserve

/-- Settles O28: the next state of `exec_bufferToMemory_ready`, where the result will be defined just if the
erase condition stands at the `CS1`, which is what `clean` says (`Tgt.eraseCondition_iff`). -/
theorem bufferToMemoryStartsProgram : Obligations.BufferToMemoryStartsProgram := by
  intro s a clean hu hp hclean b opc es t
  have herase : s.tgt.eraseCondition s.cfg (page a) = clean :=
    Bool.eq_iff_iff.2 ((Tgt.eraseCondition_iff _ _ _).trans hclean.symm)
  rw [exec_bufferToMemory_ready hu hp, Tgt.bufferToPage, herase]
  rfl

/-! ### ERASEPAGE on a ready target -/

/-- Settles O29: one transaction of the fixed opcode, whose `CS1` is the erase of the page; neither the page
forgotten nor the start of the busy window is anything to the buffers. -/
theorem erasePageStartsErase : Obligations.ErasePageStartsErase := by
  intro s a hu hp t
  refine ⟨?_, by simp [t], by simp [t]⟩
  obtain ⟨-, -, -, -, -, plain, -⟩ := plain_opcodes hu.cfgWf
  have hserve := State.serve_addr hu hp.idle (g := .erasePage) (fun _ _ => rfl) plain
    (decodeWire_erase hu.cfgWf a) (Tgt.pageCheck_ready hp s.tgt rfl)
  exact (exec_opening rfl).trans hserve

/-! ### The alternation of the commit opcodes -/

/-- The opcode a flag selects after `n` buffer commits from a state where it was 0 (R151). -/
theorem b2mOpcode_bodd (cfg : Config) (n : Nat) :
    b2mOpcode cfg n.bodd = if (n + 1) % 2 = 1 then cfg.opcB2mB1 else cfg.opcB2mB2 := by
  rw [Nat.mod_two_of_bodd, Nat.bodd_succ, b2mOpcode]
  cases n.bodd <;> rfl

/-- Settles O34: the flag is the parity of the buffer commits before (`execAll_flags`), which buffer writes do
not touch (D6), and the first byte driven after the `CS0` is the opcode it selects. -/
theorem bufferCommitsAlternate : Obligations.BufferCommitsAlternate := by
  intro is s t a hbw hr hi e
  obtain ⟨hrt, -, hbt⟩ := execAll_flags hr hi e
  rw [hbw, Bool.false_xor] at hbt
  obtain ⟨q, hq, htrace⟩ := State.serve_drives (s := t.turnBwSel) hrt (g := .bufferToMemory)
    (fun _ _ => rfl) (cs := sendCalls (addrHeader (b2mOpcode t.cfg t.seq.bwSel) a)) (by simp)
  rw [hbt, b2mOpcode_bodd] at htrace
  exact ⟨q, _, hq, htrace⟩

end Sys2Proof.Machine
end

section
/-! PROOFS. The statements of spec/46_power_down.md's family: ENTERUDPD, the wake, and that only the wake leaves
ultra-deep power-down. -/

namespace Sys2Proof.Machine

/-! ### ENTERUDPD -/

/-- Settles O35: one transaction of one byte, during which the target does nothing;
its `CS1` is the power-down. -/
theorem enterUdpdPowersDown : Obligations.EnterUdpdPowersDown := by
  intro s hu hm
  obtain ⟨-, -, -, -, -, -, plain⟩ := plain_opcodes hu.cfgWf
  have hx : Tgt.exchanges s.cfg [] [s.cfg.opcUdpd] (s.tgt.tick s.cfg) = (s.tgt, [none]) := by
    rw [Tgt.tick_of_idle _ _ hm, Tgt.exchanges_header plain [] (by simp)]
    rfl
  exact State.serve_send hu (g := .enterUdpd) (fun _ _ => rfl) hx
    (Tgt.verdict_idle (decodeWire_udpd hu.cfgWf) hm rfl)

/-! ### The wake -/

/-- The bare pulse is the wake to every target but one in deep power-down (47_target.md R181, R185). -/
theorem Tgt.verdict_pulse (cfg : Config) {t : Tgt} (h : t.mode ≠ .dpd) : t.verdict cfg [] = .ok .wWake := by
  refine Tgt.verdict_ok rfl ((gate_none _ _ _).2 ?_) rfl
  cases hm : t.mode with
  | idle => simp
  | busy => simp
  | dpd => exact absurd hm h
  | udpd => simp

/-- Its `CS1` does nothing: the wake is at the end of the settle time (R181). -/
theorem Tgt.latch_pulse (cfg : Config) {t : Tgt} (h : t.mode ≠ .dpd) : t.latch cfg [] = (t, none) :=
  Tgt.latch_ok (Tgt.verdict_pulse cfg h)

theorem Tgt.settle_of_udpd {t : Tgt} (h : t.mode = .udpd) : t.settle = t.wakeUp := by
  rcases t.settle_cases with ⟨-, e⟩ | ⟨hn, -⟩
  · exact e
  · exact absurd h hn

/-- EXITUDPD on a target that is not in deep power-down: the pulse, the settle time, and what the end of that
does to the target (46_power_down.md R161). -/
theorem exec_exitUdpd {s : State} (hu : s.Undisturbed) (hm : s.tgt.mode ≠ .dpd) :
    exec .exitUdpd s = .next (s.served
      [.cs0, .dly s.cfg.tWakePulse, .cs1, .dly Config.tWakeSettle] 0 (s.tgt.tick s.cfg).settle) := by
  have hlatch := Tgt.latch_pulse s.cfg (mt (s.tgt.tick_dpd s.cfg).1 hm)
  rw [exec_opening (i := .exitUdpd) rfl, State.serve_piece (by simp) hu.noReset rfl,
    State.performAll_wake hu.reaches, hlatch, State.finish_of_ok rfl]
  simp [State.endStage, State.settle, State.respond, State.served, State.reaches, hu.chip, hu.noFault]

/-- The raw pulse does the same to the target (log 13). -/
theorem exec_wWake {s : State} (hc : s.cfg.chipPresent = true) (hm : s.tgt.mode ≠ .dpd) :
    exec .wWake s = .next { s with tgt := (s.tgt.tick s.cfg).settle, wireRx := [] } :=
  wireStep_ok hc rfl (Tgt.verdict_pulse s.cfg (mt (s.tgt.tick_dpd s.cfg).1 hm))

/-- Settles O36: the two forms of the pulse, whose settle time wakes a target in ultra-deep power-down and is
nothing to one that is idle, or busy until its window ends. -/
theorem exitUdpdWakesAndLosesTheBuffers : Obligations.ExitUdpdWakesAndLosesTheBuffers := by
  intro s hu es
  refine ⟨fun hm => ?_, fun hm => ?_⟩
  · have hdpd : s.tgt.mode ≠ .dpd := by simp [hm]
    have hwake : (s.tgt.tick s.cfg).settle = s.tgt.wakeUp := by
      rw [Tgt.tick_of_not_busy s.cfg s.tgt (by simp [hm]), Tgt.settle_of_udpd hm]
    refine ⟨s.tgt.free.nextByte.1.getLsbD 0, s.tgt.free.nextByte.2, ?_, ?_⟩
    · rw [exec_exitUdpd hu hdpd, hwake]; rfl
    · rw [exec_wWake hu.chip hdpd, hwake]; rfl
  · have hstays : (s.tgt.tick s.cfg).settle = s.tgt.tick s.cfg := by
      refine Tgt.settle_of_ne ?_
      rcases s.tgt.tick_mode s.cfg with e | ⟨-, e⟩
      · rw [e]; rcases hm with h | h <;> simp [h]
      · simp [e]
    rw [exec_exitUdpd hu (by rcases hm with h | h <;> simp [h]), hstays]
    rfl

/-! ### Leaving ultra-deep power-down -/

/-- SEQ is inside EXITUDPD. -/
def SeqPc.InWake (pc : SeqPc) : Prop := ∃ rest kept, pc = .running .exitUdpd rest kept

/-- The target sleeps, and SEQ is inside EXITUDPD only if `q` holds; or `q` holds, the target is awake, and SEQ
is inside no operation. -/
def State.SleepsUnless (q : Prop) (s : State) : Prop :=
  (s.tgt.mode = .udpd ∧ (s.seq.pc.InWake → q)) ∨
    (s.tgt.mode = .idle ∧ q ∧ ∀ g cs kept, s.seq.pc ≠ .running g cs kept)

/-- No piece is followed by EXITUDPD: an advance ends inside it only if it began there. -/
theorem State.inWake_of_callStep {s : State} (h : s.callStep.seq.pc.InWake) : s.seq.pc.InWake := by
  obtain ⟨rest, kept, hp⟩ := h
  rcases s.callStep_cases with ⟨-, e⟩ | ⟨-, -, e⟩ | ⟨g, c, cs, k, -, hpc, -, e⟩ | ⟨g, c, k, -, -, e⟩
  · rw [e] at hp; cases hp
  · rw [e] at hp; exact ⟨_, _, hp⟩
  · rw [e] at hp; cases hp; exact ⟨_, _, hpc⟩
  · rw [e] at hp
    rcases State.endStage_cases _ g _ with ⟨id, v, e', -⟩ | ⟨id, g', cs, e', -, -, hg, -⟩
    · rw [e'] at hp; cases hp
    · rw [e'] at hp; cases hp; exact absurd rfl hg

/-- An SEQ inside no operation does nothing to the target, and stays outside. -/
theorem State.callStep_outside {s : State} (h : ∀ g cs kept, s.seq.pc ≠ .running g cs kept) :
    s.callStep.tgt = s.tgt ∧ ∀ g cs kept, s.callStep.seq.pc ≠ .running g cs kept := by
  rcases s.callStep_cases with ⟨-, e⟩ | ⟨-, -, e⟩ | ⟨g, c, cs, k, -, hpc, -⟩ | ⟨g, c, k, -, hpc, -⟩
  · rw [e]; exact ⟨rfl, by simp⟩
  · rw [e]; exact ⟨rfl, h⟩
  · exact absurd hpc (h _ _ _)
  · exact absurd hpc (h _ _ _)

theorem State.SleepsUnless.callStep {q : Prop} {s : State} (h : s.SleepsUnless q) :
    s.callStep.SleepsUnless q := by
  rcases h with ⟨hm, hq⟩ | ⟨hm, hq, hp⟩
  · rcases State.callStep_tgt (Tgt.keeps_powered_down s.cfg (.inl rfl)) hm with hm' | ⟨hw, t, ht, e, hp⟩
    · exact .inl ⟨hm', fun hw => hq (State.inWake_of_callStep hw)⟩
    · refine .inr ⟨?_, hq hw, by simp [hp]⟩
      rw [e, Tgt.settle_of_udpd ht, Tgt.wakeUp_mode]
  · obtain ⟨htgt, hp'⟩ := State.callStep_outside hp
    exact .inr ⟨htgt ▸ hm, hq, hp'⟩

/-- Wherever SEQ is, the target sleeps, or is awake and `q` holds. -/
theorem State.SleepsUnless.mode {q : Prop} {s : State} (h : s.SleepsUnless q) :
    s.tgt.mode = .udpd ∨ (s.tgt.mode = .idle ∧ q) := by
  rcases h with ⟨hm, -⟩ | ⟨hm, hq, -⟩
  · exact .inl hm
  · exact .inr ⟨hm, hq⟩

/-- A raw transaction that wakes the target is the bare pulse. -/
theorem wireStep_udpd {s t : State} {bytes : List Byte} (hm : s.tgt.mode = .udpd)
    (e : wireStep s bytes = .next t) :
    t.tgt.mode = .udpd ∨ (t.tgt.mode = .idle ∧ bytes = []) := by
  rcases wireStep_tgt (Tgt.keeps_powered_down s.cfg (.inl rfl)) hm e with h | ⟨hb, u, hu, e⟩
  · exact .inl h
  · exact .inr ⟨by rw [e, Tgt.settle_of_udpd hu, Tgt.wakeUp_mode], hb⟩

theorem wireBytes_nil {i : Instr} {cfg : Config} (h : wireBytes i cfg = some []) : i = .wWake := by
  cases i <;> cases h
  rfl

/-- An instruction that wakes the target is one of the two pulses (46_power_down.md R162). -/
theorem exec_udpd {i : Instr} {s t : State} (hm : s.tgt.mode = .udpd) (e : exec i s = .next t) :
    t.tgt.mode = .udpd ∨ (t.tgt.mode = .idle ∧ (i = .exitUdpd ∨ i = .wWake)) := by
  rcases instr_kinds i s with ⟨-, u, g, cs, ho⟩ | ⟨-, bytes, hb⟩ | rfl | rfl | rfl
  · rw [exec_opening ho] at e
    obtain ⟨-, f2, -⟩ := opening_frame ho
    have h0 : (u.begin g cs).SleepsUnless (i = .exitUdpd) := by
      refine .inl ⟨by simpa [f2] using hm, ?_⟩
      rintro ⟨rest, kept, hp⟩
      cases hp
      exact stage_of_exitUdpd ho
    exact (serve_keeps (fun _ h => h.callStep) h0 e).mode.imp_right (And.imp_right .inl)
  · rw [exec_wire hb] at e
    refine (wireStep_udpd hm e).imp_right (And.imp_right fun h => .inr ?_)
    subst h
    exact wireBytes_nil hb
  all_goals cases e

/-- Settles O37, by what each kind of step can do to a sleeping target. -/
theorem onlyTheWakeLeavesUdpd : Obligations.OnlyTheWakeLeavesUdpd := by
  intro s t hm e hne
  rcases step_cases e with ⟨-, e⟩ | ⟨-, -, e⟩ | ⟨g, cs, kept, -, -, e⟩ | ⟨-, -, -, rfl⟩ |
    ⟨p, rest, i, -, hp, hq, hd, e⟩ | ⟨bytes, rest, why, -, -, -, hd, e⟩
  · obtain ⟨rfl, -⟩ := State.finish_next e
    exact absurd hm hne
  · obtain ⟨-, hi⟩ := (exec_udpd hm e).resolve_left hne
    rcases hi with hi | hi <;> cases hi
  · have h0 : s.SleepsUnless s.seq.pc.InWake := .inl ⟨hm, id⟩
    obtain ⟨hidle, hw⟩ := (resume_next (fun _ h => h.callStep) h0 e).mode.resolve_left hne
    exact ⟨hidle, .inl hw⟩
  · exact absurd ((Tgt.keeps_powered_down s.cfg (.inl rfl)).tick _ hm) hne
  · obtain ⟨hidle, hi⟩ := (exec_udpd (by simpa using hm) e).resolve_left hne
    exact ⟨hidle, .inr ⟨p, rest, i, hp, hq, hd, hi⟩⟩
  · obtain ⟨-, rfl⟩ := (wireStep_udpd (by simpa using hm) e).resolve_left hne
    cases hd

end Sys2Proof.Machine
end

section
/-! PROOFS. The statements of spec/47_target.md's family: the buffer load, the completions, what starts a busy
window, the wire commands as raw transactions, the target's faults, and the poll loop of a responsive chip. -/

namespace Sys2Proof.Machine

/-! ### The buffer load -/

/-- Settles O25: the two outcomes of a load, by whether its bytes fit (`Tgt.loadBytes_read`,
`Tgt.loadBytes_overrun`), and that it is nothing to the other buffer. -/
theorem bufferLoadStoresInPlace : Obligations.BufferLoadStoresInPlace := by
  intro t b c a data hc
  have hoff : off a ≤ Config.pageSize := (BitVec.isLt (a.extractLsb' 0 9)).le
  refine ⟨fun hfit => Tgt.loadBytes_read b (off a) data t hfit, fun hpast i => ?_,
    Tgt.loadBytes_buf_other hc (off a) data t⟩
  rw [Tgt.loadBuffer, Tgt.loadBytes_overrun b (off a) data t hoff hpast]
  rfl

/-! ### The identifier read -/

/-- Settles O12: the query leaves an idle target as it is, and its three bytes make the identifier that GETID
caches and returns. -/
theorem getIdCachesTheIdentifier : Obligations.GetIdCachesTheIdentifier := by
  intro s hu hm id es
  have hcalls := State.performAll_ident hu.reaches hu.cfgWf hm
  rw [exec_opening (i := .getId) rfl, State.serve_piece (by simp) hu.noReset rfl, hcalls, State.endStage,
    identOf_devId]
  exact State.finish_of_ok hu.noFault

/-! ### TGT-COMPLETE -/

/-- The opportunity at which a busy window ends (R182). -/
theorem Tgt.tick_of_ending (cfg : Config) {t : Tgt} (hm : t.mode = .busy) (hf : t.fate.after = some 0) :
    t.tick cfg = t.complete cfg := by
  simp [Tgt.tick, hm, hf]

/-- A step that waits while a busy window ends is the completion and nothing else. -/
theorem step_completes {s : State} (hr : s.resetIn = none) (hp : s.seq.pc = .idle) (hq : s.requests = [])
    (hm : s.tgt.mode = .busy) (hf : s.tgt.fate.after = some 0) :
    step s = .next { s with tgt := s.tgt.complete s.cfg } := by
  rw [step_of_waiting (by simp [hr]) hp hq, State.spend_none hr, Tgt.tick_of_ending _ hm hf]

theorem Tgt.complete_of_prog (cfg : Config) {t : Tgt} {p : Nat} {b : BufId} {clean : Bool}
    (h : t.pending = some (.prog p b clean)) :
    t.complete cfg = { t.completeProg p b clean with pending := none, mode := .idle } := by
  simp only [Tgt.complete, h]

theorem Tgt.complete_of_erase (cfg : Config) {t : Tgt} {p : Nat} (h : t.pending = some (.erase p)) :
    t.complete cfg = { t.completeErase cfg p with pending := none, mode := .idle } := by
  simp only [Tgt.complete, h]

/-- The completion of a page-size switch sets the bit or leaves it (R182). -/
theorem Tgt.complete_of_nvcfg (cfg : Config) {t : Tgt} (h : t.pending = some .nvcfg) :
    t.complete cfg = { t with
      pending := none, mode := .idle, nvBinary := if t.fate.ok then true else t.nvBinary } := by
  simp only [Tgt.complete, Tgt.completeNv, h]
  cases t.fate.ok <;> rfl

/-- The array after a program: the page is the buffer's copy or is lost (R182, R178). -/
theorem Tgt.completeProg_read (t : Tgt) (p : Nat) (b : BufId) (clean : Bool) (x : Nat) :
    (t.completeProg p b clean).main.read x = if p * 512 ≤ x ∧ x < p * 512 + 512 then
        (if t.fate.ok = true ∧ clean = true then (t.buf b).read (x - p * 512) else none)
      else t.main.read x := by
  by_cases h : t.fate.ok = true ∧ clean = true
  · have hcopy : (t.completeProg p b clean).main = t.main.copy (p * 512) 512 (t.buf b) :=
      if_pos (by simp [h])
    rw [hcopy, Memory.read_copy, if_pos h]
  · have hlost : (t.completeProg p b clean).main = t.main.forget (p * 512) 512 :=
      if_neg (by simpa using h)
    rw [hlost, Memory.read_forget, if_neg h]

/-- The array after an erase: the page holds the erased byte or is lost (R182). -/
theorem Tgt.completeErase_read (cfg : Config) (t : Tgt) (p x : Nat) :
    (t.completeErase cfg p).main.read x = if p * 512 ≤ x ∧ x < p * 512 + 512 then
        (if t.fate.ok then some cfg.erasedByte else none)
      else t.main.read x := by
  by_cases h : t.fate.ok = true
  · have hfill : (t.completeErase cfg p).main = t.main.fill (p * 512) 512 cfg.erasedByte := if_pos h
    rw [hfill, Memory.read_fill, if_pos h]
  · have hlost : (t.completeErase cfg p).main = t.main.forget (p * 512) 512 := if_neg h
    rw [hlost, Memory.read_forget, if_neg h]

/-- Settles O39: the waiting step is the completion, which touches the array, the error flag, the mode and the
pending work only. -/
theorem completionOfProgram : Obligations.CompletionOfProgram := by
  intro s p b clean hr hp hq hm hw hf
  refine ⟨_, _, ?_, rfl, s.tgt.completeProg_read p b clean⟩
  rw [step_completes hr hp hq hm hf, Tgt.complete_of_prog _ hw]
  rfl

/-- Settles O40: the same waiting step, for the two other kinds of work. -/
theorem completionOfEraseAndOfPageSizeSwitch : Obligations.CompletionOfEraseAndOfPageSizeSwitch := by
  intro s hr hp hq hm hf
  have hstep := step_completes hr hp hq hm hf
  refine ⟨fun p hw => ⟨_, _, ?_, rfl, s.tgt.completeErase_read s.cfg p⟩, fun hw => ?_⟩
  · rw [hstep, Tgt.complete_of_erase _ hw]
    rfl
  · rw [hstep, Tgt.complete_of_nvcfg _ hw]

/-! ### The poll loop of a responsive chip -/

/-- The target is ready, or its busy window ends after at most `n` opportunities (R182, R189). -/
def Tgt.EndsWithin (n : Nat) (t : Tgt) : Prop :=
  t.mode = .idle ∨ (t.mode = .busy ∧ ∃ m ≤ n, t.fate.after = some m)

theorem Tgt.EndsWithin.mono {n k : Nat} {t : Tgt} (h : t.EndsWithin n) (hk : n ≤ k) : t.EndsWithin k :=
  h.imp_right fun ⟨hm, m, hn, hf⟩ => ⟨hm, m, hn.trans hk, hf⟩

/-- Where no opportunity is left to pass, the next one ends the window. -/
theorem Tgt.EndsWithin.tick_zero {t : Tgt} (h : t.EndsWithin 0) (cfg : Config) :
    (t.tick cfg).mode = .idle := by
  rcases h with hm | ⟨hm, m, hm0, hf⟩
  · rw [Tgt.tick_of_idle _ _ hm, hm]
  · rw [Nat.le_zero.1 hm0] at hf
    rw [Tgt.tick_of_ending _ hm hf, Tgt.complete_mode]

/-- Every opportunity is one less to pass. -/
theorem Tgt.EndsWithin.tick {n : Nat} {t : Tgt} (h : t.EndsWithin (n + 1)) (cfg : Config) :
    (t.tick cfg).EndsWithin n := by
  rcases h with hm | ⟨hm, m, hmn, hf⟩
  · exact .inl (by rw [Tgt.tick_of_idle _ _ hm, hm])
  · cases m with
    | zero => exact .inl (by rw [Tgt.tick_of_ending _ hm hf, Tgt.complete_mode])
    | succ m =>
      have ht : t.tick cfg = { t with fate := { t.fate with after := some m } } := by
        simp [Tgt.tick, hm, hf]
      rw [ht]
      exact .inr ⟨hm, m, Nat.le_of_succ_le_succ hmn, rfl⟩

/-- SEQ is at the start of a turn of its poll loop, on a target ready within `n` opportunities. -/
structure State.PollsResponsive (c : Caller) (n : Nat) (s : State) : Prop where
  undisturbed : s.Undisturbed
  polling : s.seq.pc = .polling s.cfg c
  ends : s.tgt.EndsWithin n

/-- The poll loop is over: SEQ idle, a response given, the target ready. -/
def State.PollOver (s : State) : Prop :=
  s.seq.pc = .idle ∧ s.tgt.mode = .idle ∧ ∃ v, s.seq.resp = some ⟨true, v⟩

/-- The return of SETBINARYPAGESIZE ends the loop, for either caller. -/
theorem State.pageSizeReturn_over {s : State} (hm : s.tgt.mode = .idle) (c : Caller) (ok : Bool) :
    (s.pageSizeReturn c ok).PollOver := by
  cases c with
  | host => exact ⟨rfl, hm, _, rfl⟩
  | init =>
    rw [State.pageSizeReturn_init]
    exact ⟨rfl, hm, _, rfl⟩

/-- The turn that meets a ready target is the last. -/
theorem State.PollsResponsive.run_ready {c : Caller} {n : Nat} {s : State} (h : s.PollsResponsive c n)
    (hm : (s.tgt.tick s.cfg).mode = .idle) :
    ∃ t : State, Host.Core.run Sys2Proof.core 1 s = .next t ∧ t.PollOver :=
  ⟨_, core_run_succ 0 (step_of_polling_ready h.undisturbed h.polling hm),
    State.pageSizeReturn_over (s := s.ticked.statusRead.statusRead) hm c _⟩

/-- A turn that meets a busy target leaves it ready within fewer opportunities. -/
theorem State.PollsResponsive.step_busy {c : Caller} {n : Nat} {s : State} (h : s.PollsResponsive c (n + 1))
    (hm : (s.tgt.tick s.cfg).mode = .busy) : ∃ t, step s = .next t ∧ t.PollsResponsive c n := by
  have hdrawn : (s.tgt.tick s.cfg).drawn.EndsWithin (n + 1) := (h.ends.tick s.cfg).mono n.le_succ
  obtain ⟨hw, hc, hr, hf⟩ := h.undisturbed
  exact ⟨_, pollOfBusyTargetRepeats s c h.undisturbed h.polling hm, ⟨hw, hc, hr, hf⟩, h.polling,
    hdrawn.tick s.cfg⟩

/-- Such a loop ends: by induction on the opportunities that may still pass. -/
theorem State.PollsResponsive.run {c : Caller} {n : Nat} {s : State} (h : s.PollsResponsive c n) :
    ∃ k ≤ n + 1, ∃ t : State, Host.Core.run Sys2Proof.core k s = .next t ∧ t.PollOver := by
  induction n generalizing s with
  | zero => exact ⟨1, Nat.le_refl 1, h.run_ready (h.ends.tick_zero s.cfg)⟩
  | succ n ih =>
    rcases h.ends.tick s.cfg with hm | ⟨hm, -⟩
    · exact ⟨1, by omega, h.run_ready hm⟩
    · obtain ⟨u, hstep, hu⟩ := h.step_busy hm
      obtain ⟨k, hk, t, hrun, ht⟩ := ih hu
      exact ⟨k + 1, by omega, t, (core_run_succ k hstep).trans hrun, ht⟩

/-- Settles O19: a window that ends after `n` opportunities is one `State.PollsResponsive.run` speaks of. -/
theorem pollEndsOnResponsiveChip : Obligations.PollEndsOnResponsiveChip := by
  intro s c n hu hp hm hf
  have h : s.PollsResponsive c n := ⟨hu, hp, .inr ⟨hm, n, Nat.le_refl n, hf⟩⟩
  exact h.run

/-! ### The wire commands as raw transactions -/

/-- A raw transaction of at least one byte that the target takes. -/
theorem wireStep_taken {s : State} (hu : s.Undisturbed) {bytes : List Byte} (hne : bytes ≠ []) {t : Tgt}
    {rx : List (Option Byte)} {i : Instr}
    (hx : Tgt.exchanges s.cfg [] bytes (s.tgt.tick s.cfg) = (t, rx)) (hv : t.verdict s.cfg bytes = .ok i) :
    wireStep s bytes = .next { s with tgt := t.commit s.cfg i, wireRx := rx } := by
  rw [wireStep_ok hu.chip hx hv, if_neg hne]

/-- A target that is idle or busy takes a status read (R171, R183). -/
theorem Tgt.verdict_status (cfg : Config) {t : Tgt} (hm : t.mode = .idle ∨ t.mode = .busy) :
    t.verdict cfg (queryBytes cfg cfg.opcStatusRead 2) = .ok .wStatus := by
  refine Tgt.verdict_ok (decodeWire_statusQuery cfg) ((gate_none _ _ _).2 ?_) rfl
  exact hm.imp_right fun h => .inl ⟨h, .inr rfl⟩

/-- The pulse is nothing to a target that is idle or busy but an opportunity for TGT-COMPLETE (R181). -/
theorem Tgt.settle_tick (cfg : Config) {t : Tgt} (hm : t.mode = .idle ∨ t.mode = .busy) :
    (t.tick cfg).settle = t.tick cfg := by
  refine Tgt.settle_of_ne ?_
  rcases Tgt.tick_answers cfg hm with h | h <;> simp [h]

/-- The bytes of a whole page read, on a target ready for the page (R174). -/
theorem State.exchanges_read {s : State} (hw : s.cfg.wf = true) {a : Addr} (hp : s.PageReady a) (n : Nat) :
    Tgt.exchanges s.cfg [] (readHeader s.cfg a ++ List.replicate n s.cfg.dummy) (s.tgt.tick s.cfg) =
      (s.tgt, List.replicate 8 none ++ (List.range n).map (s.tgt.pageCell a)) := by
  have hdata := Tgt.exchanges_read (t := s.tgt) hw a 0 n hp.idle fun _ => Tgt.pageCheck_ready hp s.tgt rfl
  simp only [List.replicate_zero, List.append_nil, Nat.zero_add] at hdata
  rw [Tgt.tick_of_idle _ _ hp.idle, Tgt.exchanges_append, Tgt.exchanges_readHeader hw, List.nil_append, hdata]
  rfl

/-- `W_STATUS` on a target that is idle or busy (R171, R183). -/
theorem exec_wStatus {s : State} (hu : s.Undisturbed) (hm : s.tgt.mode = .idle ∨ s.tgt.mode = .busy) :
    let t := s.tgt.tick s.cfg
    let u := t.drawn.tick s.cfg
    exec .wStatus s = .next { s with tgt := u.drawn, wireRx := [none, some t.byte1, some u.byte2] } := by
  intro t u
  have ht : t.mode = .idle ∨ t.mode = .busy := Tgt.tick_answers s.cfg hm
  have hd : u.drawn.mode = .idle ∨ u.drawn.mode = .busy := Tgt.tick_answers s.cfg (t := t.drawn) ht
  exact wireStep_taken hu (by simp) (Tgt.exchanges_status s.cfg _ _ ht)
    (Tgt.verdict_status s.cfg hd)

/-- `W_ID` on an idle target (R172). -/
theorem exec_wId {s : State} (hu : s.Undisturbed) (hm : s.tgt.mode = .idle) :
    exec .wId s = .next { s with
      wireRx := [none, some (s.tgt.devId.extractLsb' 16 8), some (s.tgt.devId.extractLsb' 8 8),
        some (s.tgt.devId.extractLsb' 0 8)] } := by
  refine wireStep_taken (t := s.tgt) hu (by simp [queryBytes]) ?_
    (Tgt.verdict_idle (decodeWire_idQuery hu.cfgWf) hm rfl)
  rw [Tgt.tick_of_idle _ _ hm]
  exact Tgt.exchanges_ident hu.cfgWf _ _ _ hm

/-- `W_READ` on a target ready for the page (R174). -/
theorem exec_wRead {s : State} (hu : s.Undisturbed) {a : Addr} (hp : s.PageReady a) (n : Nat) :
    exec (.wRead a n) s = .next { s with
      wireRx := List.replicate 8 none ++ (List.range n).map (s.tgt.pageCell a) } :=
  wireStep_taken hu (by simp [readHeader]) (State.exchanges_read hu.cfgWf hp n)
    (Tgt.verdict_idle (decodeWire_read hu.cfgWf a n) hp.idle (Tgt.pageCheck_ready hp s.tgt rfl))

/-- Settles O49: each query is a transaction that the target takes and that does nothing at its `CS1`. -/
theorem wireQueriesAnswer : Obligations.WireQueriesAnswer := by
  intro s hu
  refine ⟨?_, exec_wId hu, fun a n hp => exec_wRead hu hp n⟩
  intro hm t u
  refine ⟨exec_wStatus hu hm, ?_⟩
  rw [exec_wWake hu.chip (by rcases hm with h | h <;> simp [h]), Tgt.settle_tick s.cfg hm]

/-- `W_PROG1`, `W_PROG2` on a target ready for the page (R176). -/
theorem exec_wProg {s : State} (hu : s.Undisturbed) {a : Addr} (hp : s.PageReady a) (b : Bool)
    (data : List Byte) :
    exec (if b then .wProg2 a data else .wProg1 a data) s = .next { s with
      tgt := (s.tgt.loadBuffer (selBuf b) a data).program (selBuf b) a
      wireRx := [none, none, none, none] ++ data.map fun _ => none } := by
  rw [exec_wire (bytes := addrHeader (progOpcode s.cfg b) a ++ data) (by cases b <;> rfl),
    wireStep_taken hu (by simp [addrHeader]) (State.exchanges_prog hu.cfgWf hp b data)
      (Tgt.verdict_prog hu.cfgWf hp (by simp) (by simp) b data), Tgt.commit_prog]

/-- `W_BUFW1`, `W_BUFW2` on an idle binary target (R177). -/
theorem exec_wBufw {s : State} (hu : s.Undisturbed) (hm : s.tgt.mode = .idle) (hb : s.tgt.nvBinary = true)
    (a : Addr) (b : Bool) (data : List Byte) :
    exec (if b then .wBufw2 a data else .wBufw1 a data) s = .next { s with
      tgt := s.tgt.loadBuffer (selBuf b) a data
      wireRx := [none, none, none, none] ++ data.map fun _ => none } := by
  have hv : (s.tgt.loadBuffer (selBuf b) a data).verdict s.cfg (addrHeader (bufwOpcode s.cfg b) a ++ data) =
      .ok (if b then .wBufw2 a data else .wBufw1 a data) :=
    Tgt.verdict_idle (decodeWire_bufw hu.cfgWf b a data) (by simpa using hm)
      (by cases b <;> simp [Tgt.check, hb])
  rw [exec_wire (bytes := addrHeader (bufwOpcode s.cfg b) a ++ data) (by cases b <;> rfl),
    wireStep_taken hu (by simp [addrHeader]) (State.exchanges_bufw hu.cfgWf hm hb a b data) hv]
  cases b <;> rfl

/-- A wire command of an opcode and an address, on an idle target that takes it: only its `CS1` acts on the
target (R170). -/
theorem wireStep_addr {s : State} (hu : s.Undisturbed) (hm : s.tgt.mode = .idle) {op : Byte}
    (ho : plainOpcode s.cfg op) {a : Addr} {i : Instr} (hd : decodeWire s.cfg (addrHeader op a) = .ok i)
    (hc : s.tgt.check s.cfg i = none) :
    wireStep s (addrHeader op a) = .next { s with
      tgt := s.tgt.commit s.cfg i, wireRx := [none, none, none, none] } := by
  refine wireStep_taken hu (by simp [addrHeader]) ?_ (Tgt.verdict_idle hd hm hc)
  rw [Tgt.tick_of_idle _ _ hm, Tgt.exchanges_addr ho]

/-- `W_B2M1`, `W_B2M2` on a target ready for the page (R178). -/
theorem exec_wB2m {s : State} (hu : s.Undisturbed) {a : Addr} (hp : s.PageReady a) (b : Bool) :
    exec (if b then .wB2m2 a else .wB2m1 a) s = .next { s with
      tgt := s.tgt.bufferToPage s.cfg (selBuf b) a, wireRx := [none, none, none, none] } := by
  obtain ⟨-, -, -, -, plain, -⟩ := plain_opcodes hu.cfgWf
  rw [exec_wire (bytes := addrHeader (b2mOpcode s.cfg b) a) (by cases b <;> rfl),
    wireStep_addr hu hp.idle (plain b) (decodeWire_b2m hu.cfgWf b a)
      ((Tgt.check_b2m _ _ _ _).trans (Tgt.pageCheck_ready hp s.tgt rfl)), Tgt.commit_b2m]

/-- `W_ERASE` on a target ready for the page (R179). -/
theorem exec_wErase {s : State} (hu : s.Undisturbed) {a : Addr} (hp : s.PageReady a) :
    exec (.wErase a) s = .next { s with
      tgt := s.tgt.pageErase a, wireRx := [none, none, none, none] } := by
  obtain ⟨-, -, -, -, -, plain, -⟩ := plain_opcodes hu.cfgWf
  exact wireStep_addr hu hp.idle plain (decodeWire_erase hu.cfgWf a) (Tgt.pageCheck_ready hp s.tgt rfl)

/-- Settles O50: the two buffers of each loading and committing command are the two values of one flag, and
`clean` is the erase condition (`Tgt.eraseCondition_iff`). -/
theorem wireWritesLoadAndStart : Obligations.WireWritesLoadAndStart := by
  intro s a data clean hu hp hclean none4 rx prog b2m
  have herase : s.tgt.eraseCondition s.cfg (page a) = clean :=
    Bool.eq_iff_iff.2 ((Tgt.eraseCondition_iff _ _ _).trans hclean.symm)
  have hb2m := exec_wB2m hu hp
  simp only [Tgt.bufferToPage, herase] at hb2m
  exact ⟨exec_wProg hu hp false data, exec_wProg hu hp true data,
    exec_wBufw hu hp.idle hp.binaryMode a false data, exec_wBufw hu hp.idle hp.binaryMode a true data,
    hb2m false, hb2m true, exec_wErase hu hp⟩

/-! ### Starting a program or an erase -/

/-- An instruction that programs or erases a page, on a target ready for it: its `CS1` forgets the page and
starts the busy window, whatever the buffers hold (R176, R178, R179). -/
theorem exec_rewrites {i : Instr} {a : Addr} (hi : i.rewrites = some a) {s : State} (hu : s.Undisturbed)
    (hp : s.PageReady a) :
    ∃ (t : State) (u : Tgt) (w : Work), exec i s = .next t ∧ u.main = s.tgt.main ∧
      t.tgt = (u.forgetPage (page a)).startBusy w := by
  cases i <;> cases hi
  case writePage data =>
    exact ⟨_, _, _, writePageLoadsAndStartsProgram s a data hu hp, Tgt.loadBuffer_main _ _ _ _, rfl⟩
  case bufferToMemory => exact ⟨_, s.tgt, _, exec_bufferToMemory_ready hu hp, rfl, rfl⟩
  case erasePage => exact ⟨_, s.tgt, _, (erasePageStartsErase s a hu hp).1, rfl, rfl⟩
  case wProg1 data => exact ⟨_, _, _, exec_wProg hu hp false data, Tgt.loadBuffer_main _ _ _ _, rfl⟩
  case wProg2 data => exact ⟨_, _, _, exec_wProg hu hp true data, Tgt.loadBuffer_main _ _ _ _, rfl⟩
  case wB2m1 => exact ⟨_, s.tgt, _, exec_wB2m hu hp false, rfl, rfl⟩
  case wB2m2 => exact ⟨_, s.tgt, _, exec_wB2m hu hp true, rfl, rfl⟩
  case wErase => exact ⟨_, s.tgt, _, exec_wErase hu hp, rfl, rfl⟩

/-- Settles O30: the next state is that of `exec_rewrites`. -/
theorem startingAProgramForgetsItsPageOnly : Obligations.StartingAProgramForgetsItsPageOnly := by
  intro i a s t hi hu hp e
  obtain ⟨t', u, w, e', hmain, htgt⟩ := exec_rewrites hi hu hp
  rw [e] at e'
  cases e'
  rw [htgt]
  refine ⟨rfl, fun x => ?_⟩
  rw [← hmain]
  exact Memory.read_forget _ _ _ _

/-! ### The page-size switch and the power-down command -/

/-- A command of an opcode and at most three more bytes that answers and loads nothing, on an idle target. -/
theorem State.exchanges_plain {s : State} (hm : s.tgt.mode = .idle) {op : Byte} (ho : plainOpcode s.cfg op)
    (args : List Byte) (h : args.length ≤ 3) :
    Tgt.exchanges s.cfg [] (op :: args) (s.tgt.tick s.cfg) = (s.tgt, (op :: args).map fun _ => none) := by
  rw [Tgt.tick_of_idle _ _ hm, Tgt.exchanges_header ho args h]

/-- An idle target that a command's checks turn down (R170 (4)). -/
theorem Tgt.verdict_of_check {cfg : Config} {t : Tgt} {bytes : List Byte} {i : Instr} {f : TgtFault}
    (hd : decodeWire cfg bytes = .ok i) (hm : t.mode = .idle) (hc : t.check cfg i = some f) :
    t.verdict cfg bytes = .error f := by
  simp [Tgt.verdict, hd, hm, gate, hc]

/-- Settles O51: the switch is taken or turned down by its check of the cycles spent, the power-down command
has none. -/
theorem wireSwitchAndPowerDown : Obligations.WireSwitchAndPowerDown := by
  intro s hu hm
  obtain ⟨plainPsz, -, -, plainUdpd, -⟩ := plain_all hu.cfgWf
  have hd := decodeWire_psz hu.cfgWf
  refine ⟨fun hl => ?_, fun hl => ?_, ?_⟩
  · exact wireStep_taken hu (by simp) (State.exchanges_plain hm plainPsz _ (by simp))
      (Tgt.verdict_idle hd hm (if_pos hl))
  · have hv : (s.tgt.tick s.cfg).verdict s.cfg (pageSizeBytes s.cfg) = .error .nvWornOut := by
      rw [Tgt.tick_of_idle _ _ hm]
      exact Tgt.verdict_of_check hd hm (if_neg (Nat.not_lt.2 hl))
    exact wireStep_refused hu.chip (.inl (by simpa [pageSizeBytes] using plainPsz.1)) hv
  · exact wireStep_taken hu (by simp) (State.exchanges_plain hm plainUdpd [] (by simp))
      (Tgt.verdict_idle (decodeWire_udpd hu.cfgWf) hm rfl)

/-! ### What a target turns down -/

/-- An idle target faults on what is no command (R186). -/
theorem Tgt.verdict_unknown {cfg : Config} {t : Tgt} {bytes : List Byte} {why : DecodeError}
    (hd : decodeWire cfg bytes = .error why) (hm : t.mode = .idle) :
    t.verdict cfg bytes = .error .unknownCommand := by
  simp [Tgt.verdict, hd, hm, gate]

/-- A busy target faults on everything but the status read and the pulse (R183). -/
theorem Tgt.verdict_busy {cfg : Config} {t : Tgt} {bytes : List Byte} (hm : t.mode = .busy)
    (hne : bytes ≠ []) (hs : decodeWire cfg bytes ≠ .ok .wStatus) :
    t.verdict cfg bytes = .error .commandWhileBusy := by
  rw [Tgt.verdict, hm]
  cases hd : decodeWire cfg bytes with
  | ok i =>
    have hi : i ≠ .wStatus := fun e => hs (by rw [hd, e])
    simp [gate, hne, hi]
  | error why => simp [gate, hne]

/-- A target in a power-down faults on everything, but for the pulse in ultra-deep power-down (R184, R185). -/
theorem Tgt.verdict_powered_down {cfg : Config} {t : Tgt} {bytes : List Byte}
    (h : (t.mode = .udpd ∧ bytes ≠ []) ∨ t.mode = .dpd) :
    t.verdict cfg bytes = .error .commandWhilePoweredDown := by
  have hg : ∀ st, gate t.mode bytes.length st = some .commandWhilePoweredDown := by
    rcases h with ⟨hm, hne⟩ | hm
    · simp [gate, hm, hne]
    · simp [gate, hm]
  rw [Tgt.verdict]
  split <;> simp [hg]

/-- What is no command has at least one byte: no byte at all is the pulse. -/
theorem ne_nil_of_decodeWire_error {cfg : Config} {bytes : List Byte} {why : DecodeError}
    (hd : decodeWire cfg bytes = .error why) : bytes ≠ [] := by
  rintro rfl
  cases hd

/-- A command that begins with the status opcode is the status read. -/
theorem status_of_head {cfg : Config} {bytes : List Byte} {i : Instr} (hd : decodeWire cfg bytes = .ok i)
    (h : bytes.head? = some cfg.opcStatusRead) : i = .wStatus := by
  cases bytes with
  | nil => cases h
  | cons op args =>
    cases h
    rw [decodeWire, if_pos rfl] at hd
    exact (exactly_ok hd).2.symm

/-- The instructions that are one transaction but EXITUDPD. -/
theorem transactionOf_some {cfg : Config} {pw bw : Bool} {i : Instr}
    (h : (drivenBy cfg pw bw i).isSome = true ∨ i.isWire = true) (hi : i ≠ .exitUdpd) :
    ∃ j bytes, transactionOf cfg pw bw i = some (j, bytes) := by
  cases ht : transactionOf cfg pw bw i with
  | some x => exact ⟨x.1, x.2, rfl⟩
  | none =>
    rcases transactionOf_none ht with rfl | rfl | rfl | rfl | rfl | rfl
    case inr.inr.inl => exact absurd rfl hi
    all_goals simp [drivenBy, Instr.isWire] at h

/-! ### An idle target -/

/-- The checks of an instruction on the main array are those of its page (R170 (4)). -/
theorem transactionOf_pageAddr {cfg : Config} {pw bw : Bool} {i : Instr} {a : Addr}
    (ha : i.pageAddr = some a) :
    ∃ j bytes, transactionOf cfg pw bw i = some (j, bytes) ∧
      ∀ t : Tgt, t.check cfg j = t.pageCheck cfg a := by
  cases i <;> cases ha <;> refine ⟨_, _, rfl, fun t => ?_⟩
  case writePage => cases pw <;> rfl
  case bufferToMemory => exact Tgt.check_b2m t cfg bw a
  all_goals rfl

/-- Those of a buffer load are of the page mode alone (R177, log 16). -/
theorem transactionOf_bufferLoad {cfg : Config} {pw bw : Bool} {i : Instr} (hi : i.isBufferLoad = true) :
    ∃ j bytes, transactionOf cfg pw bw i = some (j, bytes) ∧
      ∀ t : Tgt, t.check cfg j = if t.nvBinary then none else some .nativePageMode := by
  cases i <;> cases hi <;> refine ⟨_, _, rfl, fun t => ?_⟩
  case writeBuffer => cases bw <;> rfl
  all_goals rfl

/-- An instruction of one transaction that an idle target's checks turn down. -/
theorem exec_fault_of_check {s : State} (hu : s.Undisturbed) (hm : s.tgt.mode = .idle) {i j : Instr}
    {bytes : List Byte} (ht : transactionOf s.cfg s.seq.pwSel s.seq.bwSel i = some (j, bytes)) {f : TgtFault}
    (hc : s.tgt.check s.cfg j = some f) : ∃ q, exec i s = .fault (f.toFault q) := by
  have hd := transactionOf_decode hu.cfgWf ht
  refine exec_one_fault hu ht (.inl fun hs => ?_) ?_
  · cases status_of_head hd hs
    cases hc
  · rw [Tgt.tick_of_idle _ _ hm]
    exact Tgt.verdict_of_check hd hm hc

/-- Settles O46: the check that turns the instruction's command down, in the order of R170 (4). -/
theorem wrongPageOrPageModeFaults : Obligations.WrongPageOrPageModeFaults := by
  intro i s hu hm
  refine ⟨fun a ha hpage => ?_, fun a ha hpage hb => ?_, fun hi hb => ?_⟩
  · obtain ⟨j, bytes, ht, hc⟩ := transactionOf_pageAddr ha
    exact exec_fault_of_check hu hm ht (f := .addressOutOfRange)
      ((hc s.tgt).trans (if_neg (Nat.not_lt.2 hpage)))
  · obtain ⟨j, bytes, ht, hc⟩ := transactionOf_pageAddr ha
    exact exec_fault_of_check hu hm ht (f := .nativePageMode)
      ((hc s.tgt).trans (by simp [Tgt.pageCheck, hpage, hb]))
  · obtain ⟨j, bytes, ht, hc⟩ := transactionOf_bufferLoad hi
    exact exec_fault_of_check hu hm ht (f := .nativePageMode) ((hc s.tgt).trans (by simp [hb]))

/-- No exchange takes an idle target out of its mode. -/
theorem Tgt.exchanges_idle (cfg : Config) (before bytes : List Byte) {t : Tgt} (h : t.mode = .idle) :
    (Tgt.exchanges cfg before bytes t).1.mode = .idle :=
  Tgt.exchanges_induct (P := fun u => u.mode = .idle) before bytes t h fun pre _ tx u _ hu =>
    Tgt.exchange_keeps (P := fun u => u.mode = .idle) cfg (before ++ pre) tx u hu (fun _ h => h)
      (by rw [Tgt.tick_of_idle _ _ hu, hu]) fun _ _ _ _ _ _ _ => by simpa using hu

/-- Settles O47: a target that is idle still after the exchanges finds no command in the bytes. -/
theorem unknownTransactionFaults : Obligations.UnknownTransactionFaults := by
  intro s bytes rest why hr hc hp hq hm hd
  have hidle : (Tgt.exchanges s.cfg [] bytes (s.tgt.tick s.cfg)).1.mode = .idle :=
    Tgt.exchanges_idle s.cfg [] bytes (by rw [Tgt.tick_of_idle _ _ hm, hm])
  rw [step_of_unknown hr hp hq hd]
  exact wireStep_fault (s := s.takePacket (.wire bytes) rest) hc (Tgt.verdict_unknown hd hidle)

/-! ### INIT and SETBINARYPAGESIZE of a target that takes no transaction -/

/-- INIT, chip-select high, whose identifier read the target turns down. -/
theorem exec_init_refused {s : State} (hu : s.Undisturbed) (hcs : s.seq.cs = true) {f : TgtFault}
    (hv : (s.tgt.tick s.cfg).verdict s.cfg (queryBytes s.cfg s.cfg.opcIdRead 3) = .error f) :
    faultsWith f (exec .init s) := by
  have hs : (queryBytes s.cfg s.cfg.opcIdRead 3).head? ≠ some s.cfg.opcStatusRead := fun h =>
    Instr.noConfusion (status_of_head (decodeWire_idQuery hu.cfgWf) h)
  have hcalls : (s.resetRegs.performAll (initCalls s.cfg)).1.tgtFault = some f := by
    have h0 := State.performAll_init s.resetRegs
    simp only [State.resetRegs_cfg] at h0
    rw [h0, State.csDeassert_high (s := s.resetRegs) hcs]
    refine State.performAll_refused ?_ (exchangesOf_query _ _ 3) (.inl hs) hv
    exact hu.reaches
  exact exec_faultsWith (i := .init) rfl hu.noReset
    (State.carryOn_tgtFault (s := s.resetRegs) (by simp) hu.noReset hcalls 3)

/-- SETBINARYPAGESIZE whose status read the target turns down. -/
theorem exec_setBinaryPageSize_refused {s : State} (hu : s.Undisturbed)
    (hm : s.tgt.mode = .udpd ∨ s.tgt.mode = .dpd) {f : TgtFault}
    (hv : (s.tgt.tick s.cfg).verdict s.cfg (queryBytes s.cfg s.cfg.opcStatusRead 2) = .error f) :
    faultsWith f (exec .setBinaryPageSize s) :=
  exec_faultsWith (i := .setBinaryPageSize) rfl hu.noReset
    (State.carryOn_tgtFault (by simp) hu.noReset
      (State.performAll_refused hu.reaches (exchangesOf_query _ _ 2) (.inr hm) hv) 3)

/-- SETBINARYPAGESIZE of a native chip that answers the status read and turns the switch down: the fault stands
wherever SEQ then rests. -/
theorem exec_setBinaryPageSize_switch_refused {s : State} (hu : s.Undisturbed)
    (hm : s.tgt.mode = .idle ∨ s.tgt.mode = .busy) (hb : (s.tgt.tick s.cfg).nvBinary = false) {f : TgtFault}
    (hv : (((s.tgt.tick s.cfg).drawn.tick s.cfg).drawn.tick s.cfg).verdict s.cfg (pageSizeBytes s.cfg) =
      .error f) :
    faultsWith f (exec .setBinaryPageSize s) := by
  have hread := State.performAll_status hu.reaches hm
  have htgt : (s.performAll (statusCalls s.cfg)).1.tgt = ((s.tgt.tick s.cfg).drawn.tick s.cfg).drawn := by
    rw [hread]
  have hfault : (s.performAll (statusCalls s.cfg)).1.tgtFault = none := by
    rw [hread]
    exact hu.noFault
  have hs : (pageSizeBytes s.cfg).head? ≠ some s.cfg.opcStatusRead := fun h =>
    Instr.noConfusion (status_of_head (decodeWire_psz hu.cfgWf) h)
  have hswitch : (s.performAll (statusCalls s.cfg)).1.endStage (.sizeCheck .host)
      (s.performAll (statusCalls s.cfg)).2 = (s.performAll (statusCalls s.cfg)).1.begin
        (.sizeSwitch .host) (sendCalls (pageSizeBytes s.cfg)) := by
    rw [hread]
    simp only [State.endStage, binary_statusOf, Tgt.byte1_binary, hb]
    rfl
  refine exec_faultsWith (i := .setBinaryPageSize) rfl hu.noReset ?_
  rw [State.resume, State.carryOn_next (by simp) hu.noReset 2 hswitch rfl]
  refine State.carryOn_tgtFault (by simp) ((s.performAll_resetIn _).trans hu.noReset)
    (State.performAll_refused (State.reaches_iff.2 ⟨?_, hfault⟩) (exchangesOf_discards _) (.inl ?_) ?_) 2
  · rw [State.performAll_cfg]
    exact hu.chip
  · rw [State.performAll_cfg]
    exact hs
  · rw [State.performAll_cfg, htgt]
    exact hv

/-! ### A target in a power-down -/

/-- EXITUDPD in deep power-down, which the pulse does not end (R185). -/
theorem exec_exitUdpd_fault {s : State} (hu : s.Undisturbed) (hm : s.tgt.mode = .dpd) :
    ∃ q, exec .exitUdpd s = .fault (.commandWhilePoweredDown q) := by
  have hv : (s.tgt.tick s.cfg).verdict s.cfg [] = .error .commandWhilePoweredDown :=
    Tgt.verdict_powered_down (.inr ((s.tgt.tick_dpd s.cfg).2 hm))
  rw [exec_opening (i := .exitUdpd) rfl, State.serve_piece (by simp) hu.noReset rfl,
    State.performAll_wake hu.reaches, Tgt.latch_error hv]
  exact ⟨_, State.finish_idle (f := .commandWhilePoweredDown) rfl rfl⟩

/-- Settles O45: such a target turns down every transaction of at least one byte, and in deep power-down the
pulse. -/
theorem poweredDownTargetFaults : Obligations.PoweredDownTargetFaults := by
  intro s hu hm
  have htick : s.tgt.tick s.cfg = s.tgt :=
    Tgt.tick_of_not_busy _ _ (by rcases hm with h | h <;> simp [h])
  have refused : ∀ bytes : List Byte, bytes ≠ [] ∨ s.tgt.mode = .dpd →
      (s.tgt.tick s.cfg).verdict s.cfg bytes = .error .commandWhilePoweredDown := fun bytes h => by
    rw [htick]
    refine Tgt.verdict_powered_down ?_
    rcases hm with hm | hm
    · exact .inl ⟨hm, h.resolve_right (by simp [hm])⟩
    · exact .inr hm
  refine ⟨fun i hi hmode => ?_, fun hcs => exec_init_refused hu hcs (refused _ (.inl (by simp [queryBytes]))),
    exec_setBinaryPageSize_refused hu hm (refused _ (.inl (by simp [queryBytes]))),
    fun bytes rest why hp hq hd => ?_⟩
  · by_cases hexit : i = .exitUdpd
    · subst hexit
      exact exec_exitUdpd_fault hu (hmode.resolve_left (by simp))
    · obtain ⟨j, bytes, ht⟩ := transactionOf_some hi hexit
      refine exec_one_fault hu ht (.inr hm) (refused bytes (hmode.imp_left fun h hnil => ?_))
      subst hnil
      cases transactionOf_decode hu.cfgWf ht
      exact h.2 (transactionOf_wake ht)
  · rw [step_of_unknown (by simp [hu.noReset]) hp hq hd]
    exact wireStep_refused (s := s.takePacket (.wire bytes) rest) hu.chip (.inr hm)
      (refused bytes (.inl (ne_nil_of_decodeWire_error hd)))

/-! ### A busy target -/

/-- The target is busy, and its window lets at least `n` opportunities pass (R182). -/
structure Tgt.BusyFor (n : Nat) (t : Tgt) : Prop where
  mode : t.mode = .busy
  passes : ∀ m, t.fate.after = some m → n ≤ m

/-- Such an opportunity is nothing to the target, or takes one off the count. -/
theorem Tgt.BusyFor.tick_eq {n : Nat} {t : Tgt} (h : t.BusyFor (n + 1)) (cfg : Config) :
    ∃ after, t.tick cfg = { t with fate := { t.fate with after := after } } ∧
      ∀ m, after = some m → n ≤ m := by
  rcases t.tick_cases cfg with ⟨e, -⟩ | ⟨-, h0, -⟩ | ⟨k, -, hk, e⟩
  · exact ⟨t.fate.after, e, fun m hm => (Nat.le_succ n).trans (h.passes m hm)⟩
  · exact absurd (h.passes 0 h0) (Nat.not_succ_le_zero n)
  · refine ⟨some k, e, fun m hm => ?_⟩
    cases hm
    exact Nat.le_of_succ_le_succ (h.passes _ hk)

theorem Tgt.BusyFor.tick {n : Nat} {t : Tgt} (h : t.BusyFor (n + 1)) (cfg : Config) :
    (t.tick cfg).BusyFor n := by
  obtain ⟨after, e, hafter⟩ := h.tick_eq cfg
  rw [e]
  exact ⟨h.mode, hafter⟩

theorem Tgt.BusyFor.tick_nvBinary {n : Nat} {t : Tgt} (h : t.BusyFor (n + 1)) (cfg : Config) :
    (t.tick cfg).nvBinary = t.nvBinary := by
  obtain ⟨after, e, -⟩ := h.tick_eq cfg
  rw [e]

theorem Tgt.BusyFor.drawn {n : Nat} {t : Tgt} (h : t.BusyFor n) : t.drawn.BusyFor n := ⟨h.mode, h.passes⟩

/-- After the two status bytes no exchange of a status read does anything (R171). -/
theorem Tgt.quiet_status_over (cfg : Config) (args : List Byte) (h : 2 ≤ args.length) (t : Tgt) :
    t.Quiet cfg (cfg.opcStatusRead :: args) := by
  intro tx
  have hbyte : t.statusByte cfg args.length = (t, none) := by
    obtain ⟨k, hk⟩ := Nat.exists_eq_add_of_le' h
    rw [hk]
    rfl
  rw [Tgt.exchange_cons, if_pos rfl, hbyte, ite_self]

/-- A transaction that begins with the status opcode meets the same window at its `CS1`, if the one opportunity
inside it passes. -/
theorem Tgt.exchanges_status_busy (cfg : Config) (args : List Byte) {t : Tgt} (h : t.BusyFor 1) :
    (Tgt.exchanges cfg [] (cfg.opcStatusRead :: args) t).1.mode = .busy := by
  have hhears : t.hears true = true := by simp [Tgt.hears, h.mode]
  match args with
  | [] => exact h.mode
  | [x] => simp [Tgt.exchanges_cons, Tgt.exchange, hhears, Tgt.statusByte, h.mode]
  | x :: y :: rest =>
    have hpassed : (t.drawn.tick cfg).drawn.mode = .busy := (h.drawn.tick cfg).mode
    have hrest := Tgt.exchanges_quiet (cfg := cfg) (t := (t.drawn.tick cfg).drawn)
      (before := [cfg.opcStatusRead, x, y]) rest fun pre _ _ _ =>
        Tgt.quiet_status_over cfg (x :: y :: pre) (by simp) _
    rw [show cfg.opcStatusRead :: x :: y :: rest = [cfg.opcStatusRead, x, y] ++ rest from rfl,
      Tgt.exchanges_append, Tgt.exchanges_status cfg x y (.inr h.mode), List.nil_append, hrest]
    exact hpassed

/-- A raw transaction that is no command, on a busy target whose window lasts through it. -/
theorem wireStep_unknown_busy {s : State} (hc : s.cfg.chipPresent = true) (h : s.tgt.BusyFor 1)
    {bytes : List Byte} {why : DecodeError} (hd : decodeWire s.cfg bytes = .error why)
    (hs : bytes.head? = some s.cfg.opcStatusRead → s.tgt.BusyFor 2) :
    wireStep s bytes = .fault (.commandWhileBusy s.seq) := by
  refine wireStep_fault hc (f := .commandWhileBusy)
    (Tgt.verdict_busy ?_ (ne_nil_of_decodeWire_error hd) (by simp [hd]))
  by_cases hhead : bytes.head? = some s.cfg.opcStatusRead
  · obtain ⟨args, rfl⟩ := List.head?_eq_some_iff.1 hhead
    exact Tgt.exchanges_status_busy s.cfg args ((hs hhead).tick s.cfg)
  · exact (Tgt.exchanges_frame hhead _).1.trans (h.tick s.cfg).mode

/-- The command of an instruction is one a busy target defines only if the instruction is (R188). -/
theorem transactionOf_busyLegal {cfg : Config} {pw bw : Bool} {i j : Instr} {bytes : List Byte}
    (h : transactionOf cfg pw bw i = some (j, bytes)) (hi : i.busyLegal = false) : j.busyLegal = false := by
  cases i <;> cases hi <;> cases h
  case writePage => cases pw <;> rfl
  case writeBuffer => cases bw <;> rfl
  case bufferToMemory => cases bw <;> rfl
  all_goals rfl

/-- An instruction of one transaction that a busy target does not define. -/
theorem exec_fault_of_busy {s : State} (hu : s.Undisturbed) (h : (s.tgt.tick s.cfg).mode = .busy) {i j : Instr}
    {bytes : List Byte} (ht : transactionOf s.cfg s.seq.pwSel s.seq.bwSel i = some (j, bytes))
    (hi : i.busyLegal = false) :
    ∃ q, exec i s = .fault (.commandWhileBusy q) := by
  have hd := transactionOf_decode hu.cfgWf ht
  have hj := transactionOf_busyLegal ht hi
  have hstatus : j ≠ .wStatus := by rintro rfl; cases hj
  have hne : bytes ≠ [] := by rintro rfl; cases hd; cases hj
  exact exec_one_fault hu ht (.inl fun hs => hstatus (status_of_head hd hs))
    (Tgt.verdict_busy h hne fun e => hstatus (Except.ok.inj (hd.symm.trans e)))

/-- Settles O44: each of these transactions meets a window that lasts through it, and is no status read and no
pulse. -/
theorem busyTargetFaults : Obligations.BusyTargetFaults := by
  intro s hu hm hf
  have busy : s.tgt.BusyFor 1 := ⟨hm, fun n hn => Nat.pos_of_ne_zero fun h => hf (h ▸ hn)⟩
  have htick : (s.tgt.tick s.cfg).mode = .busy := (busy.tick s.cfg).mode
  refine ⟨fun i hi hone => ?_, fun hcs => ?_, fun hb hn => ?_, fun bytes rest why hp hq hd hn => ?_⟩
  · obtain ⟨j, bytes, ht⟩ := transactionOf_some hone (by rintro rfl; cases hi)
    exact exec_fault_of_busy hu htick ht hi
  · exact exec_init_refused hu hcs (Tgt.verdict_busy htick (by simp [queryBytes])
      (by simp [decodeWire_idQuery hu.cfgWf]))
  · have lasts : s.tgt.BusyFor 3 := ⟨hm, hn⟩
    have hlast : (((s.tgt.tick s.cfg).drawn.tick s.cfg).drawn.tick s.cfg).mode = .busy :=
      ((lasts.tick s.cfg).drawn.tick s.cfg).drawn.tick s.cfg |>.mode
    exact exec_setBinaryPageSize_switch_refused hu (.inr hm) ((lasts.tick_nvBinary s.cfg).trans hb)
      (Tgt.verdict_busy hlast (by simp [pageSizeBytes]) (by simp [decodeWire_psz hu.cfgWf]))
  · rw [step_of_unknown (by simp [hu.noReset]) hp hq hd]
    exact wireStep_unknown_busy (s := s.takePacket (.wire bytes) rest) hu.chip busy hd fun h => ⟨hm, hn h⟩

end Sys2Proof.Machine
end

section
/-! PROOFS. The statements of the families of spec/60_exceptions.md and spec/70_reset_and_hazards.md: SEQ's side of
an operation whatever the target does, a host that keeps its duties, the poll loop after a fault, and the reset. -/

namespace Sys2Proof.Machine

/-! ### What SEQ drives -/

/-- The exchanges of a transaction drive its bytes, whatever becomes of those received. -/
theorem exchangesOf_driven {bytes : List Byte} {mid : List Call} (h : exchangesOf bytes mid) :
    mid.map Call.driven = bytes.map fun b => .x b none := by
  obtain ⟨hx, rfl⟩ := h
  induction mid with
  | nil => rfl
  | cons c mid ih =>
    obtain ⟨tx, sink, rfl⟩ := hx c (by simp)
    exact congrArg (.x tx none :: ·) (ih fun c hc => hx c (by simp [hc]))

/-- So a transaction drives its bytes between `CS0` and `CS1`. -/
theorem xactCalls_driven {bytes : List Byte} {mid : List Call} (h : exchangesOf bytes mid) :
    (xactCalls mid).map Call.driven = sentEvents bytes := by
  simp [xactCalls, sentEvents, exchangesOf_driven h, Call.driven]

/-- The bytes of a page read: its header has four dummies (30_encoding.md R77). -/
theorem readHeader_append_dummies (cfg : Config) (a : Addr) (n : Nat) :
    readHeader cfg a ++ List.replicate n cfg.dummy =
      cfg.opcPageRead :: (addrBytes a ++ List.replicate (4 + n) cfg.dummy) := by
  simp [readHeader, List.replicate_add]

theorem readCalls_driven (cfg : Config) (a : Addr) (n : Nat) :
    (readCalls cfg a n).map Call.driven =
      sentEvents (cfg.opcPageRead :: (addrBytes a ++ List.replicate (4 + n) cfg.dummy)) := by
  rw [← readHeader_append_dummies]
  exact xactCalls_driven (exchangesOf_read cfg a n)

/-- An operation of one transaction is one piece, whose calls drive what the formats say. -/
theorem opening_of_drivenBy {i : Instr} {s : State} {es : List BusEvent}
    (h : drivenBy s.cfg s.seq.pwSel s.seq.bwSel i = some es) :
    ∃ u g cs, opening i s = some (u, g, cs) ∧ cs.map Call.driven = es ∧
      ∀ (v : State) (kept : List Byte), (v.endStage g kept).seq.pc = .idle := by
  have query (op : Byte) (k : Nat) : (queryCalls s.cfg op k).map Call.driven =
      sentEvents (op :: List.replicate k s.cfg.dummy) := xactCalls_driven (exchangesOf_query _ _ _)
  have send (bytes : List Byte) : (sendCalls bytes).map Call.driven = sentEvents bytes :=
    xactCalls_driven (exchangesOf_discards bytes)
  cases i <;> cases h <;> refine ⟨_, _, _, rfl, ?_, fun _ _ => rfl⟩
  case readPage a n => exact readCalls_driven s.cfg a n
  case getStatus => exact query _ 2
  case isReady => exact query _ 2
  case isErrorFlagged => exact query _ 2
  case getId => exact query _ 3
  case exitUdpd => rfl
  all_goals exact send _

/-- Such an operation is one of the thirteen, and not INIT. -/
theorem operation_of_drivenBy {cfg : Config} {pw bw : Bool} {i : Instr} {es : List BusEvent}
    (h : drivenBy cfg pw bw i = some es) : i.isOperation = true ∧ i ≠ .init := by
  cases i <;> cases h <;> exact ⟨rfl, by simp⟩

/-- Settles O42: the operation's one piece drives its calls, and it ends as every operation does that no reset
strikes (`exec_ended`). -/
theorem seqDrivesTheBusWhateverTheTarget : Obligations.SeqDrivesTheBusWhateverTheTarget := by
  intro i s es hr h
  obtain ⟨hop, hinit⟩ := operation_of_drivenBy h
  obtain ⟨u, g, cs, ho, rfl, hidle⟩ := opening_of_drivenBy h
  obtain ⟨-, -, -, -, -, f6, -, -, -, -, f11, -⟩ := opening_frame ho
  obtain ⟨hne, -⟩ := opening_calls ho
  have hseq := State.seqOf_serve (f6.trans hr) hne (hidle _ _)
  obtain ⟨e, he, hcs, hend⟩ := exec_ended hop hr
  rw [← exec_opening ho, he, State.seqOf_finish, Option.some.injEq] at hseq
  have hpc : e.seq.pc = .idle := hseq ▸ hidle _ _
  rcases hend with ⟨-, v, hv⟩ | ⟨c, hc, -⟩
  · refine ⟨e.seq, v, by rw [he, State.seqOf_finish], ?_, hv, hpc, hcs⟩
    rw [hseq, State.endStage_seq_trace, State.performAll_driven, f11, if_neg hinit]
  · rw [hpc] at hc; cases hc

/-! ### A bus without a chip -/

/-- SEQ, wherever it stands, goes on without a fault there (93_implementation_defined.md U3). -/
theorem State.resume_noChip {s : State} (hc : s.cfg.chipPresent = false) (hf : s.tgtFault = none) :
    s.resume.tgtFault = none :=
  (State.resume_keeps (P := fun v => v.cfg.chipPresent = false ∧ v.tgtFault = none)
    (fun _ h => State.callStep_noChip h) ⟨hc, hf⟩).2

/-- Settles O43: nothing raises a fault on such a bus, so the state in which the operation has ended is the
next one. -/
theorem everyOperationRunsWithoutAChip : Obligations.EveryOperationRunsWithoutAChip := by
  intro i s hi hr hchip hf
  obtain ⟨u, g, cs, ho⟩ := opening_of_operation hi s
  obtain ⟨f1, -, -, f4, -⟩ := opening_frame ho
  have hfault : (u.begin g cs).resume.tgtFault = none :=
    State.resume_noChip (by rw [State.begin_cfg, f1, hchip]) (f4.trans hf)
  have hnext : exec i s = .next (u.begin g cs).resume :=
    (exec_opening ho).trans (State.finish_of_ok hfault)
  obtain ⟨e, he, hcs, hend⟩ := exec_ended hi hr
  obtain ⟨rfl, -⟩ := State.finish_next (he.symm.trans hnext)
  obtain ⟨hcfg, -⟩ := exec_steady steady_const hnext
  rw [hcfg] at hend
  exact ⟨_, hnext, hcs, hend⟩

/-! ### A host that keeps its duties -/

/-- INIT of an idle chip, chip-select high, is carried out, whatever the identifier and the page mode. -/
theorem exec_init_runs {s : State} (hu : s.Undisturbed) (hm : s.tgt.mode = .idle)
    (hl : s.tgt.nvCycles < s.cfg.nvCycleLimit) (hcs : s.seq.cs = true) : ∃ t, exec .init s = .next t := by
  by_cases hid : s.tgt.devId = 0x1F2600 ∨ s.cfg.initCfgOnIdMismatch = true
  · cases hb : s.tgt.nvBinary with
    | true => exact ⟨_, initOfBinaryChip s hu hcs hm hb hid⟩
    | false => exact ⟨_, initOfNativeChipSwitchesOnce s hu hcs hm hb hl hid⟩
  · rw [not_or, Bool.not_eq_true] at hid
    exact ⟨_, exec_init_mismatch hu hcs hm hid.1 hid.2⟩

/-- SETBINARYPAGESIZE of an idle chip is carried out, whatever the page mode. -/
theorem exec_setBinaryPageSize_runs {s : State} (hu : s.Undisturbed) (hm : s.tgt.mode = .idle)
    (hl : s.tgt.nvCycles < s.cfg.nvCycleLimit) : ∃ t, exec .setBinaryPageSize s = .next t := by
  obtain ⟨binary, native⟩ := setBinaryReturnsAtOnceOrSwitches s hu hm
  cases hb : s.tgt.nvBinary with
  | true => exact ⟨_, binary hb⟩
  | false => exact ⟨_, native hb hl⟩

/-- Settles O48: under its duty each instruction has the next state that its own lemma gives. -/
theorem dutifulHostNeverFaults : Obligations.DutifulHostNeverFaults := by
  intro i s hu hd
  cases i with
  | init =>
    obtain ⟨hm, hl, hcs⟩ := hd
    exact exec_init_runs hu hm hl hcs
  | getStatus => exact ⟨_, State.serve_status hu hd getStatus_returns⟩
  | isReady => exact ⟨_, State.serve_status hu hd isReady_returns⟩
  | isErrorFlagged => exact ⟨_, State.serve_status hu hd isErrorFlagged_returns⟩
  | getId => exact ⟨_, getIdCachesTheIdentifier s hu hd⟩
  | readPage a n => exact ⟨_, exec_readPage_ready hu hd n⟩
  | writePage a d => exact ⟨_, writePageLoadsAndStartsProgram s a d hu hd⟩
  | writeBuffer o d => exact ⟨_, exec_writeBuffer_idle hu hd.1 hd.2 o d⟩
  | bufferToMemory a => exact ⟨_, exec_bufferToMemory_ready hu hd⟩
  | erasePage a => exact ⟨_, (erasePageStartsErase s a hu hd).1⟩
  | setBinaryPageSize => exact exec_setBinaryPageSize_runs hu hd.1 hd.2
  | enterUdpd => exact ⟨_, enterUdpdPowersDown s hu hd⟩
  | exitUdpd => exact ⟨_, exec_exitUdpd hu hd⟩
  | reserved13 => exact hd.elim
  | reserved14 => exact hd.elim
  | reserved15 => exact hd.elim
  | wStatus => exact ⟨_, exec_wStatus hu hd⟩
  | wId => exact ⟨_, exec_wId hu hd⟩
  | wPsz => exact ⟨_, (wireSwitchAndPowerDown s hu hd.1).1 hd.2⟩
  | wRead a n => exact ⟨_, exec_wRead hu hd n⟩
  | wProg1 a d => exact ⟨_, exec_wProg hu hd false d⟩
  | wProg2 a d => exact ⟨_, exec_wProg hu hd true d⟩
  | wBufw1 a d => exact ⟨_, exec_wBufw hu hd.1 hd.2 a false d⟩
  | wBufw2 a d => exact ⟨_, exec_wBufw hu hd.1 hd.2 a true d⟩
  | wB2m1 a => exact ⟨_, exec_wB2m hu hd false⟩
  | wB2m2 a => exact ⟨_, exec_wB2m hu hd true⟩
  | wErase a => exact ⟨_, exec_wErase hu hd⟩
  | wUdpd => exact ⟨_, (wireSwitchAndPowerDown s hu hd).2.2⟩
  | wWake => exact ⟨_, exec_wWake hu.chip hd⟩

/-! ### The poll loop after a fault -/

/-- A step that ends inside an operation reports no fault (log 10). -/
theorem State.finish_of_running {s : State} {g : Stage} {cs : List Call} {kept : List Byte}
    (hp : s.seq.pc = .running g cs kept) : s.finish = .next s := by
  rcases s.finish_cases with ⟨e, -⟩ | ⟨f, -, hn, -⟩
  · exact e
  · exact absurd hp (hn g cs kept)

/-- One that ends at INIT's start reports the fault pending (60_exceptions.md R207). -/
theorem State.finish_initStart {s : State} {f : TgtFault} (hf : s.tgtFault = some f)
    (hp : s.seq.pc = .initStart) : s.finish = .fault (f.toFault s.seq) := by
  simp [State.finish, hf, hp]

/-- A fault the target has raised stays through any list of calls (60_exceptions.md R207). -/
theorem State.performAll_tgtFault {s : State} {f : TgtFault} (h : s.tgtFault = some f) (cs : List Call) :
    (s.performAll cs).1.tgtFault = some f :=
  State.performAll_keeps (P := fun u => u.tgtFault = some f) (fun _ c h => State.perform_tgtFault h c) cs h

/-- SEQ's side of a status read, whatever comes back: the two bytes it keeps are those on the bus trace. -/
theorem State.performAll_status_seq (s : State) :
    ∃ b1 b2, (s.performAll (statusCalls s.cfg)).2 = [b1, b2] ∧
      (s.performAll (statusCalls s.cfg)).1.seq = { s.seq with
        trace := s.seq.trace ++ statusEvents s.cfg b1 b2, cs := true } := by
  obtain ⟨hl, hs⟩ := s.performAll_query_seq s.cfg s.cfg.opcStatusRead 2
  obtain ⟨b1, b2, hb⟩ := List.length_eq_two.1 hl
  rw [hb] at hs
  exact ⟨b1, b2, hb, hs⟩

/-- SEQ's side of the return of SETBINARYPAGESIZE: its boolean to the host, and inside INIT zero and, unless the
chip is binary, `ID_CACHE <- 0` (40_init.md R102, R103). -/
theorem State.pageSizeReturn_seq (s : State) (c : Caller) (ok : Bool) :
    (s.pageSizeReturn c ok).seq = { s.seq with
      pc := .idle
      idCache := if c = .init ∧ ok = false then 0 else s.seq.idCache
      resp := some ⟨true, if c = .host ∧ ok = true then 1 else 0⟩ } := by
  cases c <;> cases ok <;> rfl

/-- A turn whose byte1 shows busy: the loop goes on, its turn being one status read (42_page_size.md R121). -/
theorem step_of_polling_seen_busy {s : State} (hr : s.resetIn = none) {c : Caller}
    (hp : s.seq.pc = .polling s.cfg c) {b1 b2 : Byte}
    (hb : (s.performAll (statusCalls s.cfg)).2 = [b1, b2]) (h : b1.getLsbD 7 = false) :
    step s = .next ((s.performAll (statusCalls s.cfg)).1.poll c) := by
  have hend : (s.performAll (statusCalls s.cfg)).1.endStage (.sizePoll c)
      (s.performAll (statusCalls s.cfg)).2 = (s.performAll (statusCalls s.cfg)).1.poll c := by
    simp only [State.endStage, hb, ready_statusOf, h]
    rfl
  rw [step_of_polling hr hp, State.carryOn_last (by simp) hr 3 hend rfl]
  exact State.finish_of_running rfl

/-- The turn whose byte1 shows ready: the re-check, whose byte1 says what SETBINARYPAGESIZE returns. -/
theorem step_of_polling_seen_ready {s : State} (hr : s.resetIn = none) {c : Caller}
    (hp : s.seq.pc = .polling s.cfg c) {b1 b2 : Byte}
    (hb : (s.performAll (statusCalls s.cfg)).2 = [b1, b2]) (h : b1.getLsbD 7 = true) :
    let u := (s.performAll (statusCalls s.cfg)).1
    step s = ((u.performAll (statusCalls u.cfg)).1.pageSizeReturn c
      (binary (statusOf (u.performAll (statusCalls u.cfg)).2))).finish := by
  intro u
  have hend : u.endStage (.sizePoll c) (s.performAll (statusCalls s.cfg)).2 =
      u.begin (.sizeRecheck c) (statusCalls u.cfg) := by
    simp only [State.endStage, hb, ready_statusOf, h]
    rfl
  rw [step_of_polling hr hp, State.carryOn_next (by simp) hr 2 hend rfl,
    State.carryOn_last (by simp) ((s.performAll_resetIn _).trans hr) 2 rfl (by cases c <;> rfl)]
  rfl

/-- Settles O17: a due reset comes first; else the bytes of the turn's status read, drawn or not, say whether
the loop goes on or the re-check ends it, and no call clears the fault. -/
theorem pollLoopGoesOnAfterAFault : Obligations.PollLoopGoesOnAfterAFault := by
  intro s c f hf hp
  refine ⟨fun hr => ?_, fun hr => ?_⟩
  · rw [step_of_reset hr]
    exact State.finish_initStart hf rfl
  obtain ⟨b1, b2, hb, hs⟩ := s.performAll_status_seq
  refine ⟨b1, b2, fun h => ⟨_, step_of_polling_seen_busy hr hp hb h, State.performAll_tgtFault hf _, ?_⟩,
    fun h => ?_⟩
  · rw [State.poll, State.begin, State.performAll_cfg, hs, ← SeqPc.polling, ← hp]
  · obtain ⟨b3, b4, hb', hs'⟩ := (s.performAll (statusCalls s.cfg)).1.performAll_status_seq
    refine ⟨b3, b4, ?_⟩
    rw [step_of_polling_seen_ready hr hp hb h, hb', binary_statusOf, State.finish_idle (f := f),
      State.pageSizeReturn_seq, hs', hs, State.performAll_cfg]
    · simp
    · rw [State.pageSizeReturn_tgtFault]
      exact State.performAll_tgtFault (State.performAll_tgtFault hf _) _
    · rw [State.pageSizeReturn_seq]

/-! ### Reset entry and the reset input -/

/-- Settles O52: the values stand in `State.reset`, whose buffers list no cell. -/
theorem resetEntryValues : Obligations.ResetEntryValues :=
  ⟨rfl, rfl, rfl, rfl, rfl, fun _ => ⟨rfl, rfl⟩⟩

/-- Settles O53: a due reset comes before anything else SEQ would do. -/
theorem resetInputStartsInitAgain : Obligations.ResetInputStartsInitAgain := by
  intro s hr hf
  rw [step_of_reset hr]
  exact State.finish_of_ok hf

/-! ### A reset inside a transaction -/

@[simp] theorem sendCalls_length (bytes : List Byte) : (sendCalls bytes).length = bytes.length + 2 := by
  simp [sendCalls, xactCalls, discards]

@[simp] theorem readCalls_length (cfg : Config) (a : Addr) (n : Nat) :
    (readCalls cfg a n).length = n + 10 := by
  simp [readCalls, xactCalls, discards, readHeader]
  omega

/-- An operation in whose first piece the reset strikes, no fault having been raised: the calls before it, and the
reset. -/
theorem State.serve_cut_next {s : State} {g : Stage} {cs : List Call} {m : Nat} (hm : m < cs.length)
    (hr : s.resetIn = some m) (hf : (s.performAll (cs.take m)).1.tgtFault = none) :
    s.serve g cs = .next (s.performAll (cs.take m)).1.assertReset :=
  (State.serve_cut hm hr).trans (State.finish_of_ok hf)

/-- The first calls of a transaction that keeps nothing, up to an exchange, on an idle target. -/
theorem State.performAll_sent {s : State} (h : s.reaches = true) (hm : s.tgt.mode = .idle)
    (bytes : List Byte) :
    (s.performAll (.csAssert :: discards bytes)).1 = { s with
      tgt := (Tgt.exchanges s.cfg [] bytes s.tgt).1
      shifted := bytes
      seq := { s.seq with
        trace := s.seq.trace ++ .cs0 :: bytes.map (fun b => .x b none), cs := false } } := by
  have hr : s.csAssert.reaches = true := h
  rw [State.performAll_cons, State.perform, State.performAll_discards hr, State.csAssert_reached h,
    Tgt.tick_of_idle _ _ hm]
  simp

/-- The first calls of a page read: those of its header, and then of its data phase. -/
theorem take_readCalls (cfg : Config) (a : Addr) {n k : Nat} (h : k ≤ n + 8) :
    (readCalls cfg a n).take (k + 1) = .csAssert :: discards ((readHeader cfg a).take k) ++
      (List.range (k - 8)).map fun i => .xchg cfg.dummy (.hostOut i) := by
  have hl : (discards (readHeader cfg a)).length = 8 := rfl
  have hn : min (k - 8) n = k - 8 := by omega
  rw [readCalls, xactCalls, List.take_succ_cons, List.take_append_of_le_length (by simp [hl]; omega),
    List.take_append, hl, ← List.map_take, List.take_range, hn]
  simp [discards, List.map_take]

/-- The first calls of a page read, up to an exchange, on a target ready for the page: the host has the cells that
came (43_page_read.md R130, 20_memory.md R55). -/
theorem State.performAll_read_cut {s : State} (h : s.reaches = true) (hw : s.cfg.wf = true) {a : Addr}
    (hp : s.PageReady a) {n k : Nat} (hk : k ≤ n + 8) :
    let got := Draws.fill ((List.range (k - 8)).map (s.tgt.pageCell a)) s.tgt.free
    (s.performAll ((readCalls s.cfg a n).take (k + 1))).1 = { s with
      tgt := { s.tgt with free := got.2 }
      shifted := (readHeader s.cfg a ++ List.replicate n s.cfg.dummy).take k
      seq := { s.seq with
        trace := s.seq.trace ++ .cs0 :: (((readHeader s.cfg a).take k).map (fun b => .x b none) ++
          got.1.map (fun b => .x s.cfg.dummy (some b)))
        cs := false
        hostBuf := got.1 ++ s.seq.hostBuf.drop (k - 8) } } := by
  intro got
  have hhead := State.performAll_sent h hp.idle ((readHeader s.cfg a).take k)
  rw [Tgt.exchanges_readHeader_take hw] at hhead
  have hl : (readHeader s.cfg a).length = 8 := rfl
  rw [take_readCalls _ _ hk, State.performAll_append, hhead, List.take_append, hl, List.take_replicate,
    Nat.min_eq_left (by omega)]
  obtain hk8 | hk8 := Nat.le_total k 8
  · have hz : k - 8 = 0 := by omega
    simp [got, hz]
  · have hdata := State.performAll_readData (s := { s with
        shifted := readHeader s.cfg a
        seq := { s.seq with
          trace := s.seq.trace ++ .cs0 :: (readHeader s.cfg a).map (fun b => .x b none), cs := false } })
      h hw a hp.idle (fun _ => Tgt.pageCheck_ready hp s.tgt rfl) (k - 8) [] s.seq.hostBuf (by simp) rfl
    simp only [List.length_nil, ← List.range_eq_range'] at hdata
    rw [List.take_of_length_le hk8, hdata]
    simp [got]

/-- Where the reset has struck between two calls of a transaction: chip-select is low with the bytes sent so far
shifted in, and SEQ's registers have their reset values (70_reset_and_hazards.md R231). -/
def State.CutAfter (t : State) (sent : List Byte) : Prop :=
  t.shifted = sent ∧ t.seq.cs = false ∧ t.seq.pc = .initStart ∧ t.seq.idCache = 0 ∧
    t.seq.pwSel = false ∧ t.seq.bwSel = false ∧ t.seq.resp = none ∧ t.seq.trace = [] ∧
    t.resetIn = none ∧ t.tgtFault = none

/-- A reset that strikes with chip-select low and no fault raised. -/
theorem State.assertReset_cutAfter {s : State} {sent : List Byte} (hs : s.shifted = sent)
    (hcs : s.seq.cs = false) (hf : s.tgtFault = none) : s.assertReset.CutAfter sent :=
  ⟨hs, hcs, rfl, rfl, rfl, rfl, rfl, rfl, rfl, hf⟩

/-- WRITEPAGE of which chip-select and `k` exchanges have been made: the data bytes that came are in the buffer
(47_target.md R175). -/
theorem exec_writePage_cut {s : State} (h : s.reaches = true) (hw : s.cfg.wf = true) {a : Addr}
    (hp : s.PageReady a) {k : Nat} (hr : s.resetIn = some (k + 1)) {data : List Byte}
    (hk : k < data.length + 5) :
    ∃ t : State, exec (.writePage a data) s = .next t ∧
      t.CutAfter ((addrHeader (progOpcode s.cfg s.seq.pwSel) a ++ data).take k) ∧
      t.tgt = s.tgt.loadBuffer (selBuf s.seq.pwSel) a (data.take (k - 4)) := by
  obtain ⟨-, hf⟩ := State.reaches_iff.1 h
  have hl : (addrHeader (progOpcode s.cfg s.seq.pwSel) a).length = 4 := rfl
  have hsent := State.performAll_sent (s := s.turnPwSel) h hp.idle
    ((addrHeader (progOpcode s.cfg s.seq.pwSel) a ++ data).take k)
  rw [← take_sendCalls (by rw [List.length_append, hl]; omega)] at hsent
  refine ⟨_, State.serve_cut_next (s := s.turnPwSel)
    (by rw [sendCalls_length, List.length_append, hl]; omega) hr (by rw [hsent]; exact hf), ?_, ?_⟩
  · rw [hsent]; exact State.assertReset_cutAfter rfl rfl hf
  · rw [hsent]; exact State.exchanges_prog_take hw hp s.seq.pwSel data k

/-- READPAGE of which chip-select and `k` exchanges have been made: the host has the cells that came, and of the
target only draws are gone (43_page_read.md R130). -/
theorem exec_readPage_cut {s : State} (h : s.reaches = true) (hw : s.cfg.wf = true) {a : Addr}
    (hp : s.PageReady a) {k : Nat} (hr : s.resetIn = some (k + 1)) {size : Nat} (hk : k < size + 9) :
    let got := Draws.fill ((List.range (k - 8)).map (s.tgt.pageCell a)) s.tgt.free
    ∃ t : State, exec (.readPage a size) s = .next t ∧
      t.CutAfter ((readHeader s.cfg a ++ List.replicate size s.cfg.dummy).take k) ∧
      t.tgt = { s.tgt with free := got.2 } ∧ t.seq.hostBuf = got.1 ++ s.seq.hostBuf.drop (k - 8) := by
  intro got
  obtain ⟨-, hf⟩ := State.reaches_iff.1 h
  have hread := State.performAll_read_cut h hw hp (n := size) (k := k) (by omega)
  refine ⟨_, State.serve_cut_next (by rw [readCalls_length]; omega) hr (by rw [hread]; exact hf), ?_, ?_, ?_⟩
  · rw [hread]; exact State.assertReset_cutAfter rfl rfl hf
  · rw [hread]; rfl
  · rw [hread]; rfl

/-- Settles O54: the two operations cut, the bytes of a page read written with its header's dummies. -/
theorem resetCutsATransaction : Obligations.ResetCutsATransaction := by
  intro s a k hw hc hf hp hr cut
  have hreach : s.reaches = true := State.reaches_iff.2 ⟨hc, hf⟩
  refine ⟨?_, ?_⟩
  · intro data hk b opc
    exact exec_writePage_cut hreach hw hp hr hk
  · intro size hk got
    have hread := exec_readPage_cut hreach hw hp hr hk
    rw [readHeader_append_dummies] at hread
    exact hread

/-! ### A truncated transaction -/

/-- The edge by which INIT ends a truncated transaction, where the target turns its bytes down. -/
theorem State.performAll_init_edge_refused {s : State} (h : s.reaches = true) (hcs : s.seq.cs = false)
    {f : TgtFault} (hv : s.tgt.verdict s.cfg s.shifted = .error f) :
    (s.performAll (initCalls s.cfg)).1.tgtFault = some f := by
  rw [State.performAll_init, State.csDeassert_reached h hcs, Tgt.latch_error hv]
  exact State.performAll_tgtFault rfl _

/-- The state in which the target has taken the bytes since the `CS0` as the command `i`, chip-select high. -/
def State.taken (s : State) (i : Instr) : State :=
  { s with tgt := s.tgt.commit s.cfg i, shifted := [], seq := { s.seq with cs := true } }

/-- INIT's first calls do not tell a truncated transaction that the target takes at their edge from one that it
has taken before. -/
theorem State.performAll_init_edge_taken {s : State} (h : s.reaches = true) (hcs : s.seq.cs = false) {i : Instr}
    (hv : s.tgt.verdict s.cfg s.shifted = .ok i) :
    s.performAll (initCalls s.cfg) = (s.taken i).performAll (initCalls s.cfg) := by
  have hedge : s.csDeassert = (s.taken i).csDeassert := by
    rw [State.csDeassert_reached h hcs, State.csDeassert_high rfl, Tgt.latch_ok hv,
      ← (State.reaches_iff.1 h).2]
    rfl
  rw [State.performAll_init, hedge]
  exact (State.performAll_init (s.taken i)).symm

/-- An operation depends on the state that its first calls leave, and not on the one before them. -/
theorem State.serve_congr {s u : State} {g : Stage} {cs : List Call} (hne : cs ≠ []) (hs : s.resetIn = none)
    (hu : u.resetIn = none) (h : s.performAll cs = u.performAll cs) : s.serve g cs = u.serve g cs := by
  rw [State.serve, State.serve, State.resume, State.resume, State.carryOn_piece hne hs,
    State.carryOn_piece hne hu, h]

/-- Settles O55: the first of INIT's calls is the edge that ends the transaction; the bytes are turned down there,
or taken. -/
theorem truncatedTransactionEndsAtInit : Obligations.TruncatedTransactionEndsAtInit := by
  intro s hu hcs
  have hreach : s.resetRegs.reaches = true := hu.reaches
  refine ⟨fun why hm hd => ?_, fun i hv => ?_⟩
  · have hcalls := State.performAll_init_edge_refused hreach hcs (Tgt.verdict_unknown hd hm)
    exact exec_faultsWith (i := .init) rfl hu.noReset
      (State.carryOn_tgtFault (s := s.resetRegs) (by simp) hu.noReset hcalls 3)
  · exact State.serve_congr (u := s.resetRegs.taken i) (by simp) hu.noReset hu.noReset
      (State.performAll_init_edge_taken hreach hcs hv)

end Sys2Proof.Machine
end
